-- ==== Sys2Proof/Word.lean ====
section
/-! DEFINITION. The word types of the block (00_scope.md R10): bytes, 16-bit sizes and counts, 32-bit
offsets, seeds and lengths. -/

namespace Sys2Proof

/-- A byte: the addressable unit of SRC and the element of every byte sequence (20_memory.md R52). -/
abbrev Byte := BitVec 8

/-- A 16-bit unsigned value: a block size, a count, an index (R10, R28, R34). -/
abbrev Half := BitVec 16

/-- A 32-bit value: the LFSR state, a seed, a file offset, a length operand (R10, R11). -/
abbrev Word := BitVec 32

/-- The parser's cursor: 33 bits, so that `offset + 20` never wraps (10_state.md R26). -/
abbrev Cursor := BitVec 33

end Sys2Proof
end

