-- ==== Sys2Proof/Config.lean ====
section
/-! DEFINITION. The implementation parameters (00_scope.md section 5): the constants the source fixes, the
parameters fixed at instantiation (`Configuration`), the open seed and the free values. -/

namespace Sys2Proof

namespace Config

/-- FEEDBACK, the feedback constant of the LFSR (00_scope.md R4). -/
def feedback : Word := 0x87654321

/-- MAGIC, `"CT2018"`, in source order (00_scope.md R6).
PRESUMED (log 13): the ASCII codes come from general knowledge, as R6 marks. -/
def magic : List Byte := [0x43, 0x54, 0x32, 0x30, 0x31, 0x38]

/-- SENTINEL, the list terminator (00_scope.md R7). -/
def sentinel : Word := 0xFFFFFFFF

/-- FIND_PREFIX, `"MAGIC"` (42_parser.md R154).
PRESUMED (log 13): the ASCII codes come from general knowledge, as R154 marks. -/
def findPrefix : List Byte := [0x4D, 0x41, 0x47, 0x49, 0x43]

/-- KDB_SEED, the seed of every entry: OPEN, no rule may assume a value (00_scope.md R5; log 1, safe). -/
opaque kdbSeed : Word

/-- Free values: bytes of an operand sequence that the host did not hand over (log 12, safe). Nothing
constrains them. -/
opaque freeByte : Nat → Byte

end Config

/-- The parameters fixed when the block is instantiated, never changed by a command or by reset
(10_state.md R39; 00_scope.md R5, R8, R9). The caps are 16 bits: the range admitted is 0 to 65535. -/
structure Configuration where
  /-- KDB_SEED, read as CR1 (R5, R39). -/
  kdbSeed : Word
  /-- ENTRY_CAP, read as CR5 (R8, R39). -/
  entryCap : Half
  /-- BLOCK_CAP, read as CR6 (R8, R39). -/
  blockCap : Half
  /-- STRICT_CAP, read as bit 0 of CR7 (R9, R39). -/
  strictCap : Bool
deriving DecidableEq, Repr

/-- The default configuration: caps 127 and 255, STRICT_CAP 0, the open seed (R5, R8, R9; log 1, log 2). -/
def Configuration.default : Configuration :=
  { kdbSeed := Config.kdbSeed, entryCap := 127, blockCap := 255, strictCap := false }

end Sys2Proof
end

