-- ==== Sys2Proof/Syntax.lean ====
section
/-! DEFINITION. The instructions: one constructor per row of spec/opcode_table.json, host commands and
container records alike (30_encoding.md R70). Operands of a command are whole values on ports (R71, R74), so
the constructors of the four commands carry none. -/

namespace Sys2Proof

/-- A command or a record, as decoded. -/
inductive Instr where
  /-- KS.GEN, code 0x01 (R72). -/
  | ksGen
  /-- XOR.APPLY, code 0x02 (R72). -/
  | xorApply
  /-- KDB.DECODE, code 0x03 (R72). -/
  | kdbDecode
  /-- KDB.FIND, code 0x04 (R72). -/
  | kdbFind
  /-- CMD.ILLEGAL, every other code (R73). -/
  | cmdIllegal (op : Byte)
  /-- HDR, the header with its `entryListOffset` (R76). -/
  | hdr (eloff : Word)
  /-- ENT.END, the entry-list sentinel (R78). -/
  | entEnd
  /-- ENT, an entry record: 16 raw name bytes and `blockListOffset` (R77). -/
  | ent (name : List Byte) (blkoff : Word)
  /-- BLK.END, the block-list sentinel with its two ignored bytes, the first of them the low one (R80, R86). -/
  | blkEnd (ignored : Half)
  /-- BLK, a block record: `size` and `dataOffset` (R79). -/
  | blk (size : Half) (dataoff : Word)
deriving DecidableEq, Repr

/-- Where an encoding stands: on port CMD, at offset 0 of SRC, at an entry-list position, at a block-list
position (R70, R76 to R80). -/
inductive Position where
  | command
  | header
  | entryList
  | blockList
deriving DecidableEq, Repr

/-- The position an instruction is decoded at. -/
def Instr.position : Instr → Position
  | .ksGen => .command
  | .xorApply => .command
  | .kdbDecode => .command
  | .kdbFind => .command
  | .cmdIllegal _ => .command
  | .hdr _ => .header
  | .entEnd => .entryList
  | .ent _ _ => .entryList
  | .blkEnd _ => .blockList
  | .blk _ _ => .blockList

/-- The mnemonic, as the opcode map spells it (30_encoding.md section 8). -/
def Instr.mnemonic : Instr → String
  | .ksGen => "KS.GEN"
  | .xorApply => "XOR.APPLY"
  | .kdbDecode => "KDB.DECODE"
  | .kdbFind => "KDB.FIND"
  | .cmdIllegal _ => "CMD.ILLEGAL"
  | .hdr _ => "HDR"
  | .entEnd => "ENT.END"
  | .ent _ _ => "ENT"
  | .blkEnd _ => "BLK.END"
  | .blk _ _ => "BLK"

/-- The length in bytes of an instruction's encoding: 1 for a command (R71), 10, 4, 20, 6 and 6 for the records
(R76 to R80, R88). -/
def Instr.size : Instr → Nat
  | .ksGen => 1
  | .xorApply => 1
  | .kdbDecode => 1
  | .kdbFind => 1
  | .cmdIllegal _ => 1
  | .hdr _ => 10
  | .entEnd => 4
  | .ent _ _ => 20
  | .blkEnd _ => 6
  | .blk _ _ => 6

end Sys2Proof
end

