-- ==== Sys2Proof/WellFormed.lean ====
section
/-! DEFINITION. Which instructions some encoding expresses (30_encoding.md R73, R77, R85). -/

namespace Sys2Proof

/-- A code no command has (R73). -/
def illegalCode (op : Byte) : Bool :=
  op != 0x01 && op != 0x02 && op != 0x03 && op != 0x04

/-- A name of 16 bytes (R77) that does not begin with the sentinel (R85). -/
def nameExpressible (name : List Byte) : Bool :=
  name.length == 16 && name.take 4 != [0xFF, 0xFF, 0xFF, 0xFF]

/-- A block record whose first four bytes are not the sentinel: not size 0xFFFF with low offset half 0xFFFF
(R85). -/
def blockExpressible (size : Half) (dataoff : Word) : Bool :=
  !(size == 0xFFFF && dataoff.setWidth 16 == (0xFFFF : Half))

/-- Well-formed: an encoding expresses it. -/
def Instr.wf : Instr → Bool
  | .ksGen => true
  | .xorApply => true
  | .kdbDecode => true
  | .kdbFind => true
  | .cmdIllegal op => illegalCode op
  | .hdr _ => true
  | .entEnd => true
  | .ent name _ => nameExpressible name
  | .blkEnd _ => true
  | .blk size dataoff => blockExpressible size dataoff

end Sys2Proof
end

