-- ==== Sys2Proof/Decode.lean ====
section
/-! DEFINITION. The decoder, the encoder, field assembly and the opcode table (30_encoding.md). -/

namespace Sys2Proof

/-! ## Field assembly (R54, R83) -/

/-- LE16: the byte at the lowest offset is the least significant (00_scope.md section 6). -/
def le16 (q : List Byte) : Half :=
  q.getD 1 0 ++ q.getD 0 0

/-- LE32 of the first four bytes (00_scope.md section 6). -/
def le32 (q : List Byte) : Word :=
  q.getD 3 0 ++ q.getD 2 0 ++ q.getD 1 0 ++ q.getD 0 0

/-- The two bytes whose LE16 is `v`. -/
def bytesOf16 (v : Half) : List Byte :=
  [v.extractLsb' 0 8, v.extractLsb' 8 8]

/-- The four bytes whose LE32 is `v`. -/
def bytesOf32 (v : Word) : List Byte :=
  [v.extractLsb' 0 8, v.extractLsb' 8 8, v.extractLsb' 16 8, v.extractLsb' 24 8]

/-- The sentinel test, on the first four bytes in both lists (R82, R88; 90_conflicts.md C5). -/
def isSentinel (q : List Byte) : Bool :=
  le32 q == Config.sentinel

/-! ## Decoding -/

/-- The command codes (R72); every other code is CMD.ILLEGAL (R73). -/
def decodeCommand (op : Byte) : Instr :=
  if op = 0x01 then .ksGen
  else if op = 0x02 then .xorApply
  else if op = 0x03 then .kdbDecode
  else if op = 0x04 then .kdbFind
  else .cmdIllegal op

/-- The ten bytes of a header whose magic has been compared (R76). -/
def decodeHeaderRecord (q : List Byte) : Instr :=
  .hdr (le32 (q.drop 6))

/-- The bytes at an entry-list position: ENT.END is tried before ENT (R77, R78, R82). -/
def decodeEntryRecord (q : List Byte) : Instr :=
  if isSentinel q then .entEnd else .ent (q.take 16) (le32 (q.drop 16))

/-- The six bytes at a block-list position: BLK.END is tried before BLK (R79, R80, R82). -/
def decodeBlockRecord (q : List Byte) : Instr :=
  if isSentinel q then .blkEnd (le16 (q.drop 4)) else .blk (le16 q) (le32 (q.drop 2))

/-- Why bytes decode to no instruction. -/
inductive DecodeError where
  /-- Fewer bytes than the record has (R88); the parser's read of them raises TruncatedError. -/
  | tooShort
  /-- Six bytes that are not MAGIC at offset 0 (R76): a header of no other kind. -/
  | badMagic
deriving DecidableEq, Repr

/-- Decoding at a position: the instruction and the bytes after it. Total on any bytes. The magic is compared
before the offset is needed (R132), and ENT.END needs four bytes only (R87). -/
def decode : Position → List Byte → Except DecodeError (Instr × List Byte)
  | .command, q =>
    if q.length < 1 then .error .tooShort else .ok (decodeCommand (q.getD 0 0), q.drop 1)
  | .header, q =>
    if q.length < 6 then .error .tooShort
    else if q.take 6 ≠ Config.magic then .error .badMagic
    else if q.length < 10 then .error .tooShort
    else .ok (decodeHeaderRecord (q.take 10), q.drop 10)
  | .entryList, q =>
    if q.length < 4 then .error .tooShort
    else if isSentinel q then .ok (decodeEntryRecord (q.take 4), q.drop 4)
    else if q.length < 20 then .error .tooShort
    else .ok (decodeEntryRecord (q.take 20), q.drop 20)
  | .blockList, q =>
    if q.length < 6 then .error .tooShort
    else .ok (decodeBlockRecord (q.take 6), q.drop 6)

/-! ## Encoding -/

/-- The bytes of an instruction, first byte first (R72, R76 to R80). -/
def encode : Instr → List Byte
  | .ksGen => [0x01]
  | .xorApply => [0x02]
  | .kdbDecode => [0x03]
  | .kdbFind => [0x04]
  | .cmdIllegal op => [op]
  | .hdr eloff => Config.magic ++ bytesOf32 eloff
  | .entEnd => bytesOf32 Config.sentinel
  | .ent name blkoff => name ++ bytesOf32 blkoff
  | .blkEnd ignored => bytesOf32 Config.sentinel ++ bytesOf16 ignored
  | .blk size dataoff => bytesOf16 size ++ bytesOf32 dataoff

/-! ## The opcode table (R75, R82) -/

/-- A row of the opcode map: a record or command is of this kind when `W &&& mask = pattern`, W being the
little-endian integer of its first `nbits` bits; among the rows of one position the lower priority number is
tried first. -/
structure TableRow where
  mnemonic : String
  position : Position
  nbits : Nat
  pattern : Nat
  mask : Nat
  priority : Nat
deriving DecidableEq, Repr

/-- The rows, in the order of 30_encoding.md section 8, priority 0 before priority 1 at each position. -/
def opcodeTable : List TableRow :=
  [⟨"KS.GEN", .command, 8, 0x01, 0xFF, 0⟩,
   ⟨"XOR.APPLY", .command, 8, 0x02, 0xFF, 0⟩,
   ⟨"KDB.DECODE", .command, 8, 0x03, 0xFF, 0⟩,
   ⟨"KDB.FIND", .command, 8, 0x04, 0xFF, 0⟩,
   ⟨"CMD.ILLEGAL", .command, 8, 0x00, 0x00, 1⟩,
   ⟨"HDR", .header, 80, 0x383130325443, 0xFFFFFFFFFFFF, 0⟩,
   ⟨"ENT.END", .entryList, 32, 0xFFFFFFFF, 0xFFFFFFFF, 0⟩,
   ⟨"ENT", .entryList, 160, 0x00, 0x00, 1⟩,
   ⟨"BLK.END", .blockList, 48, 0xFFFFFFFF, 0xFFFFFFFF, 0⟩,
   ⟨"BLK", .blockList, 48, 0x00, 0x00, 1⟩]

/-- The little-endian integer of a byte sequence (R75). -/
def wordOfBytes : List Byte → Nat
  | [] => 0
  | b :: q => b.toNat + 256 * wordOfBytes q

/-- The bytes match a row of their position: they are as many as the row has, and `W &&& mask = pattern` (R75). -/
def TableRow.matchesAt (p : Position) (q : List Byte) (r : TableRow) : Bool :=
  r.position == p && r.nbits ≤ 8 * q.length && (wordOfBytes (q.take (r.nbits / 8)) &&& r.mask) == r.pattern

/-- Of two rows the one tried first: the lower priority number, the earlier row among equals (R82). -/
def TableRow.triedFirst : Option TableRow → TableRow → Option TableRow
  | none, r => some r
  | some best, r => if r.priority < best.priority then some r else some best

/-- The row that a list of rows gives bytes at a position: the one of least priority number that matches, wherever it
stands in the list (R75, R82). -/
def selectFrom (rows : List TableRow) (p : Position) (q : List Byte) : Option TableRow :=
  (rows.filter (TableRow.matchesAt p q)).foldl TableRow.triedFirst none

/-- The row of the opcode table for bytes at a position. -/
def selectRow (p : Position) (q : List Byte) : Option TableRow :=
  selectFrom opcodeTable p q

/-! ## The table's words, as the host numbers them -/

/-- The first `n` bytes of the word `w`, bit 0 the least significant bit of the first byte (R75). -/
def bytesOfWord : Nat → Nat → List Byte
  | 0, _ => []
  | n + 1, w => BitVec.ofNat 8 w :: bytesOfWord n (w / 256)

/-- The position a row of so many bits stands at, and the bytes the longest instruction there has. -/
def positionOfBits (nbits : Nat) : Option (Position × Nat) :=
  if nbits = 8 then some (.command, 1)
  else if nbits = 80 then some (.header, 10)
  else if nbits = 32 then some (.entryList, 20)
  else if nbits = 160 then some (.entryList, 20)
  else if nbits = 48 then some (.blockList, 6)
  else none

/-- The bytes of a table word as SRC (or port CMD) holds them: the bits from `nbits` on are 0. -/
def tableBytes (nbits w len : Nat) : List Byte :=
  bytesOfWord len (w % 2 ^ nbits)

/-- The instruction the decoder reads from a table word. -/
def decodeTableWord (nbits w : Nat) : Option Instr :=
  match positionOfBits nbits with
  | none => none
  | some (p, len) =>
    match decode p (tableBytes nbits w len) with
    | .ok (i, _) => some i
    | .error _ => none

end Sys2Proof
end

