-- ==== Sys2Proof/Machine/State.lean ====
section
/-! DEFINITION. The state of the block as plain data (10_state.md), grouped by the unit that owns it (R20), and
the state after reset (70_reset_and_hazards.md R201). -/

namespace Sys2Proof.Machine

/-- KSG's registers (R20 to R22). -/
structure Ksg where
  /-- S, the LFSR state register (R21). -/
  S : Word
  /-- BITCNT, the stages done of the byte in progress (R22). -/
  bitcnt : BitVec 3
  /-- KCNT, the bytes still to produce (R22). -/
  kcnt : Word
deriving DecidableEq, Repr

/-- PAR's working registers (R25). -/
structure Parser where
  /-- CUR, the cursor (R26). -/
  cur : Cursor
  /-- PROBE, six bytes (R27). -/
  probe : List Byte
  /-- EIDX, the entry being processed (R28). -/
  eidx : Half
  /-- BCNT, the blocks committed for that entry (R28). -/
  bcnt : Half
  /-- The model's own: the loop variable b of the data phase of R130 (log 7). -/
  didx : Half
  /-- TLEN, the length of CBUF (R29). -/
  tlen : Word
  /-- CBUF, the concatenation buffer (R29). -/
  cbuf : List Byte
  /-- The model's own: the ordinal of the last read of SRC within the command (R58; log 7). -/
  reads : Nat
deriving DecidableEq, Repr

/-- A committed block record (R34). -/
structure Block where
  size : Half
  dataoff : Word
deriving DecidableEq, Repr

/-- An entry of the result store (R32 to R36). -/
structure Entry where
  /-- The 16 bytes of the name (R32). -/
  name : List Byte
  /-- blockListOffset (R33). -/
  blkoff : Word
  /-- The number of block records committed (R34). -/
  nblk : Half
  /-- BLK[0] to BLK[nblk - 1] (R34). -/
  blks : List Block
  /-- The deciphered bytes, once resolved (R35). -/
  payload : List Byte
  /-- The payload's length (R35). -/
  plen : Word
  /-- RESOLVED (R36). -/
  resolved : Bool
deriving DecidableEq, Repr

/-- The result store (R30). -/
structure Store where
  /-- HDRV (R31). -/
  hdrv : Bool
  /-- HDR.eloff, meaningful while HDRV is 1 (R31). -/
  eloff : Word
  /-- ECNT (R28, R30). -/
  ecnt : Half
  /-- ENT[0] to ENT[ECNT - 1]; what lies at or above ECNT is meaningless and not held (R30; U22; log 5). -/
  ent : List Entry
deriving DecidableEq, Repr

/-- PHASE (R37). The value 7 is never taken (U25). -/
inductive Phase where
  | idle
  | hdr
  | entlist
  | blklist
  | data
  | dec
  | cmd
deriving DecidableEq, Repr

/-- The error responses (60_exceptions.md R170). -/
inductive Err where
  | formatError
  | truncatedError
  | lengthMismatch
  | sourceUnavailable
  | noSignatureFound
  | lengthNegative
  | illegalCommand
deriving DecidableEq, Repr

/-- The response of a command: OK or an error (R170). -/
inductive Response where
  | ok
  | error (e : Err)
deriving DecidableEq, Repr

/-- The stored part of the status group: BUSY and ERR of STATUS (R40), PHASE and SUB of ERRINFO (R41), EIDX and
BIDX of ERRIDX (R42). HDRV of STATUS and CR11 are views of the result store (R40, R43). -/
structure Status where
  busy : Bool
  err : Response
  errPhase : Phase
  errSub : BitVec 2
  errEidx : Half
  errBidx : Half
deriving DecidableEq, Repr

/-- The bytes of SRC that are not 00, addresses strictly rising: one list for one array of bytes (log 10). -/
abbrev Memory := List Host.Cell

/-- SRC_AVAIL as a function of the ordinal, chosen by the environment (20_memory.md R58): the value at the start
test (ordinal 0) and at reads 1, 2, ... in order, then the value at every later ordinal. The boolean form is an
empty list (log 11). -/
structure Avail where
  first : List Bool
  rest : Bool
deriving DecidableEq, Repr

/-- The container byte source: its bytes, SRC_LEN from 0 to 2^32, SRC_AVAIL (R12, R50, R58). -/
structure Source where
  mem : Memory
  len : Fin (2 ^ 32 + 1)
  avail : Avail
deriving DecidableEq, Repr

/-- The input ports with the operands on them (R44, R74). They are filled at a command's acceptance and empty again
from its response on, since ports hold no state between commands (R44, R45). -/
structure Ports where
  cmd : Byte
  len : Word
  seed : Word
  dlen : Word
  dataIn : List Byte
  klen : Word
  ksIn : List Byte
  src : Source
  /-- The model's own: which free values stand for bytes of DATA_IN and KS_IN that the host does not hand over, chosen
  by the environment with the operands (log 12). -/
  freeAt : Nat
deriving DecidableEq, Repr

/-- What a response delivers: the response, OUT, and IDX when the command returns one (R44, R178, R180). -/
structure Delivery where
  resp : Response
  out : List Byte
  idx : Option Half
deriving DecidableEq, Repr

/-- The state of the block, with the host's inputs. -/
structure State where
  /-- The parameters fixed at instantiation (R39). -/
  cfg : Configuration
  /-- KSG's registers. -/
  ksg : Ksg
  /-- PAR's working registers. -/
  par : Parser
  /-- The result store. -/
  store : Store
  /-- PHASE. -/
  phase : Phase
  /-- The status group. -/
  status : Status
  /-- The operands of the command in progress; empty while there is none (R44, R45; log 8). -/
  ports : Ports
  /-- A command presented at the port and not accepted yet (R205; log 8). -/
  waiting : Option Ports
  /-- What the response delivers, in the state that the responding step answers and in no later one (R44, R178, R180;
  log 8). -/
  delivery : Option Delivery
  /-- The reset event, asserted by the host (R200; log 9). -/
  resetIn : Bool
deriving DecidableEq, Repr

/-- There is no fault: every error of the spec is a response and a next state (R170, R180; log 18). -/
inductive Fault where
deriving DecidableEq, Repr

/-- Why a step has no meaning. -/
inductive Refusal where
  /-- An instruction without a meaning yet, by its mnemonic; raised by an arm of exec only, and by none in this
  model. Safe: the machine stops. -/
  | notModelled (mnemonic : String)
deriving DecidableEq, Repr

/-- Nothing on the ports: no command, no operand, no source (R201). -/
def Ports.empty : Ports :=
  { cmd := 0, len := 0, seed := 0, dlen := 0, dataIn := [], klen := 0, ksIn := [],
    src := { mem := [], len := ⟨0, by decide⟩, avail := ⟨[], false⟩ }, freeAt := 0 }

/-- S and the hidden counters after reset: unspecified (R201, R202).
DESIGN CHOICE (log 3, unsafe): zero. -/
def Ksg.reset : Ksg := { S := 0, bitcnt := 0, kcnt := 0 }

/-- PAR's working registers after reset: unspecified (R201).
DESIGN CHOICE (log 4, unsafe): zero and empty. -/
def Parser.reset : Parser :=
  { cur := 0, probe := [0, 0, 0, 0, 0, 0], eidx := 0, bcnt := 0, didx := 0, tlen := 0, cbuf := [], reads := 0 }

/-- The result store after reset: HDRV 0, ECNT 0 (R201).
DESIGN CHOICE (log 5, unsafe): HDR.eloff, unspecified, is zero. -/
def Store.reset : Store := { hdrv := false, eloff := 0, ecnt := 0, ent := [] }

/-- The status group after reset: all 0 (R201). -/
def Status.reset : Status :=
  { busy := false, err := .ok, errPhase := .idle, errSub := 0, errEidx := 0, errBidx := 0 }

/-- The machine right after reset, with the default configuration (R201). -/
def State.reset : State :=
  { cfg := Configuration.default, ksg := Ksg.reset, par := Parser.reset, store := Store.reset, phase := .idle,
    status := Status.reset, ports := Ports.empty, waiting := none, delivery := none, resetIn := false }

end Sys2Proof.Machine
end

