-- ==== Sys2Proof/Machine/Flags.lean ====
section
/-! DEFINITION. The numeric codes (R37, R170), the control registers as the host reads them (R38 to R43) and the
indices that a raise records (R42). -/

namespace Sys2Proof.Machine

/-- The value of PHASE (R37). -/
def Phase.code : Phase → BitVec 3
  | .idle => 0
  | .hdr => 1
  | .entlist => 2
  | .blklist => 3
  | .data => 4
  | .dec => 5
  | .cmd => 6

/-- The error codes (R170). -/
def Err.code : Err → BitVec 4
  | .formatError => 1
  | .truncatedError => 2
  | .lengthMismatch => 3
  | .sourceUnavailable => 4
  | .noSignatureFound => 5
  | .lengthNegative => 6
  | .illegalCommand => 7

/-- STATUS.ERR for a response (R170). -/
def Response.code : Response → BitVec 4
  | .ok => 0
  | .error e => e.code

/-- STATUS (R40): ERR in [7:4], HDRV in [1], BUSY in [0], the rest 0. -/
def State.statusWord (s : State) : Word :=
  (0 : BitVec 24) ++ s.status.err.code ++ (0 : BitVec 2) ++ BitVec.ofBool s.store.hdrv ++
    BitVec.ofBool s.status.busy

/-- ERRINFO (R41): SUB in [5:4], PHASE in [2:0], the rest 0. -/
def State.errinfoWord (s : State) : Word :=
  (0 : BitVec 26) ++ s.status.errSub ++ (0 : BitVec 1) ++ s.status.errPhase.code

/-- ERRIDX (R42): BIDX in [31:16], EIDX in [15:0]. -/
def State.erridxWord (s : State) : Word :=
  s.status.errBidx ++ s.status.errEidx

/-- The control registers by number, without side effect (R38, R39, R189). No other number is a register: the
host has no such move (U27; log 22). -/
def State.readCR (s : State) : Nat → Option Word
  | 0 => some Config.feedback
  | 1 => some s.cfg.kdbSeed
  | 2 => some (le32 Config.magic)
  | 3 => some ((le16 (Config.magic.drop 4)).setWidth 32)
  | 4 => some Config.sentinel
  | 5 => some (s.cfg.entryCap.setWidth 32)
  | 6 => some (s.cfg.blockCap.setWidth 32)
  | 7 => some ((BitVec.ofBool s.cfg.strictCap).setWidth 32)
  | 8 => some s.statusWord
  | 9 => some s.errinfoWord
  | 10 => some s.erridxWord
  | 11 => some (s.store.ecnt.setWidth 32)
  | _ => none

/-- The entry and block index a raise records, by the phase it happens in (R42; 90_conflicts.md C9). -/
def State.errIndices (s : State) : Half × Half :=
  match s.phase with
  | .idle => (0, 0)
  | .cmd => (0, 0)
  | .hdr => (0, 0)
  | .entlist => (s.store.ecnt, 0)
  | .blklist => (s.par.eidx, s.par.bcnt)
  | .data => (s.par.eidx, s.par.didx)
  | .dec => (0, 0)

end Sys2Proof.Machine
end

