-- ==== Sys2Proof/Machine/Memory.lean ====
section
/-! DEFINITION. SRC as memory (20_memory.md): reading bytes, the canonical form, building a source, and the
read primitive `memRead` (R55). -/

namespace Sys2Proof.Machine

/-- What an address with no cell reads as. Every byte of SRC is the host's; the cells list those that are not 00,
so this fixes no byte (log 10, safe). -/
def unlistedByte : Byte := 0

/-- The byte at an address. -/
def Memory.read : Memory → Nat → Byte
  | [], _ => unlistedByte
  | (b, v) :: m, a => if b = a then v else Memory.read m a

/-- The memory with the byte at `a` changed. The host's move only: the block never writes SRC (R53). -/
def Memory.write : Memory → Nat → Byte → Memory
  | [], a, v => if v = unlistedByte then [] else [(a, v)]
  | (b, x) :: m, a, v =>
    if a < b then (if v = unlistedByte then (b, x) :: m else (a, v) :: (b, x) :: m)
    else if a = b then (if v = unlistedByte then m else (a, v) :: m)
    else (b, x) :: Memory.write m a v

/-- Addresses rise strictly from `lo` on, and no cell holds what an unlisted address reads as. -/
def Memory.above : Nat → Memory → Bool
  | _, [] => true
  | lo, (b, v) :: m => decide (lo ≤ b) && v != unlistedByte && Memory.above (b + 1) m

/-- The canonical form: one list for one contents. -/
def Memory.wf (m : Memory) : Bool :=
  Memory.above 0 m

/-- `n` bytes from `a` on, in address order. -/
def Memory.readBytes (m : Memory) : Nat → Nat → List Byte
  | _, 0 => []
  | a, n + 1 => m.read a :: Memory.readBytes m (a + 1) n

/-- The memory with the bytes `q` placed from `a` on. -/
def Memory.writeBytes : Memory → Nat → List Byte → Memory
  | m, _, [] => m
  | m, a, b :: q => Memory.writeBytes (m.write a b) (a + 1) q

/-- SRC_LEN from a count of bytes; a count above 2^32 is not admitted as SRC_LEN (R12; U32). -/
def srcLength (n : Nat) : Fin (2 ^ 32 + 1) :=
  if h : n < 2 ^ 32 + 1 then ⟨n, h⟩ else ⟨2 ^ 32, by decide⟩

/-- A source that can be read throughout: the boolean form of SRC_AVAIL (R58). -/
def Avail.always : Avail := ⟨[], true⟩

/-- SRC_AVAIL at an ordinal: 0 the start test, k the k-th read (R58; log 11). -/
def Avail.holds (av : Avail) (k : Nat) : Bool :=
  (av.first[k]?).getD av.rest

/-- The source that holds the bytes `q` from offset 0. -/
def Source.ofBytes (q : List Byte) : Source :=
  { mem := Memory.writeBytes [] 0 q, len := srcLength q.length, avail := Avail.always }

/-- The source with bytes placed at an offset, long enough to hold them, and readable. -/
def Source.place (src : Source) (a : Nat) (q : List Byte) : Source :=
  { mem := src.mem.writeBytes a q, len := srcLength (max src.len.val (a + q.length)), avail := Avail.always }

/-- The byte of SRC at an offset (R50). -/
def Source.byte (src : Source) (a : Nat) : Byte :=
  src.mem.read a

/-- `n` bytes of SRC from an offset on. -/
def Source.bytes (src : Source) (a n : Nat) : List Byte :=
  src.mem.readBytes a n

/-- Every cell lies inside SRC, and the memory is canonical. -/
def Source.wf (src : Source) : Bool :=
  src.mem.wf && src.mem.all fun c => decide (c.1 < src.len.val)

/-- `MemRead(addr, n)` as the k-th read of a command (R55): nothing is read when n is 0 (R56), then SRC_AVAIL is
tested (R58), then the bound; all or nothing. The sum is an exact integer (R57). -/
def memRead (src : Source) (k addr n : Nat) : Except Err (List Byte) :=
  if n = 0 then .ok []
  else if src.avail.holds k = false then .error .sourceUnavailable
  else if addr + n > src.len.val then .error .truncatedError
  else .ok (src.bytes addr n)

end Sys2Proof.Machine
end

