-- ==== Sys2Proof/Machine/Operands.lean ====
section
/-! DEFINITION. The operand forms: length operands (R11) and byte sequences on ports (R44, R74). -/

namespace Sys2Proof.Machine

/-- A length operand with bit 31 set is negative (R11, R107, R123). -/
def lengthNegative (l : Word) : Bool :=
  l.getLsbD 31

/-- How many of the `n` bytes of an operand sequence the host did not hand over. -/
def missingBytes (q : List Byte) (n : Nat) : Nat :=
  n - q.length

/-- The `n` bytes of an operand sequence: the bytes handed over, as many as its length port says (R44).
DESIGN CHOICE (log 12): where the port's sequence is shorter than its length, the bytes it lacks are free values;
where it is longer, the bytes beyond the length are no part of the operand. -/
def portBytes (q : List Byte) (n first : Nat) : List Byte :=
  q.take n ++ (List.range (missingBytes q n)).map fun k => Config.freeByte (first + k)

/-- LEN of KS.GEN (R106). -/
def State.genLength (s : State) : Word := s.ports.len

/-- SEED of KS.GEN (R106). -/
def State.genSeed (s : State) : Word := s.ports.seed

/-- DATA_IN, DLEN bytes (R121). -/
def State.dataOperand (s : State) : List Byte :=
  portBytes s.ports.dataIn s.ports.dlen.toNat s.ports.freeAt

/-- KS_IN, KLEN bytes (R121). Its free bytes, if any, come after those of DATA_IN. -/
def State.keyOperand (s : State) : List Byte :=
  portBytes s.ports.ksIn s.ports.klen.toNat
    (s.ports.freeAt + missingBytes s.ports.dataIn s.ports.dlen.toNat)

end Sys2Proof.Machine
end

