-- ==== Sys2Proof/Machine/Ops.lean ====
section
/-! DEFINITION. The operations every command and record is written with: reset, acceptance, the OK response,
raising an error, reading SRC, committing to the result store, and moving between phases. -/

namespace Sys2Proof.Machine

/-! ## Reset and acceptance -/

/-- The reset event (70 R200, R201): every piece of state at its reset value, the parameters fixed at
instantiation kept (R39), a command in progress or waiting gone without a response (log 9). -/
def State.applyReset (s : State) : State :=
  { State.reset with cfg := s.cfg }

/-- Acceptance of a presented command (R205): BUSY <- 1, PHASE <- CMD, its operands on the ports. -/
def State.accept (s : State) (p : Ports) : State :=
  { s with ports := p, waiting := none, phase := .cmd, status := { s.status with busy := true },
           delivery := none }

/-- The state after the response has been handed to the host: its port holds nothing (R44; log 8). -/
def State.delivered (s : State) : State :=
  { s with delivery := none }

/-- An idle step: a waiting command is accepted while BUSY = 0 (R205), else nothing happens but that a response just
given is gone from its port (log 15). -/
def State.idleStep (s : State) : State :=
  match s.status.busy, s.waiting with
  | false, some p => s.accept p
  | false, none => s.delivered
  | true, _ => s.delivered

/-! ## Responses -/

/-- The status group after `respond OK` (R178): ERR, ERRINFO, ERRIDX and BUSY all 0. -/
def Status.okay : Status :=
  { busy := false, err := .ok, errPhase := .idle, errSub := 0, errEidx := 0, errBidx := 0 }

/-- `respond OK(results)` (R178). The operands leave the ports (R44). -/
def State.respondOk (s : State) (out : List Byte) (idx : Option Half) : State :=
  { s with
    status := Status.okay
    phase := .idle
    ports := Ports.empty
    delivery := some { resp := .ok, out := out, idx := idx } }

/-- `raise E(info)` (R180): ERR is the code of E, ERRINFO the phase at the raise and SUB, ERRIDX the indices of
R42; PHASE <- IDLE, BUSY <- 0; no result is delivered and the operands leave the ports (R44); nothing else changes
(R181). -/
def State.raise (s : State) (e : Err) (sub : BitVec 2) : State :=
  { s with
    status := { busy := false, err := .error e, errPhase := s.phase, errSub := sub,
                errEidx := s.errIndices.1, errBidx := s.errIndices.2 }
    phase := .idle
    ports := Ports.empty
    delivery := some { resp := .error e, out := [], idx := none } }

/-! ## Reading SRC -/

/-- The outcome of a read: the bytes and the state after it, or the state after the error it raised. -/
inductive ReadResult where
  | bytes (q : List Byte) (s : State)
  | raised (s : State)
deriving DecidableEq, Repr

/-- A read is counted unless it is of zero bytes, which is no access (R56). -/
def State.countRead (s : State) (n : Nat) : State :=
  if n = 0 then s else { s with par := { s.par with reads := s.par.reads + 1 } }

/-- `MemRead` in a command (R55): the next ordinal's read, or its error raised (R172, R174). -/
def State.readSrc (s : State) (addr n : Nat) : ReadResult :=
  match memRead s.ports.src (s.par.reads + 1) addr n with
  | .ok q => .bytes q (s.countRead n)
  | .error e => .raised ((s.countRead n).raise e 0)

/-- CUR as an offset. -/
def State.cursor (s : State) : Nat :=
  s.par.cur.toNat

/-- PROBE[0 .. len q - 1] <- q (R27). -/
def State.setProbe (s : State) (q : List Byte) : State :=
  { s with par := { s.par with probe := q ++ s.par.probe.drop q.length } }

/-! ## The result store -/

/-- The entry at an index; below ECNT there is one. -/
def State.entryAt (s : State) (i : Nat) : Entry :=
  (s.store.ent[i]?).getD
    { name := [], blkoff := 0, nblk := 0, blks := [], payload := [], plen := 0, resolved := false }

/-- The store with entry `i` changed. -/
def State.modifyEntry (s : State) (i : Nat) (f : Entry → Entry) : State :=
  { s with store := { s.store with ent := s.store.ent.modify i f } }

/-- An entry as the entry-list phase commits it: no block, no payload, unresolved (R36, R137). -/
def freshEntry (name : List Byte) (blkoff : Word) : Entry :=
  { name := name, blkoff := blkoff, nblk := 0, blks := [], payload := [], plen := 0, resolved := false }

/-- The commit and advance of an entry record (R137, R138). -/
def State.commitEntry (s : State) (name : List Byte) (blkoff : Word) : State :=
  { s with
    store := { s.store with ecnt := s.store.ecnt + 1, ent := s.store.ent ++ [freshEntry name blkoff] }
    par := { s.par with cur := s.par.cur + 20 } }

/-- An entry with one more block record (R143, R144). -/
def Entry.addBlock (e : Entry) (b : Block) (n : Half) : Entry :=
  { e with blks := e.blks ++ [b], nblk := n }

/-- The commit and advance of a block record of entry EIDX (R143, R144). -/
def State.commitBlock (s : State) (size : Half) (dataoff : Word) : State :=
  let s' := s.modifyEntry s.par.eidx.toNat fun e => e.addBlock ⟨size, dataoff⟩ (s.par.bcnt + 1)
  { s' with par := { s'.par with bcnt := s.par.bcnt + 1, cur := s.par.cur + 6 } }

/-! ## Between the phases -/

/-- The block list of entry `i` begins: seek to its offset, no block yet (R141). -/
def State.startEntry (s : State) (i : Half) : State :=
  { s with
    phase := .blklist
    par := { s.par with eidx := i, bcnt := 0, cur := (s.entryAt i.toNat).blkoff.setWidth 33 } }

/-- The entry list is over: on to entry 0 (R150), or to completion when there is none (R136, R151). -/
def State.endEntryList (s : State) : State :=
  if 0 < s.store.ecnt.toNat then s.startEntry 0 else s.respondOk [] none

/-- The block list of entry EIDX is over: the data phase begins with CBUF emptied and TLEN zeroed (R147). -/
def State.endBlockList (s : State) : State :=
  { s with phase := .data, par := { s.par with cbuf := [], tlen := 0, didx := 0 } }

/-- Entry EIDX is done: on to the next in index order (R150), or completion (R151). -/
def State.nextEntry (s : State) : State :=
  if s.par.eidx.toNat + 1 < s.store.ecnt.toNat then s.startEntry (s.par.eidx + 1) else s.respondOk [] none

end Sys2Proof.Machine
end

