-- ==== Sys2Proof/Machine/Keystream.lean ====
section
/-! DEFINITION. Unit KSG and the command KS.GEN (40_keystream.md). -/

namespace Sys2Proof.Machine

/-- `LfsrStep(s)`, one stage (R100): a logical right shift by one (R101), then FEEDBACK XORed in when the bit
shifted out was 1. -/
def lfsrStep (s : Word) : Word :=
  if s.getLsbD 0 then (s >>> 1) ^^^ Config.feedback else s >>> 1

/-- `n` stages. -/
def lfsrStages : Nat → Word → Word
  | 0, s => s
  | n + 1, s => lfsrStages n (lfsrStep s)

/-- `LfsrByte(s)`, eight stages (R103). -/
def lfsrByte (s : Word) : Word :=
  lfsrStages 8 s

/-- `Keystream(n, seed)` (R105): each byte is the low 8 bits of the state after eight more stages (R104). -/
def keystream : Nat → Word → List Byte
  | 0, _ => []
  | n + 1, s => (lfsrByte s).setWidth 8 :: keystream n (lfsrByte s)

/-- KSG at work: its registers and the bytes produced so far. -/
structure KsgRun where
  ksg : Ksg
  out : List Byte
deriving DecidableEq, Repr

/-- One stage of the unit with its hidden counters (R22): BITCNT counts the stages of the byte in progress, KCNT
the bytes still to produce; after the eighth stage the low byte of S is sampled (R104). -/
def KsgRun.stage (r : KsgRun) : KsgRun :=
  if r.ksg.kcnt = 0 then r
  else if r.ksg.bitcnt = 7 then
    { ksg := { S := lfsrStep r.ksg.S, bitcnt := 0, kcnt := r.ksg.kcnt - 1 },
      out := r.out ++ [(lfsrStep r.ksg.S).setWidth 8] }
  else
    { ksg := { S := lfsrStep r.ksg.S, bitcnt := r.ksg.bitcnt + 1, kcnt := r.ksg.kcnt }, out := r.out }

/-- `n` stages of the unit. -/
def KsgRun.stages : Nat → KsgRun → KsgRun
  | 0, r => r
  | n + 1, r => KsgRun.stages n r.stage

/-- One keystream operation of `n` bytes: S is loaded with the seed, KCNT with n (R21, R22), and eight stages run
for every byte. -/
def genKeystream (n : Word) (seed : Word) : KsgRun :=
  KsgRun.stages (8 * n.toNat) { ksg := { S := seed, bitcnt := 0, kcnt := n }, out := [] }

/-- KS.GEN (R106): LengthNegative before any effect (R107), else the keystream of LEN bytes on OUT; LEN = 0 gives
the empty sequence and still loads S (R108). -/
def execKsGen (s : State) : Host.Outcome State Fault Refusal :=
  if lengthNegative s.genLength then .next (s.raise .lengthNegative 0)
  else
    let r := genKeystream s.genLength s.genSeed
    .next ({ s with ksg := r.ksg }.respondOk r.out none)

end Sys2Proof.Machine
end

