-- ==== Sys2Proof/Machine/Cipher.lean ====
section
/-! DEFINITION. Unit XDP and the command XOR.APPLY; the function of the pseudo-command XOR.CRYPT
(41_cipher.md). -/

namespace Sys2Proof.Machine

/-- `XorBytes(a, b)` (R120), for sequences of one length. -/
def xorBytes (a b : List Byte) : List Byte :=
  List.zipWith (fun x y => x ^^^ y) a b

/-- XOR.CRYPT as a function (R125): the data XORed with the keystream of as many bytes from the seed. -/
def cryptBytes (data : List Byte) (seed : Word) : List Byte :=
  xorBytes data (keystream data.length seed)

/-- XOR.APPLY (R121): LengthNegative for either length (R123), then LengthMismatch (R122), both before any output;
else the XOR of the operands on OUT. -/
def execXorApply (s : State) : Host.Outcome State Fault Refusal :=
  if lengthNegative s.ports.dlen || lengthNegative s.ports.klen then .next (s.raise .lengthNegative 0)
  else if s.ports.dlen ≠ s.ports.klen then .next (s.raise .lengthMismatch 0)
  else
    .next (s.respondOk (xorBytes s.dataOperand s.keyOperand) none)

end Sys2Proof.Machine
end

