-- ==== Sys2Proof/Machine/Container.lean ====
section
/-! DEFINITION. Unit PAR: the command KDB.DECODE, the meanings of the container records, and the phases DATA and
DEC that no record starts (42_parser.md). -/

namespace Sys2Proof.Machine

/-- KDB.DECODE's start (R130, R131): SourceUnavailable with the store untouched, else HDRV and ECNT cleared and
phase HDR. The records and phases after it do the rest of R130, step by step (log 7). -/
def execKdbDecode (s : State) : Host.Outcome State Fault Refusal :=
  if s.ports.src.avail.holds 0 = false then .next (s.raise .sourceUnavailable 0)
  else
    .next { s with
      store := { s.store with hdrv := false, ecnt := 0, ent := [] }
      par := { s.par with reads := 0 }
      phase := .hdr }

/-- HDR (R133): HDR.eloff and HDRV are set; then the seek to the entry list (R134). -/
def execHdr (eloff : Word) (s : State) : Host.Outcome State Fault Refusal :=
  .next { s with
    store := { s.store with hdrv := true, eloff := eloff }
    phase := .entlist
    par := { s.par with cur := eloff.setWidth 33 } }

/-- ENT.END (R136): the entry-list phase ends, nothing is committed. -/
def execEntEnd (s : State) : Host.Outcome State Fault Refusal :=
  .next s.endEntryList

/-- ENT (R137, R138): the entry is committed and the cursor advances by 20. -/
def execEnt (name : List Byte) (blkoff : Word) (s : State) : Host.Outcome State Fault Refusal :=
  .next (s.commitEntry name blkoff)

/-- BLK.END (R142): the block-list phase ends; the two bytes after the sentinel are ignored (R86). -/
def execBlkEnd (_ignored : Half) (s : State) : Host.Outcome State Fault Refusal :=
  .next s.endBlockList

/-- BLK (R143, R144): the block record is committed to entry EIDX and the cursor advances by 6. -/
def execBlk (size : Half) (dataoff : Word) (s : State) : Host.Outcome State Fault Refusal :=
  .next (s.commitBlock size dataoff)

/-- The block whose data the data phase reads next. -/
def State.dataBlock (s : State) : Option Block :=
  ((s.entryAt s.par.eidx.toNat).blks.take (s.entryAt s.par.eidx.toNat).nblk.toNat)[s.par.didx.toNat]?

/-- CBUF and TLEN with one more block's bytes (R147, R148). -/
def State.appendData (s : State) (q : List Byte) (size : Half) : State :=
  { s with
    par := { s.par with
      cbuf := s.par.cbuf ++ q, tlen := s.par.tlen + size.setWidth 32, didx := s.par.didx + 1 } }

/-- A step of phase DATA (R147): the next block's bytes are read and appended, or, after the last block, phase DEC
begins. -/
def State.gather (s : State) : State :=
  match s.dataBlock with
  | none => { s with phase := .dec }
  | some b =>
    match s.readSrc b.dataoff.toNat b.size.toNat with
    | .raised s' => s'
    | .bytes q s' => s'.appendData q b.size

/-- An entry with its payload (R149). -/
def Entry.resolve (e : Entry) (payload : List Byte) (plen : Word) : Entry :=
  { e with payload := payload, plen := plen, resolved := true }

/-- Phase DEC (R149): CBUF XORed with the keystream of TLEN bytes from KDB_SEED, S loaded afresh, is the payload of
entry EIDX; then the next entry or completion (R150, R151). -/
def State.decipher (s : State) : State :=
  let r := genKeystream s.par.tlen s.cfg.kdbSeed
  let s' := s.modifyEntry s.par.eidx.toNat fun e => e.resolve (xorBytes s.par.cbuf r.out) s.par.tlen
  { s' with ksg := r.ksg }.nextEntry

end Sys2Proof.Machine
end

