-- ==== Sys2Proof/Machine/Find.lean ====
section
/-! DEFINITION. KDB.FIND and CMD.ILLEGAL (42_parser.md R154 to R156; 60_exceptions.md R177). -/

namespace Sys2Proof.Machine

/-- The first five bytes of the name are FIND_PREFIX, exactly (R154). -/
def Entry.named (e : Entry) : Bool :=
  e.name.take 5 == Config.findPrefix

/-- The entries with meaning: ENT[0] to ENT[ECNT - 1] (R30). -/
def Store.entries (st : Store) : List Entry :=
  st.ent.take st.ecnt.toNat

/-- The index of the first entry, in index order, named MAGIC... (R156). -/
def Store.firstNamed (st : Store) : Option Nat :=
  st.entries.findIdx? Entry.named

/-- KDB.FIND (R154): the first matching entry decides; resolved, its index and payload are delivered; unresolved,
or without a match, NoSignatureFound (R155, R156). -/
def execKdbFind (s : State) : Host.Outcome State Fault Refusal :=
  match s.store.firstNamed with
  | none => .next (s.raise .noSignatureFound 0)
  | some i =>
    if (s.entryAt i).resolved then .next (s.respondOk (s.entryAt i).payload (some (BitVec.ofNat 16 i)))
    else .next (s.raise .noSignatureFound 0)

/-- CMD.ILLEGAL (R73, R177): IllegalCommand; no unit is started. -/
def execCmdIllegal (_op : Byte) (s : State) : Host.Outcome State Fault Refusal :=
  .next (s.raise .illegalCommand 0)

end Sys2Proof.Machine
end

