-- ==== Sys2Proof/Machine/Dispatch.lean ====
section
/-! DEFINITION. One arm per instruction, each one call of its meaning. -/

namespace Sys2Proof.Machine

def exec (i : Instr) (s : State) : Host.Outcome State Fault Refusal :=
  match i with
  | .ksGen => Sys2Proof.Machine.execKsGen s
  | .xorApply => Sys2Proof.Machine.execXorApply s
  | .kdbDecode => Sys2Proof.Machine.execKdbDecode s
  | .kdbFind => Sys2Proof.Machine.execKdbFind s
  | .cmdIllegal op => Sys2Proof.Machine.execCmdIllegal op s
  | .hdr eloff => Sys2Proof.Machine.execHdr eloff s
  | .entEnd => Sys2Proof.Machine.execEntEnd s
  | .ent name blkoff => Sys2Proof.Machine.execEnt name blkoff s
  | .blkEnd ignored => Sys2Proof.Machine.execBlkEnd ignored s
  | .blk size dataoff => Sys2Proof.Machine.execBlk size dataoff s

end Sys2Proof.Machine
end

