-- ==== Sys2Proof/Machine/Fetch.lean ====
section
/-! DEFINITION. What the next step does: the instruction it fetches at the position PHASE names, or the step that
no instruction starts (reset, idling and acceptance, a cap reached, a failed read, phases DATA and DEC). -/

namespace Sys2Proof.Machine

/-- An instruction fetched with the state after the fetch, or a step complete without one. -/
inductive Fetched where
  | run (i : Instr) (s : State)
  | quiet (s : State)
deriving DecidableEq, Repr

/-- Phase HDR (R132, R133): six bytes at 0, compared with MAGIC, then four bytes at 6. -/
def State.fetchHeader (s : State) : Fetched :=
  match s.readSrc 0 6 with
  | .raised s1 => .quiet s1
  | .bytes m s1 =>
    if m ≠ Config.magic then .quiet (s1.raise .formatError 0)
    else
      match s1.readSrc 6 4 with
      | .raised s2 => .quiet s2
      | .bytes off s2 => .run (decodeHeaderRecord (m ++ off)) s2

/-- An entry-list position below the cap (R136, R137): a probe of four bytes; unless it is the sentinel, twelve
more and four more. -/
def State.fetchEntryRecord (s : State) : Fetched :=
  match s.readSrc s.cursor 4 with
  | .raised s1 => .quiet s1
  | .bytes probe s1 =>
    if isSentinel probe then .run (decodeEntryRecord probe) (s1.setProbe probe)
    else
      match (s1.setProbe probe).readSrc (s.cursor + 4) 12 with
      | .raised s2 => .quiet s2
      | .bytes more s2 =>
        match s2.readSrc (s.cursor + 16) 4 with
        | .raised s3 => .quiet s3
        | .bytes off s3 => .run (decodeEntryRecord (probe ++ more ++ off)) s3

/-- The entry cap reached in strict mode (R140): one more probe; the sentinel ends the list, anything else is
FormatError with SUB 1. -/
def State.fetchEntryAtCap (s : State) : Fetched :=
  match s.readSrc s.cursor 4 with
  | .raised s1 => .quiet s1
  | .bytes probe s1 =>
    if isSentinel probe then .run (decodeEntryRecord probe) (s1.setProbe probe)
    else .quiet ((s1.setProbe probe).raise .formatError 1)

/-- Phase ENTLIST (R135, R139, R140): the cap is tested before each probe; reached, the list ends without a read in
default mode. -/
def State.fetchEntry (s : State) : Fetched :=
  if s.store.ecnt.toNat < s.cfg.entryCap.toNat then s.fetchEntryRecord
  else if s.cfg.strictCap then s.fetchEntryAtCap
  else .quiet s.endEntryList

/-- A block-list position below the cap (R142, R143): a probe of six bytes, which is the whole record. -/
def State.fetchBlockRecord (s : State) : Fetched :=
  match s.readSrc s.cursor 6 with
  | .raised s1 => .quiet s1
  | .bytes probe s1 => .run (decodeBlockRecord probe) (s1.setProbe probe)

/-- The block cap reached in strict mode (R146): one more probe; the sentinel ends the list, anything else is
FormatError with SUB 2. -/
def State.fetchBlockAtCap (s : State) : Fetched :=
  match s.readSrc s.cursor 6 with
  | .raised s1 => .quiet s1
  | .bytes probe s1 =>
    if isSentinel probe then .run (decodeBlockRecord probe) (s1.setProbe probe)
    else .quiet ((s1.setProbe probe).raise .formatError 2)

/-- Phase BLKLIST (R142, R145, R146). -/
def State.fetchBlock (s : State) : Fetched :=
  if s.par.bcnt.toNat < s.cfg.blockCap.toNat then s.fetchBlockRecord
  else if s.cfg.strictCap then s.fetchBlockAtCap
  else .quiet s.endBlockList

/-- What the next step does. Reset comes first, whatever the phase (R200); a command in progress is decoded from
port CMD before its operands are looked at (R184, R205). -/
def State.fetch (s : State) : Fetched :=
  if s.resetIn then .quiet s.applyReset
  else
    match s.phase with
    | .idle => .quiet s.idleStep
    | .cmd => .run (decodeCommand s.ports.cmd) s
    | .hdr => s.fetchHeader
    | .entlist => s.fetchEntry
    | .blklist => s.fetchBlock
    | .data => .quiet s.gather
    | .dec => .quiet s.decipher

end Sys2Proof.Machine
end

