-- ==== Sys2Proof/Machine/Step.lean ====
section
/-! DEFINITION. One step of the block, and the placing of a table word where the next step fetches. -/

namespace Sys2Proof.Machine

/-- One step: the fetched instruction runs on the state after its fetch; a step without an instruction is
complete as it is. -/
def step (s : State) : Host.Outcome State Fault Refusal :=
  match s.fetch with
  | .run i s' => exec i s'
  | .quiet s' => .next s'

/-- A command in progress and no reset asserted. -/
def State.running (s : State) : State :=
  { s with resetIn := false, status := { s.status with busy := true } }

/-- The cursor where `n` bytes fit below 2^32, else 0. -/
def State.fittingCursor (s : State) (n : Nat) : Cursor :=
  if s.cursor + n ≤ 2 ^ 32 then s.par.cur else 0

/-- Room for one more entry: below the cap, or the store emptied. -/
def State.withEntryRoom (s : State) : State :=
  if s.store.ecnt.toNat < s.cfg.entryCap.toNat then s
  else
    { s with
      store := { s.store with ecnt := 0, ent := [] }
      cfg := { s.cfg with entryCap := if s.cfg.entryCap = 0 then 127 else s.cfg.entryCap } }

/-- Room for one more block of an entry that is there: below the cap and EIDX below ECNT, or a fresh entry 0. -/
def State.withBlockRoom (s : State) : State :=
  if s.par.bcnt.toNat < s.cfg.blockCap.toNat ∧ s.par.eidx.toNat < s.store.ent.length then s
  else
    { s with
      store := { s.store with ecnt := 1, ent := [freshEntry (List.replicate 16 0) 0] }
      par := { s.par with eidx := 0, bcnt := 0 }
      cfg := { s.cfg with blockCap := if s.cfg.blockCap = 0 then 255 else s.cfg.blockCap } }

/-- `s` with a table word placed where the next step fetches its instruction, and all that this fetch takes: the
phase of its position, a source that holds the bytes and can be read, room for a record (log 14). -/
def State.withFetchWord (s : State) (nbits w : Nat) : State :=
  match positionOfBits nbits with
  | none => s
  | some (p, len) =>
    let q := tableBytes nbits w len
    match p with
    | .command => { s.running with phase := .cmd, ports := { s.ports with cmd := q.getD 0 0 } }
    | .header => { s.running with phase := .hdr, ports := { s.ports with src := s.ports.src.place 0 q } }
    | .entryList =>
      { s.withEntryRoom.running with
        phase := .entlist
        par := { s.par with cur := s.fittingCursor len }
        ports := { s.ports with src := s.ports.src.place (s.fittingCursor len).toNat q } }
    | .blockList =>
      { s.withBlockRoom.running with
        phase := .blklist
        par := { s.withBlockRoom.par with cur := s.fittingCursor len }
        ports := { s.ports with src := s.ports.src.place (s.fittingCursor len).toNat q } }

end Sys2Proof.Machine
end

