-- ==== Sys2Proof/Machine/HostPort.lean ====
section
/-! DEFINITION. The host's moves and reads (30_encoding.md R71, R74, R89, R91; 10_state.md R38; 70 R200, R205,
R214). A move lands between steps. -/

namespace Sys2Proof.Machine

/-- A block instantiated with other parameters, right after reset (R39, R204). -/
def State.instantiated (c : Configuration) : State :=
  { State.reset with cfg := c }

/-- The host presents a command: it waits at the port until BUSY is 0 (R205, U30). The port holds one command; while
one waits, the host presents no other. -/
def State.present (s : State) (p : Ports) : State :=
  match s.waiting with
  | none => { s with waiting := some p }
  | some _ => s

/-- The host applies the reset event, at any time (R200). The next step takes it. -/
def State.assertReset (s : State) : State :=
  { s with resetIn := true }

/-- A host command in the written notation (R89). A sequence operand is handed over with its number of bytes as its
length, modulo 2^32: see `HostCommand.ports` for sequences no 32-bit length can name. -/
inductive HostCommand where
  | ksGen (len seed : Word)
  | xorApply (data ks : List Byte)
  | kdbDecode (src : Source)
  | kdbFind
deriving DecidableEq, Repr

/-- The ports of a command: its code (R72) and its operands (R74).
DESIGN CHOICE (log 23, unsafe): a DATA_IN or KS_IN of 2^32 bytes or more has no 32-bit length (R11, R74), and the spec
is silent on writing such a command; its length port then holds the number of bytes modulo 2^32, so that 2^32 + 5
bytes are handed over as DLEN 5. -/
def HostCommand.ports : HostCommand → Ports
  | .ksGen len seed => { Ports.empty with cmd := 0x01, len := len, seed := seed }
  | .xorApply data ks =>
    { Ports.empty with cmd := 0x02, dataIn := data, dlen := BitVec.ofNat 32 data.length,
                       ksIn := ks, klen := BitVec.ofNat 32 ks.length }
  | .kdbDecode src => { Ports.empty with cmd := 0x03, src := src }
  | .kdbFind => { Ports.empty with cmd := 0x04 }

/-- XOR.CRYPT (R91, R125): the first of the two commands it stands for. R125 takes data of at most 2^31 - 1 bytes.
DESIGN CHOICE (log 23, unsafe): of 2^32 bytes of data or more LEN is the number of bytes modulo 2^32. -/
def HostCommand.cryptKey (data : List Byte) (seed : Word) : HostCommand :=
  .ksGen (BitVec.ofNat 32 data.length) seed

/-- XOR.CRYPT (R91, R125): the second, with the keystream the first delivered (log 23 for its lengths). -/
def HostCommand.cryptApply (data k : List Byte) : HostCommand :=
  .xorApply data k

/-- HDR.eloff as the host reads it: meaningful only while HDRV is 1 (R31, U22). -/
def State.readHeader (s : State) : Option Word :=
  if s.store.hdrv then some s.store.eloff else none

/-- `ENT[i]` as the host reads it: meaningful only below ECNT (R30, U22). -/
def State.readEntry (s : State) (i : Nat) : Option Entry :=
  if i < s.store.ecnt.toNat then s.store.ent[i]? else none

/-- The payload of `ENT[i]` as the host reads it: meaningful only while RESOLVED is 1 (R35). -/
def State.readPayload (s : State) (i : Nat) : Option (List Byte) :=
  match s.readEntry i with
  | none => none
  | some e => if e.resolved then some e.payload else none

end Sys2Proof.Machine
end

