-- ==== Sys2Proof/Machine/Image.lean ====
section
/-! DEFINITION. The written notation of container images (30_encoding.md R90). -/

namespace Sys2Proof.Machine

/-- A directive (R90). Strings are given as their ASCII bytes. -/
inductive Directive where
  | org (off : Nat)
  | hdr (eloff : Word)
  | magic (tag : List Byte) (eloff : Word)
  | ent (name : List Byte) (blkoff : Word)
  | entb (name : List Byte) (blkoff : Word)
  | entend
  | blk (size : Half) (dataoff : Word)
  | blkend (b4 b5 : Byte)
  | bytes (q : List Byte)
deriving DecidableEq, Repr

/-- A name padded with 00 to 16 bytes: a convention of the notation (R90).
DESIGN CHOICE (log 24): the spec gives no name longer than 16 bytes; such a name stays as it is. -/
def padName (name : List Byte) : List Byte :=
  name ++ List.replicate (16 - name.length) 0

/-- The bytes a directive emits (R90).
DESIGN CHOICE (log 24): R90 gives `.ent` a name of at most 16 bytes, `.entb` 16 bytes and `.magic` six; with another
number of bytes the directive emits the bytes as given, so that the record is not 20 or 10 bytes long. -/
def Directive.emits : Directive → List Byte
  | .org _ => []
  | .hdr eloff => encode (.hdr eloff)
  | .magic tag eloff => tag ++ bytesOf32 eloff
  | .ent name blkoff => encode (.ent (padName name) blkoff)
  | .entb name blkoff => encode (.ent name blkoff)
  | .entend => encode .entEnd
  | .blk size dataoff => encode (.blk size dataoff)
  | .blkend b4 b5 => encode (.blkEnd (b5 ++ b4))
  | .bytes q => q

/-- An image being written: the current offset, the bytes so far, and how long it is. -/
structure ImageState where
  off : Nat
  mem : Memory
  size : Nat
deriving DecidableEq, Repr

/-- One directive: its bytes at the current offset, which they advance; a gap stays 00 (R90).
DESIGN CHOICE (log 24): `.org` past the last byte emitted does not lengthen the image by itself; the next directive
that emits does, up to the end of its bytes, an empty `.bytes` up to the offset. -/
def ImageState.apply (im : ImageState) (d : Directive) : ImageState :=
  match d with
  | .org off => { im with off := off }
  | _ =>
    { off := im.off + d.emits.length, mem := im.mem.writeBytes im.off d.emits,
      size := max im.size (im.off + d.emits.length) }

/-- The source a list of directives describes. -/
def assembleImage (ds : List Directive) : Source :=
  let im := ds.foldl ImageState.apply { off := 0, mem := [], size := 0 }
  { mem := im.mem, len := srcLength im.size, avail := Avail.always }

end Sys2Proof.Machine
end

