-- ==== Sys2Proof/Machine/Pseudocode.lean ====
section
/-! DEFINITION. The pseudocode of KDB.DECODE (42_parser.md R130) as one function of the configuration and the
source, with its loops as recursions and no state of the machine: what the steps of the machine are claimed to
add up to. The start test (R131) has passed. -/

namespace Sys2Proof.Machine

/-- A raise (R180) with what it records (R41, R42). -/
structure Failure where
  err : Err
  phase : Phase
  sub : BitVec 2
  eidx : Half
  bidx : Half
deriving DecidableEq, Repr

/-- A loop's value so far, the reads made so far, and the raise that ended it, if one did. -/
structure Walk (α : Type) where
  val : α
  reads : Nat
  fail : Option Failure
deriving DecidableEq, Repr

/-- The count of reads after a read of `n` bytes; one of zero bytes is no access (R56). -/
def readsAfter (reads n : Nat) : Nat :=
  if n = 0 then reads else reads + 1

/-- The while loop over the entry list and the strict probe after it (R134 to R140). The fuel is
ENTRY_CAP - ECNT. -/
def walkEntries (src : Source) (strict : Bool) : Nat → Nat → Nat → List Entry → Walk (List Entry)
  | 0, cur, reads, ent =>
    if strict then
      match memRead src (reads + 1) cur 4 with
      | .error e => ⟨ent, reads + 1, some ⟨e, .entlist, 0, BitVec.ofNat 16 ent.length, 0⟩⟩
      | .ok probe =>
        if isSentinel probe then ⟨ent, reads + 1, none⟩
        else ⟨ent, reads + 1, some ⟨.formatError, .entlist, 1, BitVec.ofNat 16 ent.length, 0⟩⟩
    else ⟨ent, reads, none⟩
  | fuel + 1, cur, reads, ent =>
    match memRead src (reads + 1) cur 4 with
    | .error e => ⟨ent, reads + 1, some ⟨e, .entlist, 0, BitVec.ofNat 16 ent.length, 0⟩⟩
    | .ok probe =>
      if isSentinel probe then ⟨ent, reads + 1, none⟩
      else
        match memRead src (reads + 2) (cur + 4) 12 with
        | .error e => ⟨ent, reads + 2, some ⟨e, .entlist, 0, BitVec.ofNat 16 ent.length, 0⟩⟩
        | .ok more =>
          match memRead src (reads + 3) (cur + 16) 4 with
          | .error e => ⟨ent, reads + 3, some ⟨e, .entlist, 0, BitVec.ofNat 16 ent.length, 0⟩⟩
          | .ok off =>
            walkEntries src strict fuel (cur + 20) (reads + 3) (ent ++ [freshEntry (probe ++ more) (le32 off)])

/-- The while loop over the block list of entry `eidx` and the strict probe after it (R141 to R146). The fuel is
BLOCK_CAP - BCNT. -/
def walkBlocks (src : Source) (strict : Bool) (eidx : Half) : Nat → Nat → Nat → List Block → Walk (List Block)
  | 0, cur, reads, blks =>
    if strict then
      match memRead src (reads + 1) cur 6 with
      | .error e => ⟨blks, reads + 1, some ⟨e, .blklist, 0, eidx, BitVec.ofNat 16 blks.length⟩⟩
      | .ok probe =>
        if isSentinel probe then ⟨blks, reads + 1, none⟩
        else ⟨blks, reads + 1, some ⟨.formatError, .blklist, 2, eidx, BitVec.ofNat 16 blks.length⟩⟩
    else ⟨blks, reads, none⟩
  | fuel + 1, cur, reads, blks =>
    match memRead src (reads + 1) cur 6 with
    | .error e => ⟨blks, reads + 1, some ⟨e, .blklist, 0, eidx, BitVec.ofNat 16 blks.length⟩⟩
    | .ok probe =>
      if isSentinel probe then ⟨blks, reads + 1, none⟩
      else
        walkBlocks src strict eidx fuel (cur + 6) (reads + 1)
          (blks ++ [⟨le16 (probe.take 2), le32 (probe.drop 2)⟩])

/-- The for loop of the data phase over the blocks from the `b`-th on (R147). -/
def walkData (src : Source) (eidx : Half) : List Block → Nat → Nat → List Byte → Walk (List Byte)
  | [], _, reads, cbuf => ⟨cbuf, reads, none⟩
  | blk :: blks, b, reads, cbuf =>
    match memRead src (reads + 1) blk.dataoff.toNat blk.size.toNat with
    | .error e => ⟨cbuf, readsAfter reads blk.size.toNat, some ⟨e, .data, 0, eidx, BitVec.ofNat 16 b⟩⟩
    | .ok q => walkData src eidx blks (b + 1) (readsAfter reads blk.size.toNat) (cbuf ++ q)

/-- The for loop over the entries (R150): the entries done, then the rest in index order. -/
def walkEach (cfg : Configuration) (src : Source) : List Entry → List Entry → Nat → Walk (List Entry)
  | [], done, reads => ⟨done, reads, none⟩
  | e :: rest, done, reads =>
    let eidx := BitVec.ofNat 16 done.length
    let w := walkBlocks src cfg.strictCap eidx cfg.blockCap.toNat e.blkoff.toNat reads []
    let e' := { e with blks := w.val, nblk := BitVec.ofNat 16 w.val.length }
    match w.fail with
    | some f => ⟨done ++ e' :: rest, w.reads, some f⟩
    | none =>
      let d := walkData src eidx w.val 0 w.reads []
      match d.fail with
      | some f => ⟨done ++ e' :: rest, d.reads, some f⟩
      | none =>
        walkEach cfg src rest
          (done ++ [e'.resolve (cryptBytes d.val cfg.kdbSeed) (BitVec.ofNat 32 d.val.length)]) d.reads

/-- What KDB.DECODE leaves: the result store, the reads made, and the raise, if one ended it. -/
structure Decoded where
  hdrv : Bool
  eloff : Word
  ent : List Entry
  reads : Nat
  fail : Option Failure
deriving DecidableEq, Repr

/-- KDB.DECODE after its start test (R130, R132 to R151). -/
def decodeContainer (cfg : Configuration) (src : Source) : Decoded :=
  match memRead src 1 0 6 with
  | .error e => ⟨false, 0, [], 1, some ⟨e, .hdr, 0, 0, 0⟩⟩
  | .ok m =>
    if m ≠ Config.magic then ⟨false, 0, [], 1, some ⟨.formatError, .hdr, 0, 0, 0⟩⟩
    else
      match memRead src 2 6 4 with
      | .error e => ⟨false, 0, [], 2, some ⟨e, .hdr, 0, 0, 0⟩⟩
      | .ok off =>
        let w := walkEntries src cfg.strictCap cfg.entryCap.toNat (le32 off).toNat 2 []
        match w.fail with
        | some f => ⟨true, le32 off, w.val, w.reads, some f⟩
        | none =>
          let x := walkEach cfg src w.val [] w.reads
          ⟨true, le32 off, x.val, x.reads, x.fail⟩

/-- The status group a finished KDB.DECODE leaves (R178, R180). -/
def Decoded.status (d : Decoded) : Status :=
  match d.fail with
  | none => Status.okay
  | some f =>
    { busy := false, err := .error f.err, errPhase := f.phase, errSub := f.sub, errEidx := f.eidx,
      errBidx := f.bidx }

end Sys2Proof.Machine
end

