-- ==== Sys2Proof/Safety.lean ====
section
/-! DEFINITION. The terms the claims use: the invariant of the block, the bound on reads, what a fetch leaves, and
what the host cannot see. -/

namespace Sys2Proof.Machine

/-- The sum of block sizes (42_parser.md R148, R153). -/
def blocksSize (bs : List Block) : Nat :=
  (bs.map fun b => b.size.toNat).sum

/-- The invariant of an entry: a name of 16 bytes that is no sentinel (R32, R136), `nblk` its number of block
records and at most BLOCK_CAP (R34, R153), no block record that is a sentinel (R85), and a payload of `plen` bytes,
the sum of the block sizes, once resolved and not before (R35, R36, R153). -/
structure Entry.Inv (cfg : Configuration) (e : Entry) : Prop where
  name : nameExpressible e.name = true
  count : e.nblk.toNat = e.blks.length
  cap : e.nblk.toNat ≤ cfg.blockCap.toNat
  blocks : ∀ b ∈ e.blks, blockExpressible b.size b.dataoff = true
  resolved : e.resolved = true → e.plen.toNat = blocksSize e.blks ∧ e.payload.length = e.plen.toNat
  unresolved : e.resolved = false → e.payload = [] ∧ e.plen = 0

/-- The invariant of the result store: ECNT its number of entries, at most ENTRY_CAP (R30, R153), and no entry
without a header (R31). -/
structure Store.Inv (cfg : Configuration) (st : Store) : Prop where
  count : st.ent.length = st.ecnt.toNat
  cap : st.ecnt.toNat ≤ cfg.entryCap.toNat
  entries : ∀ e ∈ st.ent, e.Inv cfg
  header : st.hdrv = false → st.ecnt = 0

/-- The invariant of the status group: all zero on OK (R178); SUB only with FormatError and never 3 (R41); IDLE is
never the phase of an error (R170). -/
structure Status.Inv (st : Status) : Prop where
  okay : st.err = .ok → st.errPhase = .idle ∧ st.errSub = 0 ∧ st.errEidx = 0 ∧ st.errBidx = 0
  sub : st.errSub ≠ 0 → st.err = .error .formatError ∧ st.errSub ≠ 3
  phase : ∀ e, st.err = .error e → st.errPhase ≠ .idle

/-- An entry the per-entry phases have not reached (R137). -/
def Entry.untouched (e : Entry) : Prop :=
  e.resolved = false ∧ e.nblk = 0

/-- Entry EIDX is being processed: those before it are resolved, those after it untouched (R150). -/
structure State.AtEntry (s : State) : Prop where
  header : s.store.hdrv = true
  index : s.par.eidx.toNat < s.store.ecnt.toNat
  before : ∀ i e, s.store.ent[i]? = some e → i < s.par.eidx.toNat → e.resolved = true
  here : (s.entryAt s.par.eidx.toNat).resolved = false
  after : ∀ i e, s.store.ent[i]? = some e → s.par.eidx.toNat < i → e.untouched

/-- How far KDB.DECODE has come, by phase (R130, R150). -/
def State.Progress (s : State) : Prop :=
  match s.phase with
  | .idle => True
  | .cmd => True
  | .hdr => s.store.hdrv = false
  | .entlist => s.store.hdrv = true ∧ ∀ e ∈ s.store.ent, e.untouched
  | .blklist => s.AtEntry ∧ s.par.bcnt = (s.entryAt s.par.eidx.toNat).nblk
  | .data =>
    s.AtEntry ∧ s.par.didx.toNat ≤ (s.entryAt s.par.eidx.toNat).nblk.toNat ∧
      s.par.tlen.toNat = blocksSize ((s.entryAt s.par.eidx.toNat).blks.take s.par.didx.toNat)
  | .dec => s.AtEntry ∧ s.par.tlen.toNat = blocksSize (s.entryAt s.par.eidx.toNat).blks

/-- The invariant of the block. -/
structure State.Inv (s : State) : Prop where
  store : s.store.Inv s.cfg
  status : s.status.Inv
  /-- BUSY is 1 exactly while a command is in progress (R40, R37). -/
  busy : s.status.busy = true ↔ s.phase ≠ .idle
  /-- TLEN is the length of CBUF at all times (R29). -/
  tlen : s.par.tlen.toNat = s.par.cbuf.length
  /-- PROBE is six bytes (R27). -/
  probe : s.par.probe.length = 6
  /-- CUR never passes 2^32, so 33 bits suffice (R26, R57). -/
  cursor : s.cursor ≤ 2 ^ 32
  /-- The hidden counters are zero between keystream operations (R22). -/
  counters : s.ksg.bitcnt = 0 ∧ s.ksg.kcnt = 0
  /-- SRC is in canonical form (log 10). -/
  source : s.ports.src.wf = true
  waiting : ∀ p, s.waiting = some p → p.src.wf = true
  /-- The ports hold nothing between commands (R44). -/
  ports : s.phase = .idle → s.ports = Ports.empty
  /-- A command in progress has delivered nothing (R44, R178, R180). -/
  delivery : s.phase ≠ .idle → s.delivery = none
  progress : s.Progress

/-- The greatest number of reads of one KDB.DECODE (R157). -/
def decodeReads (cfg : Configuration) : Nat :=
  2 + 3 * cfg.entryCap.toNat + 1 +
    cfg.entryCap.toNat * (cfg.blockCap.toNat + 1 + cfg.blockCap.toNat)

/-- The reads made so far, by phase (R157). -/
def State.ReadsBounded (s : State) : Prop :=
  match s.phase with
  | .idle => s.par.reads ≤ decodeReads s.cfg
  | .cmd => s.par.reads ≤ decodeReads s.cfg
  | .hdr => s.par.reads = 0
  | .entlist => s.par.reads ≤ 2 + 3 * s.store.ecnt.toNat
  | .blklist =>
    s.par.reads ≤ 3 + 3 * s.cfg.entryCap.toNat +
      s.par.eidx.toNat * (s.cfg.blockCap.toNat + 1 + s.cfg.blockCap.toNat) + s.par.bcnt.toNat
  | .data =>
    s.par.reads ≤ 3 + 3 * s.cfg.entryCap.toNat +
      s.par.eidx.toNat * (s.cfg.blockCap.toNat + 1 + s.cfg.blockCap.toNat) +
      (s.cfg.blockCap.toNat + 1) + s.par.didx.toNat
  | .dec =>
    s.par.reads ≤ 3 + 3 * s.cfg.entryCap.toNat +
      (s.par.eidx.toNat + 1) * (s.cfg.blockCap.toNat + 1 + s.cfg.blockCap.toNat)

/-- The greatest number of steps from a command's acceptance to its response: the command, the header, one per
entry record and one for the end of the list, and per entry one per block record, one per block's data, one for
each phase's end and one decipher pass (R157). -/
def decodeSteps (cfg : Configuration) : Nat :=
  2 + (cfg.entryCap.toNat + 1) + cfg.entryCap.toNat * (2 * cfg.blockCap.toNat + 3)

/-- `n` more reads counted. -/
def State.addReads (s : State) (n : Nat) : State :=
  { s with par := { s.par with reads := s.par.reads + n } }

/-- Every read of the command succeeds in reaching SRC: SRC_AVAIL holds at every ordinal (R58). -/
def State.Readable (s : State) : Prop :=
  ∀ k, s.ports.src.avail.holds k = true

/-- A block with no command in progress and none presented, and no reset asserted. -/
structure State.Quiescent (s : State) : Prop where
  phase : s.phase = .idle
  busy : s.status.busy = false
  waiting : s.waiting = none
  resetIn : s.resetIn = false

/-- The reads the fetch of an instruction makes (20_memory.md R60). -/
def fetchReads : Instr → Nat
  | .ksGen => 0
  | .xorApply => 0
  | .kdbDecode => 0
  | .kdbFind => 0
  | .cmdIllegal _ => 0
  | .hdr _ => 2
  | .entEnd => 1
  | .ent _ _ => 3
  | .blkEnd _ => 1
  | .blk _ _ => 1

/-- The state an instruction runs on once it is fetched: its reads counted, and the probe in PROBE (R27). -/
def State.afterFetch (s : State) (i : Instr) : State :=
  match i.position with
  | .command => s
  | .header => s.addReads (fetchReads i)
  | .entryList => (s.setProbe (s.ports.src.bytes s.cursor 4)).addReads (fetchReads i)
  | .blockList => (s.setProbe (s.ports.src.bytes s.cursor 6)).addReads (fetchReads i)

/-- The bytes of SRC from an offset to its end. -/
def Source.tail (src : Source) (a : Nat) : List Byte :=
  src.bytes a (src.len.val - a)

/-- What the host can come to see: everything but the working registers of KSG and PAR (10_state.md section 9). -/
def State.hideWork (s : State) : State :=
  { s with ksg := Ksg.reset, par := Parser.reset }

/-- The ciphertext of an entry: the bytes its blocks name, in block order (R147). -/
def blockData (src : Source) (bs : List Block) : List Byte :=
  bs.flatMap fun b => src.bytes b.dataoff.toNat b.size.toNat

/-- The entries and block records of the store are those that stand in a source: entry i at HDR.eloff + 20 i, its block
record j at its blkoff + 6 j (20_memory.md R62). -/
def State.MirrorsSource (s : State) (src : Source) : Prop :=
  (∀ i e, s.store.ent[i]? = some e →
    e.name = src.bytes (s.store.eloff.toNat + 20 * i) 16 ∧
    e.blkoff = le32 (src.bytes (s.store.eloff.toNat + 20 * i + 16) 4) ∧
    ∀ j b, e.blks[j]? = some b →
      b.size = le16 (src.bytes (e.blkoff.toNat + 6 * j) 2) ∧
      b.dataoff = le32 (src.bytes (e.blkoff.toNat + 6 * j + 2) 4)) ∧
  (s.phase = .entlist → s.cursor = s.store.eloff.toNat + 20 * s.store.ecnt.toNat) ∧
  (s.phase = .blklist →
    s.cursor = (s.entryAt s.par.eidx.toNat).blkoff.toNat + 6 * s.par.bcnt.toNat)

end Sys2Proof.Machine
end

