-- ==== Sys2Proof/Certificates/Slice0/Obligations.lean ====
section
/-! DEFINITION. The statements for the provers. -/

open Sys2Proof Sys2Proof.Machine

/-! ## Encodings -/

/-- Words written out from 30_encoding.md: the codes of R72, the layouts of R76 to R80, two records of
95_test_vectors.md image A, and rows D14 and D11 of its section 4. -/
def Obligations.SampleWordsDecode : Prop :=
  decode .command [0x01] = .ok (.ksGen, []) ∧
  decode .command [0x02] = .ok (.xorApply, []) ∧
  decode .command [0x03] = .ok (.kdbDecode, []) ∧
  decode .command [0x04] = .ok (.kdbFind, []) ∧
  decode .command [0x05] = .ok (.cmdIllegal 0x05, []) ∧
  decode .header [0x43, 0x54, 0x32, 0x30, 0x31, 0x38, 0x0A, 0, 0, 0] = .ok (.hdr 0x0000000A, []) ∧
  decode .entryList [0xFF, 0xFF, 0xFF, 0xFF, 0x41] = .ok (.entEnd, [0x41]) ∧
  decode .entryList [0x4D, 0x41, 0x47, 0x49, 0x43, 0, 0, 0, 0, 0, 0, 0, 0, 0, 0, 0, 0x22, 0x01, 0, 0] =
    .ok (.ent [0x4D, 0x41, 0x47, 0x49, 0x43, 0, 0, 0, 0, 0, 0, 0, 0, 0, 0, 0] 0x00000122, []) ∧
  decode .blockList [0xFF, 0xFF, 0xFF, 0xFF, 0xAA, 0xBB] = .ok (.blkEnd 0xBBAA, []) ∧
  decode .blockList [0xFF, 0xFF, 0xFE, 0xFF, 0x01, 0x00] = .ok (.blk 0xFFFF 0x0001FFFE, [])

/-- Decode and encode agree: every well-formed instruction is read back from its encoding, whatever follows. -/
def Obligations.EncodingRoundTrip : Prop :=
  ∀ (i : Instr) (rest : List Byte), i.wf = true → decode i.position (encode i ++ rest) = .ok (i, rest)

/-- Whatever decodes is the encoding of the well-formed instruction it decodes to: no bit of a record or a code is
dropped, and none is read into two instructions. -/
def Obligations.DecodedBytesAreTheEncoding : Prop :=
  ∀ (p : Position) (q rest : List Byte) (i : Instr), decode p q = .ok (i, rest) →
    q = encode i ++ rest ∧ i.wf = true ∧ i.position = p

/-- The decoder chooses the row of the opcode table that matches by mask and pattern with the least priority number
(R75, R82), and refuses exactly where no row matches. -/
def Obligations.DecoderFollowsTheTable : Prop :=
  ∀ (p : Position) (q : List Byte),
    (selectRow p q).map TableRow.mnemonic =
      match decode p q with
      | .ok (i, _) => some i.mnemonic
      | .error _ => none

/-- A step runs the decoded instruction: on a command in progress from port CMD, and in phases HDR, ENTLIST and
BLKLIST, below the caps, from the bytes of SRC at offset 0 or at CUR, when SRC can be read; around exec a step
counts the reads of the fetch and leaves the probe in PROBE. -/
def Obligations.StepRunsTheDecodedInstruction : Prop :=
  ∀ (s : State) (i : Instr) (rest : List Byte), s.resetIn = false → s.Readable →
    (s.phase = .cmd → decode .command [s.ports.cmd] = .ok (i, rest) → step s = exec i (s.afterFetch i)) ∧
    (s.phase = .hdr → decode .header (s.ports.src.tail 0) = .ok (i, rest) →
      step s = exec i (s.afterFetch i)) ∧
    (s.phase = .entlist → s.store.ecnt.toNat < s.cfg.entryCap.toNat →
      decode .entryList (s.ports.src.tail s.cursor) = .ok (i, rest) → step s = exec i (s.afterFetch i)) ∧
    (s.phase = .blklist → s.par.bcnt.toNat < s.cfg.blockCap.toNat →
      decode .blockList (s.ports.src.tail s.cursor) = .ok (i, rest) → step s = exec i (s.afterFetch i))

/-! ## Reading SRC -/

/-- MemRead (R55, R56): a read of no bytes answers the empty sequence; else SourceUnavailable comes first, then
TruncatedError, and otherwise exactly the n bytes of SRC from addr on, in order. -/
def Obligations.MemReadIsAllOrNothing : Prop :=
  ∀ (src : Source) (k addr n : Nat),
    (n = 0 → memRead src k addr n = .ok []) ∧
    (0 < n → src.avail.holds k = false → memRead src k addr n = .error .sourceUnavailable) ∧
    (0 < n → src.avail.holds k = true → src.len.val < addr + n →
      memRead src k addr n = .error .truncatedError) ∧
    (0 < n → src.avail.holds k = true → addr + n ≤ src.len.val →
      ∃ q, memRead src k addr n = .ok q ∧ q.length = n ∧ ∀ j, j < n → q[j]? = some (src.byte (addr + j)))

/-- A failing read in a command raises its error there and then, as the next ordinal (R172, R174, R180), with no
byte delivered; a read that succeeds changes nothing but the ordinal. -/
def Obligations.ReadErrorsAreRaised : Prop :=
  ∀ (s : State) (addr n : Nat), 0 < n →
    (s.ports.src.avail.holds (s.par.reads + 1) = false →
      s.readSrc addr n = .raised ((s.addReads 1).raise .sourceUnavailable 0)) ∧
    (s.ports.src.avail.holds (s.par.reads + 1) = true → s.ports.src.len.val < addr + n →
      s.readSrc addr n = .raised ((s.addReads 1).raise .truncatedError 0)) ∧
    (s.ports.src.avail.holds (s.par.reads + 1) = true → addr + n ≤ s.ports.src.len.val →
      s.readSrc addr n = .bytes (s.ports.src.bytes addr n) (s.addReads 1))

/-! ## The keystream generator -/

/-- The stage bit by bit (R102). -/
def Obligations.LfsrStageBitByBit : Prop :=
  ∀ (s : Word),
    (lfsrStep s).getLsbD 31 = s.getLsbD 0 ∧
    (∀ i ∈ [26, 25, 24, 22, 21, 18, 16, 14, 9, 8, 5, 0],
      (lfsrStep s).getLsbD i = (s.getLsbD (i + 1) ^^ s.getLsbD 0)) ∧
    (∀ i, i ≤ 30 → i ∉ [26, 25, 24, 22, 21, 18, 16, 14, 9, 8, 5, 0] →
      (lfsrStep s).getLsbD i = s.getLsbD (i + 1))

/-- The laws of R111: the zero state is a fixed point with an all-zero keystream and the identity cipher; the stage
is undone by the formula of the rule, so a non-zero state never becomes zero and two seeds never meet after as many
stages. -/
def Obligations.LfsrZeroAndBijection : Prop :=
  lfsrStep 0 = 0 ∧
  (∀ n, keystream n 0 = List.replicate n 0) ∧
  (∀ data, cryptBytes data 0 = data) ∧
  (∀ s : Word,
    s.getLsbD 0 = (lfsrStep s).getLsbD 31 ∧
    s = ((lfsrStep s ^^^ (if (lfsrStep s).getLsbD 31 then Config.feedback else 0)) <<< 1) |||
      (BitVec.ofBool ((lfsrStep s).getLsbD 31)).setWidth 32) ∧
  (∀ t : Word, ∃ s, lfsrStep s = t) ∧
  (∀ s : Word, s ≠ 0 → ∀ n, lfsrStages n s ≠ 0) ∧
  (∀ s t : Word, s ≠ t → ∀ n, lfsrStages n s ≠ lfsrStages n t)

/-- Byte k of Keystream(n, seed) is the low byte of the state after 8 (k + 1) stages from the seed, and there are n
bytes (R104, R105). -/
def Obligations.KeystreamSamplesTheState : Prop :=
  ∀ (n : Nat) (seed : Word),
    (keystream n seed).length = n ∧
    ∀ k, k < n → (keystream n seed)[k]? = some ((lfsrStages (8 * (k + 1)) seed).setWidth 8)

/-- The prefix law, and that the bytes from m on are those of the state after m bytes (R110). -/
def Obligations.KeystreamPrefix : Prop :=
  ∀ (m n : Nat) (seed : Word), m ≤ n →
    (keystream n seed).take m = keystream m seed ∧
    (keystream n seed).drop m = keystream (n - m) (lfsrStages (8 * m) seed)

/-- The unit with its hidden counters BITCNT and KCNT, run stage by stage, computes Keystream(n, seed), leaves in S
the state after 8 n stages, and its counters are zero at the end (R22, R105). -/
def Obligations.KsgUnitComputesKeystream : Prop :=
  ∀ (n seed : Word),
    genKeystream n seed =
      { ksg := { S := lfsrStages (8 * n.toNat) seed, bitcnt := 0, kcnt := 0 },
        out := keystream n.toNat seed }

/-- KS.GEN completes on every length with bit 31 clear, the keystream of LEN bytes on OUT; S and the hidden counters
and the response are all it writes, and its operands leave the ports (R44, R106, R108). -/
def Obligations.KsGenDeliversTheKeystream : Prop :=
  ∀ s : State, s.ports.len.getLsbD 31 = false →
    exec .ksGen s =
      .next { s with
        ksg := { S := lfsrStages (8 * s.ports.len.toNat) s.ports.seed, bitcnt := 0, kcnt := 0 }
        status := { busy := false, err := .ok, errPhase := .idle, errSub := 0, errEidx := 0, errBidx := 0 }
        phase := .idle
        ports := Ports.empty
        delivery := some { resp := .ok, out := keystream s.ports.len.toNat s.ports.seed, idx := none } }

/-- A negative LEN is rejected with LengthNegative, before S is written and without output (R107). -/
def Obligations.KsGenRejectsNegativeLength : Prop :=
  ∀ s : State, s.phase = .cmd → s.ports.len.getLsbD 31 = true →
    exec .ksGen s =
      .next { s with
        status := { busy := false, err := .error .lengthNegative, errPhase := .cmd, errSub := 0,
                    errEidx := 0, errBidx := 0 }
        phase := .idle
        ports := Ports.empty
        delivery := some { resp := .error .lengthNegative, out := [], idx := none } }

/-- What KS.GEN delivers is a function of LEN and SEED alone (R109). -/
def Obligations.KsGenDependsOnItsOperandsOnly : Prop :=
  ∀ s s' t t' : State, s.ports.len = s'.ports.len → s.ports.seed = s'.ports.seed →
    exec .ksGen s = .next t → exec .ksGen s' = .next t' → t.delivery = t'.delivery

/-! ## The XOR datapath -/

/-- XorBytes is element-wise (R120). -/
def Obligations.XorBytesIsElementWise : Prop :=
  ∀ a b : List Byte, a.length = b.length →
    (xorBytes a b).length = a.length ∧
    ∀ (i : Nat) (x y : Byte), a[i]? = some x → b[i]? = some y → (xorBytes a b)[i]? = some (x ^^^ y)

/-- The involution, with any key and with a keystream, and the two laws beside it (R124). -/
def Obligations.XorIsAnInvolution : Prop :=
  (∀ d k : List Byte, d.length = k.length → xorBytes (xorBytes d k) k = d ∧ xorBytes d k = xorBytes k d) ∧
  (∀ d : List Byte, xorBytes d (List.replicate d.length 0) = d) ∧
  (∀ (d : List Byte) (seed : Word), cryptBytes (cryptBytes d seed) seed = d)

/-- XOR.APPLY completes on two sequences of one non-negative length, their XOR on OUT; it writes the response only
(R121, R126). -/
def Obligations.XorApplyDeliversTheXor : Prop :=
  ∀ s : State, s.ports.dlen.getLsbD 31 = false → s.ports.klen = s.ports.dlen →
    s.ports.dataIn.length = s.ports.dlen.toNat → s.ports.ksIn.length = s.ports.klen.toNat →
    exec .xorApply s =
      .next { s with
        status := { busy := false, err := .ok, errPhase := .idle, errSub := 0, errEidx := 0, errBidx := 0 }
        phase := .idle
        ports := Ports.empty
        delivery := some { resp := .ok, out := xorBytes s.ports.dataIn s.ports.ksIn, idx := none } }

/-- XOR.APPLY's errors: a length with bit 31 set comes before the comparison (R123), then the lengths must be equal
(R122); on either OUT is empty and nothing but the response is written. -/
def Obligations.XorApplyRejectsBadLengths : Prop :=
  ∀ s : State, s.phase = .cmd →
    (s.ports.dlen.getLsbD 31 = true ∨ s.ports.klen.getLsbD 31 = true →
      exec .xorApply s =
        .next { s with
          status := { busy := false, err := .error .lengthNegative, errPhase := .cmd, errSub := 0,
                      errEidx := 0, errBidx := 0 }
          phase := .idle
          ports := Ports.empty
          delivery := some { resp := .error .lengthNegative, out := [], idx := none } }) ∧
    (s.ports.dlen.getLsbD 31 = false → s.ports.klen.getLsbD 31 = false → s.ports.dlen ≠ s.ports.klen →
      exec .xorApply s =
        .next { s with
          status := { busy := false, err := .error .lengthMismatch, errPhase := .cmd, errSub := 0,
                      errEidx := 0, errBidx := 0 }
          phase := .idle
          ports := Ports.empty
          delivery := some { resp := .error .lengthMismatch, out := [], idx := none } })

/-- The model's choice (log 12): whatever number of bytes the host handed over, XOR.APPLY with equal non-negative
lengths completes with DLEN bytes on OUT, those both sequences have being their XOR; the result store is
untouched. The bytes that were not handed over are free values. -/
def Obligations.XorApplyRunsOnShortSequences : Prop :=
  ∀ s : State, s.ports.dlen.getLsbD 31 = false → s.ports.klen = s.ports.dlen →
    ∃ t out, exec .xorApply s = .next t ∧
      t.delivery = some { resp := .ok, out := out, idx := none } ∧
      out.length = s.ports.dlen.toNat ∧
      (∀ (i : Nat) (x y : Byte), i < s.ports.dlen.toNat → s.ports.dataIn[i]? = some x → s.ports.ksIn[i]? = some y →
        out[i]? = some (x ^^^ y)) ∧
      t.store = s.store ∧ t.par = s.par ∧ t.ksg = s.ksg ∧ t.cfg = s.cfg

/-- XOR.CRYPT is KS.GEN and then XOR.APPLY with what it delivered (R91, R125): from a quiescent block each command
is accepted and answered in two steps, and the second answers the crypt function of the data. -/
def Obligations.XorCryptIsTwoCommands : Prop :=
  ∀ (s : State) (data : List Byte) (seed : Word), s.Quiescent → data.length < 2 ^ 31 →
    ∃ t1 t2 k,
      Host.Core.run core 2 (s.present (HostCommand.cryptKey data seed).ports) = .next t1 ∧
      t1.delivery = some { resp := .ok, out := k, idx := none } ∧ t1.Quiescent ∧
      Host.Core.run core 2 (t1.present (HostCommand.cryptApply data k).ports) = .next t2 ∧
      t2.delivery = some { resp := .ok, out := cryptBytes data seed, idx := none } ∧ t2.Quiescent

/-! ## KDB.DECODE and the records -/

/-- KDB.DECODE's start (R131): with SRC_AVAIL false at the start test, SourceUnavailable and the store as it was;
otherwise it completes with HDRV and ECNT cleared, no entry left, in phase HDR. -/
def Obligations.KdbDecodeStarts : Prop :=
  ∀ s : State,
    (s.ports.src.avail.holds 0 = true →
      exec .kdbDecode s =
        .next { s with
          store := { s.store with hdrv := false, ecnt := 0, ent := [] }
          par := { s.par with reads := 0 }
          phase := .hdr }) ∧
    (s.phase = .cmd → s.ports.src.avail.holds 0 = false →
      exec .kdbDecode s =
        .next { s with
          status := { busy := false, err := .error .sourceUnavailable, errPhase := .cmd, errSub := 0,
                      errEidx := 0, errBidx := 0 }
          phase := .idle
          ports := Ports.empty
          delivery := some { resp := .error .sourceUnavailable, out := [], idx := none } })

/-- HDR completes for every offset: HDR.eloff and HDRV are set and the cursor seeks the entry list (R133, R134). -/
def Obligations.HdrSetsTheStoreAndSeeks : Prop :=
  ∀ (s : State) (eloff : Word),
    exec (.hdr eloff) s =
      .next { s with
        store := { s.store with hdrv := true, eloff := eloff }
        phase := .entlist
        par := { s.par with cur := eloff.setWidth 33 } }

/-- ENT completes for every name and offset: entry number ECNT is committed with no block and no payload,
unresolved, and ECNT and CUR advance by 1 and 20, as integers (R137, R138). -/
def Obligations.EntCommitsAndAdvances : Prop :=
  ∀ (s : State) (name : List Byte) (blkoff : Word), s.Inv →
    s.store.ecnt.toNat < s.cfg.entryCap.toNat → s.cursor + 20 ≤ 2 ^ 32 →
    ∃ t, exec (.ent name blkoff) s = .next t ∧
      t.store.ent[s.store.ecnt.toNat]? =
        some { name := name, blkoff := blkoff, nblk := 0, blks := [], payload := [], plen := 0,
               resolved := false } ∧
      (∀ i, i < s.store.ecnt.toNat → t.store.ent[i]? = s.store.ent[i]?) ∧
      t.store.ecnt.toNat = s.store.ecnt.toNat + 1 ∧ t.store.ent.length = t.store.ecnt.toNat ∧
      t.cursor = s.cursor + 20 ∧
      t.store.hdrv = s.store.hdrv ∧ t.store.eloff = s.store.eloff ∧ t.phase = s.phase ∧
      t.par = { s.par with cur := t.par.cur }

/-- ENT.END completes: with entries committed, the block list of entry 0 begins (R136, R141, R150); with none, the
command responds OK (R136, R151). The result store is unchanged. -/
def Obligations.EntEndLeavesTheList : Prop :=
  ∀ s : State,
    (s.store.ecnt = 0 →
      exec .entEnd s =
        .next { s with
          status := { busy := false, err := .ok, errPhase := .idle, errSub := 0, errEidx := 0, errBidx := 0 }
          phase := .idle
          ports := Ports.empty
          delivery := some { resp := .ok, out := [], idx := none } }) ∧
    (∀ e, s.store.ecnt ≠ 0 → s.store.ent[0]? = some e →
      exec .entEnd s =
        .next { s with
          phase := .blklist
          par := { s.par with eidx := 0, bcnt := 0, cur := e.blkoff.setWidth 33 } })

/-- BLK completes for every size and offset: block number BCNT of entry EIDX is committed, BCNT and nblk advance by
1 and CUR by 6, as integers; every other entry and the rest of entry EIDX are unchanged (R143, R144). -/
def Obligations.BlkCommitsAndAdvances : Prop :=
  ∀ (s : State) (size : Half) (dataoff : Word) (e : Entry), s.Inv → s.phase = .blklist →
    s.store.ent[s.par.eidx.toNat]? = some e →
    s.par.bcnt.toNat < s.cfg.blockCap.toNat → s.cursor + 6 ≤ 2 ^ 32 →
    ∃ t, exec (.blk size dataoff) s = .next t ∧
      t.store.ent[s.par.eidx.toNat]? =
        some { e with blks := e.blks ++ [{ size := size, dataoff := dataoff }], nblk := t.par.bcnt } ∧
      e.blks.length = s.par.bcnt.toNat ∧
      (∀ i, i ≠ s.par.eidx.toNat → t.store.ent[i]? = s.store.ent[i]?) ∧
      t.par.bcnt.toNat = s.par.bcnt.toNat + 1 ∧ t.cursor = s.cursor + 6 ∧
      t.store.ecnt = s.store.ecnt ∧ t.store.hdrv = s.store.hdrv ∧ t.store.eloff = s.store.eloff ∧
      t.phase = s.phase ∧ t.par = { s.par with cur := t.par.cur, bcnt := t.par.bcnt }

/-- BLK.END completes, whatever its two ignored bytes: the data phase begins with CBUF empty and TLEN zero; nothing
is committed (R86, R142, R147). -/
def Obligations.BlkEndStartsTheDataPhase : Prop :=
  ∀ (s : State) (ignored : Half),
    exec (.blkEnd ignored) s =
      .next { s with phase := .data, par := { s.par with cbuf := [], tlen := 0, didx := 0 } }

/-- Phase HDR, step by step (R132, R133): a source shorter than six bytes is truncated; the magic is compared, all
six bytes, before the offset is read; then a source shorter than ten bytes is truncated; else HDR.eloff is the LE32
of bytes 6 to 9, HDRV is 1 and the entry list is sought. -/
def Obligations.HeaderPhase : Prop :=
  ∀ s : State, s.resetIn = false → s.phase = .hdr → s.Readable →
    (s.ports.src.len.val < 6 → step s = .next ((s.addReads 1).raise .truncatedError 0)) ∧
    (6 ≤ s.ports.src.len.val → s.ports.src.bytes 0 6 ≠ Config.magic →
      step s = .next ((s.addReads 1).raise .formatError 0)) ∧
    (6 ≤ s.ports.src.len.val → s.ports.src.len.val < 10 → s.ports.src.bytes 0 6 = Config.magic →
      step s = .next ((s.addReads 2).raise .truncatedError 0)) ∧
    (10 ≤ s.ports.src.len.val → s.ports.src.bytes 0 6 = Config.magic →
      step s =
        .next { s with
          store := { s.store with hdrv := true, eloff := le32 (s.ports.src.bytes 6 4) }
          phase := .entlist
          par := { s.par with reads := s.par.reads + 2,
                              cur := (le32 (s.ports.src.bytes 6 4)).setWidth 33 } })

/-- Phase ENTLIST below the cap (R135 to R138): the probe past the end is truncated; a sentinel probe ends the list
with nothing after it read; another name needs twelve and four bytes more; else entry ECNT is committed from the 20
bytes at CUR. -/
def Obligations.EntryListPhase : Prop :=
  ∀ s : State, s.resetIn = false → s.phase = .entlist → s.Readable →
    s.store.ecnt.toNat < s.cfg.entryCap.toNat →
    let src := s.ports.src
    let probed := s.setProbe (src.bytes s.cursor 4)
    (src.len.val < s.cursor + 4 → step s = .next ((s.addReads 1).raise .truncatedError 0)) ∧
    (s.cursor + 4 ≤ src.len.val → src.bytes s.cursor 4 = [0xFF, 0xFF, 0xFF, 0xFF] →
      step s = .next (probed.addReads 1).endEntryList) ∧
    (s.cursor + 4 ≤ src.len.val → src.bytes s.cursor 4 ≠ [0xFF, 0xFF, 0xFF, 0xFF] →
      (src.len.val < s.cursor + 16 → step s = .next ((probed.addReads 2).raise .truncatedError 0)) ∧
      (s.cursor + 16 ≤ src.len.val → src.len.val < s.cursor + 20 →
        step s = .next ((probed.addReads 3).raise .truncatedError 0)) ∧
      (s.cursor + 20 ≤ src.len.val →
        step s = .next ((probed.addReads 3).commitEntry (src.bytes s.cursor 16)
          (le32 (src.bytes (s.cursor + 16) 4)))))

/-- The entry cap reached (R139, R140): in default mode the list ends without a read; in strict mode one more probe
is read, and anything but the sentinel is FormatError with SUB 1. -/
def Obligations.EntryCapReached : Prop :=
  ∀ s : State, s.resetIn = false → s.phase = .entlist → s.cfg.entryCap.toNat ≤ s.store.ecnt.toNat →
    let src := s.ports.src
    let probed := s.setProbe (src.bytes s.cursor 4)
    (s.cfg.strictCap = false → step s = .next s.endEntryList) ∧
    (s.cfg.strictCap = true → s.Readable → src.len.val < s.cursor + 4 →
      step s = .next ((s.addReads 1).raise .truncatedError 0)) ∧
    (s.cfg.strictCap = true → s.Readable → s.cursor + 4 ≤ src.len.val →
      src.bytes s.cursor 4 = [0xFF, 0xFF, 0xFF, 0xFF] → step s = .next (probed.addReads 1).endEntryList) ∧
    (s.cfg.strictCap = true → s.Readable → s.cursor + 4 ≤ src.len.val →
      src.bytes s.cursor 4 ≠ [0xFF, 0xFF, 0xFF, 0xFF] →
      step s = .next ((probed.addReads 1).raise .formatError 1))

/-- Phase BLKLIST below the cap (R142 to R144): six bytes are needed even for the sentinel; a sentinel in the first
four ends the list; else the six bytes are a block record of entry EIDX. -/
def Obligations.BlockListPhase : Prop :=
  ∀ s : State, s.resetIn = false → s.phase = .blklist → s.Readable →
    s.par.bcnt.toNat < s.cfg.blockCap.toNat →
    let src := s.ports.src
    let probed := s.setProbe (src.bytes s.cursor 6)
    (src.len.val < s.cursor + 6 → step s = .next ((s.addReads 1).raise .truncatedError 0)) ∧
    (s.cursor + 6 ≤ src.len.val → src.bytes s.cursor 4 = [0xFF, 0xFF, 0xFF, 0xFF] →
      step s = .next (probed.addReads 1).endBlockList) ∧
    (s.cursor + 6 ≤ src.len.val → src.bytes s.cursor 4 ≠ [0xFF, 0xFF, 0xFF, 0xFF] →
      step s = .next ((probed.addReads 1).commitBlock (le16 (src.bytes s.cursor 2))
        (le32 (src.bytes (s.cursor + 2) 4))))

/-- The block cap reached (R145, R146): in default mode the list ends without a read; in strict mode one more probe
of six bytes is read, and anything but the sentinel is FormatError with SUB 2. -/
def Obligations.BlockCapReached : Prop :=
  ∀ s : State, s.resetIn = false → s.phase = .blklist → s.cfg.blockCap.toNat ≤ s.par.bcnt.toNat →
    let src := s.ports.src
    let probed := s.setProbe (src.bytes s.cursor 6)
    (s.cfg.strictCap = false → step s = .next s.endBlockList) ∧
    (s.cfg.strictCap = true → s.Readable → src.len.val < s.cursor + 6 →
      step s = .next ((s.addReads 1).raise .truncatedError 0)) ∧
    (s.cfg.strictCap = true → s.Readable → s.cursor + 6 ≤ src.len.val →
      src.bytes s.cursor 4 = [0xFF, 0xFF, 0xFF, 0xFF] → step s = .next (probed.addReads 1).endBlockList) ∧
    (s.cfg.strictCap = true → s.Readable → s.cursor + 6 ≤ src.len.val →
      src.bytes s.cursor 4 ≠ [0xFF, 0xFF, 0xFF, 0xFF] →
      step s = .next ((probed.addReads 1).raise .formatError 2))

/-- Phase DATA (R147, R148): the next block's `size` bytes at `dataoff` are appended to CBUF, TLEN growing by as
much; a block of size 0 reads nothing and never faults; data past the end is truncated with nothing appended; after
the last block phase DEC begins. -/
def Obligations.DataPhase : Prop :=
  ∀ (s : State) (e : Entry), s.Inv → s.resetIn = false → s.phase = .data → s.Readable →
    s.store.ent[s.par.eidx.toNat]? = some e →
    (∀ b, e.blks[s.par.didx.toNat]? = some b →
      (b.size = 0 →
        step s = .next { s with par := { s.par with didx := s.par.didx + 1 } }) ∧
      (b.size ≠ 0 → s.ports.src.len.val < b.dataoff.toNat + b.size.toNat →
        step s = .next ((s.addReads 1).raise .truncatedError 0)) ∧
      (b.size ≠ 0 → b.dataoff.toNat + b.size.toNat ≤ s.ports.src.len.val →
        ∃ t, step s = .next t ∧
          t.par.cbuf = s.par.cbuf ++ s.ports.src.bytes b.dataoff.toNat b.size.toNat ∧
          t.par.tlen.toNat = s.par.tlen.toNat + b.size.toNat ∧
          t.par.didx.toNat = s.par.didx.toNat + 1 ∧ t.par.cur = s.par.cur ∧
          t.store = s.store ∧ t.phase = .data)) ∧
    (e.blks[s.par.didx.toNat]? = none → step s = .next { s with phase := .dec })

/-- Phase DEC (R149): the payload of entry EIDX is CBUF XORed with the keystream of TLEN bytes from KDB_SEED, loaded
afresh, its length TLEN, and RESOLVED is 1; no other entry changes; then the block list of the next entry begins
(R150), or after the last the command responds OK (R151). -/
def Obligations.DecipherPhase : Prop :=
  ∀ (s : State) (e : Entry), s.Inv → s.resetIn = false → s.phase = .dec →
    s.store.ent[s.par.eidx.toNat]? = some e →
    ∃ t, step s = .next t ∧
      t.store.ent[s.par.eidx.toNat]? =
        some { e with payload := xorBytes s.par.cbuf (keystream s.par.tlen.toNat s.cfg.kdbSeed),
                      plen := s.par.tlen, resolved := true } ∧
      (∀ i, i ≠ s.par.eidx.toNat → t.store.ent[i]? = s.store.ent[i]?) ∧
      t.store.ecnt = s.store.ecnt ∧ t.store.hdrv = s.store.hdrv ∧ t.store.eloff = s.store.eloff ∧
      t.ksg.S = lfsrStages (8 * s.par.tlen.toNat) s.cfg.kdbSeed ∧
      (s.par.eidx.toNat + 1 < s.store.ecnt.toNat →
        t.phase = .blklist ∧ t.par.eidx.toNat = s.par.eidx.toNat + 1 ∧ t.par.bcnt = 0 ∧
        t.delivery = s.delivery ∧
        ∀ (e' : Entry), s.store.ent[s.par.eidx.toNat + 1]? = some e' → t.cursor = e'.blkoff.toNat) ∧
      (s.par.eidx.toNat + 1 = s.store.ecnt.toNat →
        t.phase = .idle ∧ t.status = Status.okay ∧
        t.delivery = some { resp := .ok, out := [], idx := none })

/-! ## KDB.FIND and illegal codes -/

/-- KDB.FIND (R154 to R156): without an entry whose name begins MAGIC, NoSignatureFound; else the first such entry
decides: resolved, its index and payload are delivered, unresolved, NoSignatureFound. In every case it completes and
writes the response only. -/
def Obligations.KdbFindAnswersTheFirstMatch : Prop :=
  ∀ s : State, s.Inv → s.phase = .cmd →
    ((∀ (i : Nat) (e : Entry), s.store.ent[i]? = some e → e.name.take 5 ≠ Config.findPrefix) →
      exec .kdbFind s =
        .next { s with
          status := { busy := false, err := .error .noSignatureFound, errPhase := .cmd, errSub := 0,
                      errEidx := 0, errBidx := 0 }
          phase := .idle
          ports := Ports.empty
          delivery := some { resp := .error .noSignatureFound, out := [], idx := none } }) ∧
    (∀ (i : Nat) (e : Entry), s.store.ent[i]? = some e → e.name.take 5 = Config.findPrefix →
      (∀ (j : Nat) (e' : Entry), j < i → s.store.ent[j]? = some e' → e'.name.take 5 ≠ Config.findPrefix) →
      (e.resolved = true →
        exec .kdbFind s =
          .next { s with
            status := { busy := false, err := .ok, errPhase := .idle, errSub := 0, errEidx := 0, errBidx := 0 }
            phase := .idle
            ports := Ports.empty
            delivery := some { resp := .ok, out := e.payload, idx := some (BitVec.ofNat 16 i) } }) ∧
      (e.resolved = false →
        exec .kdbFind s =
          .next { s with
            status := { busy := false, err := .error .noSignatureFound, errPhase := .cmd, errSub := 0,
                        errEidx := 0, errBidx := 0 }
            phase := .idle
            ports := Ports.empty
            delivery := some { resp := .error .noSignatureFound, out := [], idx := none } }))

/-- An illegal code (R73, R177): a command in progress whose code is none of the four answers IllegalCommand in one
step and changes only the response and the status group. -/
def Obligations.IllegalCodesAreRejected : Prop :=
  ∀ s : State, s.resetIn = false → s.phase = .cmd →
    s.ports.cmd ≠ 0x01 → s.ports.cmd ≠ 0x02 → s.ports.cmd ≠ 0x03 → s.ports.cmd ≠ 0x04 →
    step s = exec (.cmdIllegal s.ports.cmd) s ∧
    exec (.cmdIllegal s.ports.cmd) s =
      .next { s with
        status := { busy := false, err := .error .illegalCommand, errPhase := .cmd, errSub := 0,
                    errEidx := 0, errBidx := 0 }
        phase := .idle
        ports := Ports.empty
        delivery := some { resp := .error .illegalCommand, out := [], idx := none } }

/-! ## Responses and control registers -/

/-- `respond OK` (R178): ERR, ERRINFO and ERRIDX become 0, BUSY 0, PHASE IDLE, as the host reads them by number, and
the results are delivered; the operands leave the ports (R44); the result store, the parameters and a waiting command
are as before. -/
def Obligations.RespondOkClearsTheStatusGroup : Prop :=
  ∀ (s : State) (out : List Byte) (idx : Option Half),
    let t := s.respondOk out idx
    t.readCR 8 = some ((BitVec.ofBool s.store.hdrv).setWidth 32 <<< 1) ∧
    t.readCR 9 = some 0 ∧ t.readCR 10 = some 0 ∧ t.phase = .idle ∧
    t.delivery = some { resp := .ok, out := out, idx := idx } ∧
    t.store = s.store ∧ t.cfg = s.cfg ∧ t.ports = Ports.empty ∧ t.waiting = s.waiting

/-- `raise E` (R180): STATUS.ERR is the code of E with BUSY 0, ERRINFO the phase at the raise and SUB, ERRIDX the
indices of R42 by phase; PHASE becomes IDLE and the response is the error with no result; the operands leave the ports
(R44); the result store, the parameters and a waiting command are as before. -/
def Obligations.RaiseRecordsTheError : Prop :=
  ∀ (s : State) (e : Err) (sub : BitVec 2),
    let t := s.raise e sub
    t.readCR 8 =
      some ((e.code.setWidth 32 <<< 4) ||| ((BitVec.ofBool s.store.hdrv).setWidth 32 <<< 1)) ∧
    t.readCR 9 = some ((sub.setWidth 32 <<< 4) ||| s.phase.code.setWidth 32) ∧
    (s.phase = .cmd ∨ s.phase = .hdr → t.readCR 10 = some 0) ∧
    (s.phase = .entlist → t.readCR 10 = some (s.store.ecnt.setWidth 32)) ∧
    (s.phase = .blklist →
      t.readCR 10 = some ((s.par.bcnt.setWidth 32 <<< 16) ||| s.par.eidx.setWidth 32)) ∧
    (s.phase = .data →
      t.readCR 10 = some ((s.par.didx.setWidth 32 <<< 16) ||| s.par.eidx.setWidth 32)) ∧
    t.phase = .idle ∧ t.delivery = some { resp := .error e, out := [], idx := none } ∧
    t.store = s.store ∧ t.cfg = s.cfg ∧ t.ports = Ports.empty ∧ t.waiting = s.waiting

/-- The fields of STATUS and ERRINFO and the reserved bits of every register (R39 to R43, U24), and that no other
number is a register (U27). -/
def Obligations.ControlRegisterLayout : Prop :=
  ∀ s : State,
    s.readCR 0 = some 0x87654321 ∧ s.readCR 1 = some s.cfg.kdbSeed ∧ s.readCR 2 = some 0x30325443 ∧
    s.readCR 3 = some 0x00003831 ∧ s.readCR 4 = some 0xFFFFFFFF ∧
    (∃ w, s.readCR 5 = some w ∧ w.extractLsb' 0 16 = s.cfg.entryCap ∧ w.extractLsb' 16 16 = 0) ∧
    (∃ w, s.readCR 6 = some w ∧ w.extractLsb' 0 16 = s.cfg.blockCap ∧ w.extractLsb' 16 16 = 0) ∧
    (∃ w, s.readCR 7 = some w ∧ w.getLsbD 0 = s.cfg.strictCap ∧ w.extractLsb' 1 31 = 0) ∧
    (∃ w, s.readCR 8 = some w ∧ w.getLsbD 0 = s.status.busy ∧ w.getLsbD 1 = s.store.hdrv ∧
      w.extractLsb' 2 2 = 0 ∧ w.extractLsb' 4 4 = s.status.err.code ∧ w.extractLsb' 8 24 = 0) ∧
    (∃ w, s.readCR 9 = some w ∧ w.extractLsb' 0 3 = s.status.errPhase.code ∧ w.getLsbD 3 = false ∧
      w.extractLsb' 4 2 = s.status.errSub ∧ w.extractLsb' 6 26 = 0) ∧
    (∃ w, s.readCR 10 = some w ∧ w.extractLsb' 0 16 = s.status.errEidx ∧
      w.extractLsb' 16 16 = s.status.errBidx) ∧
    (∃ w, s.readCR 11 = some w ∧ w.extractLsb' 0 16 = s.store.ecnt ∧ w.extractLsb' 16 16 = 0) ∧
    ∀ n, 11 < n → s.readCR n = none

/-! ## What steps keep -/

/-- The parameters fixed at instantiation: no step changes one, reset included (R39). -/
def Obligations.ConfigurationIsImmutable : Prop :=
  ∀ s t : State, step s = .next t → t.cfg = s.cfg

/-- SRC is never written (R53, R160): every instruction, on any state, leaves all ports as they are, SRC with every
byte, its length and whether it can be read among them, or else it responds and the ports hold nothing (R44); and of
the steps of a command in progress, those that do not respond leave the ports as they are and those that respond leave
them empty. That the host too changes no operand meanwhile is log 21's deduction, and where the operands stand is log
8's representation. -/
def Obligations.SourceIsNeverWritten : Prop :=
  (∀ (i : Instr) (s t : State), exec i s = .next t →
    (t.ports = s.ports ∧ t.ports.src.len = s.ports.src.len ∧ ∀ a, t.ports.src.byte a = s.ports.src.byte a) ∨
    (t.phase = .idle ∧ t.delivery ≠ none ∧ t.ports = Ports.empty)) ∧
  (∀ s t : State, s.resetIn = false → s.phase ≠ .idle → step s = .next t →
    (t.phase ≠ .idle → t.ports = s.ports ∧ ∀ a, t.ports.src.byte a = s.ports.src.byte a) ∧
    (t.phase = .idle → t.delivery ≠ none ∧ t.ports = Ports.empty))

/-- The frame of KS.GEN, XOR.APPLY, KDB.FIND and CMD.ILLEGAL, whether they succeed or fail (R187): the result store,
the parameters and a waiting command are unchanged; they respond, and the ports hold nothing then (R44). KSG's
registers change by KS.GEN only. That PAR's registers keep what they hold is the model's choice where a rule leaves
them any value (log 6). -/
def Obligations.OtherCommandsLeaveTheStore : Prop :=
  ∀ (i : Instr) (s t : State),
    (i = .ksGen ∨ i = .xorApply ∨ i = .kdbFind ∨ ∃ op, i = .cmdIllegal op) → exec i s = .next t →
    t.store = s.store ∧ t.par = s.par ∧ t.cfg = s.cfg ∧ t.waiting = s.waiting ∧ t.resetIn = s.resetIn ∧
    (i ≠ .ksGen → t.ksg = s.ksg) ∧ t.phase = .idle ∧ t.delivery ≠ none ∧ t.ports = Ports.empty

/-- The frame of KDB.DECODE and of the records HDR, ENT, BLK and BLK.END: KSG's registers, the parameters and a
waiting command are unchanged; the ports with every byte of SRC are unchanged, unless KDB.DECODE's start test fails,
which responds and leaves the ports empty (R44); the status group and what is delivered change by that start test only;
the header fields by KDB.DECODE and HDR only; ECNT and the entries by KDB.DECODE and ENT, and entry EIDX by BLK. -/
def Obligations.RecordFrames : Prop :=
  ∀ (i : Instr) (s t : State), exec i s = .next t →
    (i = .kdbDecode ∨ (∃ o, i = .hdr o) ∨ (∃ n o, i = .ent n o) ∨ (∃ z o, i = .blk z o) ∨
      ∃ g, i = .blkEnd g) →
    t.ksg = s.ksg ∧ t.cfg = s.cfg ∧ t.waiting = s.waiting ∧ t.resetIn = s.resetIn ∧
    (i ≠ .kdbDecode ∨ s.ports.src.avail.holds 0 = true →
      t.status = s.status ∧ t.delivery = s.delivery ∧ t.ports = s.ports ∧
      ∀ a, t.ports.src.byte a = s.ports.src.byte a) ∧
    (i = .kdbDecode → s.ports.src.avail.holds 0 = false →
      t.phase = .idle ∧ t.delivery ≠ none ∧ t.ports = Ports.empty ∧ t.store = s.store) ∧
    (i ≠ .kdbDecode → (∀ o, i ≠ .hdr o) → t.store.hdrv = s.store.hdrv ∧ t.store.eloff = s.store.eloff) ∧
    (i ≠ .kdbDecode → (∀ n o, i ≠ .ent n o) → t.store.ecnt = s.store.ecnt ∧
      ∀ j, j ≠ s.par.eidx.toNat → t.store.ent[j]? = s.store.ent[j]?) ∧
    ((∃ o, i = .hdr o) ∨ (∃ g, i = .blkEnd g) → t.store.ent = s.store.ent)

/-- The machine never stops: every step answers a next state, since every error of the spec is a response
(R170, R180). -/
def Obligations.EveryStepAnswersANextState : Prop :=
  ∀ s : State, ∃ t, step s = .next t

/-! ## Reset and acceptance -/

/-- The reset values the spec states (R201), in the fields and as the host reads them. -/
def Obligations.ResetStateValues : Prop :=
  State.reset.phase = .idle ∧ State.reset.store.hdrv = false ∧ State.reset.store.ecnt = 0 ∧
  State.reset.readCR 5 = some 127 ∧ State.reset.readCR 6 = some 255 ∧ State.reset.readCR 7 = some 0 ∧
  State.reset.readCR 8 = some 0 ∧ State.reset.readCR 9 = some 0 ∧ State.reset.readCR 10 = some 0 ∧
  State.reset.readCR 11 = some 0 ∧ State.reset.ports = Ports.empty ∧ State.reset.waiting = none ∧ State.reset.delivery = none ∧
  State.reset.readHeader = none ∧ ∀ i, State.reset.readEntry i = none

/-- Reset may be applied in any state, whatever runs (R200, R201): the next step leaves the block idle with every
stated reset value, the command in progress abandoned without a response and the parameters kept; the block then
accepts a command, the one presented after the reset where none waited at the port before it. -/
def Obligations.ResetAppliesAtAnyTime : Prop :=
  ∀ (s : State) (p : Ports), ∃ t,
    step s.assertReset = .next t ∧ t.phase = .idle ∧ t.status = Status.reset ∧
    t.store.hdrv = false ∧ t.store.ecnt = 0 ∧ t.delivery = none ∧ t.resetIn = false ∧ t.cfg = s.cfg ∧
    (∀ i, t.readEntry i = none) ∧
    ∃ u, step (t.present p) = .next u ∧ u.phase = .cmd ∧ u.status.busy = true ∧
      (s.waiting = none → u.ports = p)

/-- After reset KDB.FIND raises NoSignatureFound, and KS.GEN and XOR.APPLY work at once (R203). -/
def Obligations.CommandsAfterReset : Prop :=
  (∃ t, Host.Core.run core 2 (State.reset.present HostCommand.kdbFind.ports) = .next t ∧
    t.delivery = some { resp := .error .noSignatureFound, out := [], idx := none } ∧ t.readCR 8 = some 0x50) ∧
  (∀ len seed : Word, len.getLsbD 31 = false →
    ∃ t, Host.Core.run core 2 (State.reset.present (HostCommand.ksGen len seed).ports) = .next t ∧
      t.delivery = some { resp := .ok, out := keystream len.toNat seed, idx := none }) ∧
  (∀ data ks : List Byte, data.length = ks.length → data.length < 2 ^ 31 →
    ∃ t, Host.Core.run core 2 (State.reset.present (HostCommand.xorApply data ks).ports) = .next t ∧
      t.delivery = some { resp := .ok, out := xorBytes data ks, idx := none })

/-- Acceptance (R205): an idle block with BUSY 0 accepts the waiting command: BUSY and PHASE become 1 and CMD and
its operands are on the ports; while a command is in progress a waiting command stays at the port, neither lost nor
started, and the operands of the command in progress stay on the ports until its response. -/
def Obligations.OneCommandAtATime : Prop :=
  ∀ (s : State) (p : Ports), s.resetIn = false → s.waiting = some p →
    (s.phase = .idle → s.status.busy = false →
      step s = .next { s with ports := p, waiting := none, phase := .cmd,
                              status := { s.status with busy := true }, delivery := none }) ∧
    (s.phase ≠ .idle → ∀ t, step s = .next t →
      t.waiting = some p ∧ (t.phase ≠ .idle → t.ports = s.ports))

/-! ## Errors -/

/-- Errors are precise and keep what was committed (R152, R181): a step of a command in progress that ends in an
error leaves the result store as it was before the step, and records the phase it was in. -/
def Obligations.ErrorsArePreciseAndKeepTheStore : Prop :=
  ∀ (s t : State) (e : Err), s.resetIn = false → s.phase ≠ .idle → step s = .next t →
    t.phase = .idle → t.status.err = .error e →
    t.store = s.store ∧ t.status.errPhase = s.phase ∧ t.status.busy = false ∧ t.ksg = s.ksg ∧
    t.delivery = some { resp := .error e, out := [], idx := none }

/-- The causes of FormatError (R171): a step that ends in it was in phase HDR with six bytes that are not MAGIC, SUB
0, HDRV 0 and ECNT 0, or had STRICT_CAP 1 at a cap and a next probe, inside SRC, that is not the sentinel, with SUB 1
in the entry list or SUB 2 in a block list. -/
def Obligations.FormatErrorCauses : Prop :=
  ∀ s t : State, s.Inv → s.resetIn = false → s.phase ≠ .idle → step s = .next t →
    t.phase = .idle → t.status.err = .error .formatError →
    (s.phase = .hdr ∧ s.ports.src.bytes 0 6 ≠ Config.magic ∧ t.status.errSub = 0 ∧
      t.store.hdrv = false ∧ t.store.ecnt = 0) ∨
    (s.phase = .entlist ∧ s.cfg.strictCap = true ∧ s.cfg.entryCap.toNat ≤ s.store.ecnt.toNat ∧
      s.cursor + 4 ≤ s.ports.src.len.val ∧ s.ports.src.bytes s.cursor 4 ≠ [0xFF, 0xFF, 0xFF, 0xFF] ∧
      t.status.errSub = 1) ∨
    (s.phase = .blklist ∧ s.cfg.strictCap = true ∧ s.cfg.blockCap.toNat ≤ s.par.bcnt.toNat ∧
      s.cursor + 6 ≤ s.ports.src.len.val ∧ s.ports.src.bytes s.cursor 4 ≠ [0xFF, 0xFF, 0xFF, 0xFF] ∧
      t.status.errSub = 2)

/-! ## Invariants -/

/-- The invariant holds at reset. The model's choice: PROBE, CUR, TLEN, CBUF and the hidden counters have the values
of log 3 and log 4, which the spec leaves unspecified (R201). -/
def Obligations.InvariantHoldsAtReset : Prop :=
  State.reset.Inv

/-- The invariant is kept by every step: the bounds of R153 on ECNT and nblk, payload lengths the sums of the block
sizes, TLEN the length of CBUF (R29), CUR at most 2^32 (R26), BUSY while a command is in progress (R40), the hidden
counters zero (R22), the ports empty between commands (R44), SRC in canonical form, and the order in which entries are
resolved (R150). A reset step leaves the working registers at the model's values (log 3, log 4). -/
def Obligations.EveryStepKeepsTheInvariant : Prop :=
  ∀ s t : State, s.Inv → step s = .next t → t.Inv

/-- The bound on the reads of one KDB.DECODE (R157), as an invariant that every step keeps. -/
def Obligations.ReadsStayBounded : Prop :=
  ∀ s t : State, s.Inv → s.ReadsBounded → step s = .next t →
    t.ReadsBounded ∧ t.par.reads ≤ decodeReads t.cfg

/-- Every command terminates by itself (R157, R206): from any state of a command in progress that meets the
invariant, the response comes within the bound, which counts the model's own steps (log 7). -/
def Obligations.EveryCommandTerminates : Prop :=
  ∀ s : State, s.Inv → s.resetIn = false → s.phase ≠ .idle →
    ∃ k t, k ≤ decodeSteps s.cfg ∧ Host.Core.run core k s = .next t ∧ t.phase = .idle ∧
      t.status.busy = false ∧ t.delivery ≠ none

/-- While KDB.DECODE runs, every entry and block record of the store is what SRC holds where the format places it
(R62, R133, R137, R138, R143, R144), as an invariant that every step keeps, the one that responds included, after
which the source is no longer on the ports. -/
def Obligations.StoreMirrorsTheSource : Prop :=
  ∀ s t : State, s.Inv → s.resetIn = false → s.phase ≠ .idle → s.phase ≠ .cmd →
    s.MirrorsSource s.ports.src → step s = .next t →
    t.MirrorsSource s.ports.src ∧ (t.phase ≠ .idle → t.ports = s.ports)

/-- KDB.DECODE ending OK (R151): every entry below ECNT is resolved, HDRV is 1, and ERR, ERRINFO and ERRIDX are
0. -/
def Obligations.DecodeOkResolvesEveryEntry : Prop :=
  ∀ s t : State, s.Inv → s.resetIn = false → s.phase ≠ .idle → s.phase ≠ .cmd → step s = .next t →
    t.phase = .idle → t.status.err = .ok →
    t.store.hdrv = true ∧ t.status = Status.okay ∧ t.store.ent.length = t.store.ecnt.toNat ∧
    ∀ (i : Nat) (e : Entry), t.store.ent[i]? = some e → e.resolved = true

/-! ## The whole command -/

/-- The machine's steps add up to the pseudocode of KDB.DECODE (R130): from a command that passes its start test,
with any configuration, any source, any SRC_AVAIL and any contents of the registers, the block comes to idle with
the result store, the number of reads, the status group and the response that the pseudocode gives. The number of
steps and the ordinal of the last read are the model's (log 7); after the response the ports hold nothing (R44). -/
def Obligations.DecodeRunsThePseudocode : Prop :=
  ∀ s : State, s.resetIn = false → s.phase = .cmd → s.ports.cmd = 0x03 →
    s.ports.src.avail.holds 0 = true →
    ∃ k t, Host.Core.run core k s = .next t ∧ t.phase = .idle ∧
      t.store.hdrv = (decodeContainer s.cfg s.ports.src).hdrv ∧
      (t.store.hdrv = true → t.store.eloff = (decodeContainer s.cfg s.ports.src).eloff) ∧
      t.store.ent = (decodeContainer s.cfg s.ports.src).ent ∧
      t.store.ecnt.toNat = (decodeContainer s.cfg s.ports.src).ent.length ∧
      t.par.reads = (decodeContainer s.cfg s.ports.src).reads ∧
      t.status = (decodeContainer s.cfg s.ports.src).status ∧
      t.delivery = some { resp := (decodeContainer s.cfg s.ports.src).status.err, out := [], idx := none } ∧
      t.cfg = s.cfg ∧ t.ports = Ports.empty ∧ t.waiting = s.waiting

/-- Round trip (R159): when KDB.DECODE runs from its acceptance to an OK response and the blocks of an entry name
bytes that are a plaintext enciphered with KDB_SEED, that entry's payload is the plaintext. -/
def Obligations.DecodeRestoresThePlaintext : Prop :=
  ∀ (s t : State) (k i : Nat) (e : Entry) (p : List Byte),
    s.resetIn = false → s.phase = .cmd → s.ports.cmd = 0x03 → s.ports.src.avail.holds 0 = true →
    s.waiting = none → Host.Core.run core k s = .next t → t.phase = .idle → t.status.err = .ok →
    t.store.ent[i]? = some e →
    blockData s.ports.src e.blks = xorBytes p (keystream p.length s.cfg.kdbSeed) →
    e.payload = p ∧ e.plen.toNat = p.length ∧ e.resolved = true

/-- What the host can see never depends on S, the hidden counters or PAR's working registers as they stand between
commands (R23, R182, R202): two idle states that agree on everything else agree on everything else after any number
of steps, whatever commands wait. -/
def Obligations.WorkingRegistersAreUnobservable : Prop :=
  ∀ (s s' : State) (n : Nat), s.phase = .idle → s.hideWork = s'.hideWork →
    ∃ t t', Host.Core.run core n s = .next t ∧ Host.Core.run core n s' = .next t' ∧
      t.hideWork = t'.hideWork

/-! ## The model's choices -/

/-- The model's choices, no rules of the spec: at a response the working registers keep what they hold (log 6), which
the spec leaves to any value; what a response delivers is gone with the next step of an idle block, which else changes
nothing unless a command waits (log 8, log 15); and a reset drops a command waiting at the port, so that the command
presented next is the one accepted (log 9). -/
def Obligations.ResponsesKeepAndResetDrops : Prop :=
  (∀ (s : State) (out : List Byte) (idx : Option Half) (t : State), t = s.respondOk out idx →
    t.par = s.par ∧ t.ksg = s.ksg) ∧
  (∀ (s : State) (e : Err) (sub : BitVec 2) (t : State), t = s.raise e sub →
    t.par = s.par ∧ t.ksg = s.ksg) ∧
  (∀ s : State, s.resetIn = false → s.phase = .idle → s.waiting = none →
    step s = .next { s with delivery := none }) ∧
  (∀ (s : State) (p : Ports), ∃ t,
    step s.assertReset = .next t ∧ t.waiting = none ∧ t.ports = Ports.empty ∧
    ∃ u, step (t.present p) = .next u ∧ u.ports = p)
end

