-- ==== Sys2Proof/Laws/Decode.lean ====
section
/-! SUPPORT. Field assembly: which bytes it looks at, and that it undoes the writing of the fields. -/

namespace Sys2Proof

theorem le16_take (q : List Byte) (n : Nat) (h : 2 ≤ n) : le16 (q.take n) = le16 q := by
  have h1 : (1 : Nat) < n := by omega
  have h0 : (0 : Nat) < n := by omega
  simp [le16, List.getD, h0, h1]

theorem le32_take (q : List Byte) (n : Nat) (h : 4 ≤ n) : le32 (q.take n) = le32 q := by
  have h3 : (3 : Nat) < n := by omega
  have h2 : (2 : Nat) < n := by omega
  have h1 : (1 : Nat) < n := by omega
  have h0 : (0 : Nat) < n := by omega
  simp [le32, List.getD, h0, h1, h2, h3]

theorem isSentinel_take (q : List Byte) (n : Nat) (h : 4 ≤ n) : isSentinel (q.take n) = isSentinel q := by
  unfold isSentinel; rw [le32_take q n h]

@[simp] theorem le16_bytesOf16 (v : Half) (q : List Byte) : le16 (bytesOf16 v ++ q) = v := by
  simp only [le16, bytesOf16, List.cons_append, List.getD_cons_succ, List.getD_cons_zero]
  ext i hi
  simp only [BitVec.getElem_append, BitVec.getElem_extractLsb']
  split
  · simp [BitVec.getLsbD_eq_getElem, hi]
  · rw [show 8 + (i - 8) = i by omega, BitVec.getLsbD_eq_getElem hi]

@[simp] theorem le32_bytesOf32 (v : Word) (q : List Byte) : le32 (bytesOf32 v ++ q) = v := by
  simp only [le32, bytesOf32, List.cons_append, List.getD_cons_succ, List.getD_cons_zero]
  ext i hi
  simp only [BitVec.getElem_append, BitVec.getElem_extractLsb']
  split
  · simp [BitVec.getLsbD_eq_getElem, hi]
  · split
    · rw [show 8 + (i - 8) = i by omega, BitVec.getLsbD_eq_getElem hi]
    · split
      · rw [show 16 + (i - 8 - 8) = i by omega, BitVec.getLsbD_eq_getElem hi]
      · rw [show 24 + (i - 8 - 8 - 8) = i by omega, BitVec.getLsbD_eq_getElem hi]

/-- The bytes of a four-byte sequence are the bytes of its LE32. -/
theorem bytesOf32_le32 (q : List Byte) (h : q.length = 4) : bytesOf32 (le32 q) = q := by
  obtain ⟨a, b, c, d, rfl⟩ : ∃ a b c d, q = [a, b, c, d] := by
    match q, h with
    | [a, b, c, d], _ => exact ⟨a, b, c, d, rfl⟩
  simp only [bytesOf32, le32, List.getD_cons_succ, List.getD_cons_zero, List.cons.injEq, and_true]
  refine ⟨?_, ?_, ?_, ?_⟩ <;> ext i hi <;>
    simp only [BitVec.getElem_extractLsb', BitVec.getLsbD_append] <;> repeat' (split <;> try omega)
  · rw [show 0 + i = i by omega, BitVec.getLsbD_eq_getElem hi]
  · rw [show 8 + i - 8 = i by omega, BitVec.getLsbD_eq_getElem hi]
  · rw [show 16 + i - 8 - 8 = i by omega, BitVec.getLsbD_eq_getElem hi]
  · rw [show 24 + i - 8 - 8 - 8 = i by omega, BitVec.getLsbD_eq_getElem hi]

/-- The bytes of a two-byte sequence are the bytes of its LE16. -/
theorem bytesOf16_le16 (q : List Byte) (h : q.length = 2) : bytesOf16 (le16 q) = q := by
  obtain ⟨a, b, rfl⟩ : ∃ a b, q = [a, b] := by
    match q, h with
    | [a, b], _ => exact ⟨a, b, rfl⟩
  simp only [bytesOf16, le16, List.getD_cons_succ, List.getD_cons_zero, List.cons.injEq, and_true]
  refine ⟨?_, ?_⟩ <;> ext i hi <;>
    simp only [BitVec.getElem_extractLsb', BitVec.getLsbD_append] <;> repeat' (split <;> try omega)
  · rw [show 0 + i = i by omega, BitVec.getLsbD_eq_getElem hi]
  · rw [show 8 + i - 8 = i by omega, BitVec.getLsbD_eq_getElem hi]

/-- The sentinel test compares the first four bytes with `FF FF FF FF` (R82). -/
theorem isSentinel_iff (q : List Byte) (h : 4 ≤ q.length) :
    isSentinel q = true ↔ q.take 4 = [0xFF, 0xFF, 0xFF, 0xFF] := by
  rw [← isSentinel_take q 4 (Nat.le_refl 4)]
  have hlen : (q.take 4).length = 4 := by simp; omega
  constructor
  · intro hs
    have hv : le32 (q.take 4) = Config.sentinel := by simpa [isSentinel] using hs
    rw [← bytesOf32_le32 _ hlen, hv]
    decide
  · intro hq
    rw [hq]
    decide

@[simp] theorem length_bytesOf16 (v : Half) : (bytesOf16 v).length = 2 := rfl
@[simp] theorem length_bytesOf32 (v : Word) : (bytesOf32 v).length = 4 := rfl

/-! ## The opcode table -/

/-- The row tried first among some is one of them, and none of them has a lower priority number. -/
theorem foldl_triedFirst (rows : List TableRow) (best : Option TableRow) (r : TableRow)
    (h : rows.foldl TableRow.triedFirst best = some r) :
    (r ∈ rows ∨ best = some r) ∧ (∀ r' ∈ rows, r.priority ≤ r'.priority) ∧
      ∀ b, best = some b → r.priority ≤ b.priority := by
  induction rows generalizing best with
  | nil => exact ⟨.inr h, by simp, fun b hb => by rw [List.foldl_nil, hb] at h; cases h; exact Nat.le_refl _⟩
  | cons x rows ih =>
    obtain ⟨h1, h2, h3⟩ := ih _ h
    cases best with
    | none =>
      refine ⟨.inl ?_, ?_, by simp⟩
      · rcases h1 with h1 | h1
        · exact List.mem_cons_of_mem _ h1
        · cases h1; exact List.mem_cons_self
      · exact List.forall_mem_cons.mpr ⟨h3 x rfl, h2⟩
    | some b =>
      by_cases hb : x.priority < b.priority
      · simp only [TableRow.triedFirst, if_pos hb, Option.some.injEq, forall_eq'] at h1 h3
        refine ⟨.inl ?_, List.forall_mem_cons.mpr ⟨h3, h2⟩, fun b' hb' => ?_⟩
        · rcases h1 with h1 | rfl
          · exact List.mem_cons_of_mem _ h1
          · exact List.mem_cons_self
        · cases hb'; omega
      · simp only [TableRow.triedFirst, if_neg hb, Option.some.injEq, forall_eq'] at h1 h3
        refine ⟨?_, List.forall_mem_cons.mpr ⟨by omega, h2⟩, fun b' hb' => by cases hb'; exact h3⟩
        rcases h1 with h1 | rfl
        · exact .inl (List.mem_cons_of_mem _ h1)
        · exact .inr rfl

/-- A selected row is a row of the list that matches, of the least priority number among those that match (R82). -/
theorem selectFrom_some (rows : List TableRow) (p : Position) (q : List Byte) (r : TableRow)
    (h : selectFrom rows p q = some r) :
    r ∈ rows ∧ r.matchesAt p q = true ∧
      ∀ r' ∈ rows, r'.matchesAt p q = true → r.priority ≤ r'.priority := by
  obtain ⟨h1, h2, -⟩ := foldl_triedFirst _ _ _ h
  have hr := List.mem_filter.mp (h1.resolve_right (by simp))
  exact ⟨hr.1, hr.2, fun r' hm hr' => h2 r' (List.mem_filter.mpr ⟨hm, hr'⟩)⟩

end Sys2Proof
end

