-- ==== Sys2Proof/Laws/Memory.lean ====
section
/-! SUPPORT. The laws of SRC as memory: read after write, the canonical form kept by every operation, equal reads
make equal memories, and what a read of several bytes delivers. -/

namespace Sys2Proof.Machine

@[simp] theorem Memory.read_nil (a : Nat) : Memory.read [] a = unlistedByte := rfl

theorem Memory.read_cons (c : Host.Cell) (m : Memory) (a : Nat) :
    Memory.read (c :: m) a = if c.1 = a then c.2 else Memory.read m a := rfl

/-- In a memory whose addresses start at `lo`, a lower address is unlisted. -/
theorem Memory.read_below (m : Memory) (lo a : Nat) (h : Memory.above lo m = true) (ha : a < lo) :
    m.read a = unlistedByte := by
  induction m generalizing lo with
  | nil => rfl
  | cons c m ih =>
    simp only [Memory.above, Bool.and_eq_true, decide_eq_true_eq] at h
    obtain ⟨⟨hb, -⟩, hm⟩ := h
    rw [Memory.read_cons, if_neg (by omega)]
    exact ih (c.1 + 1) hm (by omega)

/-- A lower start admits the same memory. -/
theorem Memory.above_mono (m : Memory) (lo lo' : Nat) (h : Memory.above lo m = true) (hl : lo' ≤ lo) :
    Memory.above lo' m = true := by
  cases m with
  | nil => rfl
  | cons c m =>
    simp only [Memory.above, Bool.and_eq_true, decide_eq_true_eq] at h ⊢
    exact ⟨⟨by omega, h.1.2⟩, h.2⟩

/-- A write keeps the canonical form. -/
theorem Memory.above_write (m : Memory) (lo a : Nat) (v : Byte) (h : Memory.above lo m = true)
    (ha : lo ≤ a) : Memory.above lo (m.write a v) = true := by
  induction m generalizing lo with
  | nil =>
    unfold Memory.write
    split
    · rfl
    · simp [Memory.above, *]
  | cons c m ih =>
    obtain ⟨b, x⟩ := c
    have h' := h
    simp only [Memory.above, Bool.and_eq_true, decide_eq_true_eq] at h'
    obtain ⟨⟨hb, hx⟩, hm⟩ := h'
    unfold Memory.write
    split
    · split
      · exact h
      · simp only [Memory.above, Bool.and_eq_true, decide_eq_true_eq, bne_iff_ne, ne_eq]
        exact ⟨⟨ha, ‹_›⟩, ⟨by omega, by simpa using hx⟩, hm⟩
    · split
      · split
        · exact Memory.above_mono _ _ _ hm (by omega)
        · simp only [Memory.above, Bool.and_eq_true, decide_eq_true_eq, bne_iff_ne, ne_eq]
          exact ⟨⟨ha, ‹_›⟩, by simpa [‹a = b›] using hm⟩
      · simp only [Memory.above, Bool.and_eq_true, decide_eq_true_eq]
        exact ⟨⟨hb, hx⟩, ih (b + 1) hm (by omega)⟩

theorem Memory.wf_write (m : Memory) (a : Nat) (v : Byte) (h : m.wf = true) : (m.write a v).wf = true :=
  Memory.above_write m 0 a v h (Nat.zero_le _)

theorem Memory.wf_writeBytes (m : Memory) (a : Nat) (q : List Byte) (h : m.wf = true) :
    (m.writeBytes a q).wf = true := by
  induction q generalizing m a with
  | nil => exact h
  | cons b q ih => exact ih _ _ (Memory.wf_write m a b h)

/-- A read after a write to the same address gives the byte written. -/
theorem Memory.read_write_same (m : Memory) (lo a : Nat) (v : Byte) (h : Memory.above lo m = true) :
    (m.write a v).read a = v := by
  induction m generalizing lo with
  | nil =>
    unfold Memory.write
    split
    · simp [*]
    · simp [Memory.read_cons]
  | cons c m ih =>
    obtain ⟨b, x⟩ := c
    have h' := h
    simp only [Memory.above, Bool.and_eq_true, decide_eq_true_eq] at h'
    obtain ⟨⟨hb, -⟩, hm⟩ := h'
    unfold Memory.write
    split
    · split
      · rw [Memory.read_cons, if_neg (by simp; omega), Memory.read_below m (b + 1) a hm (by omega)]
        exact Eq.symm ‹_›
      · simp [Memory.read_cons]
    · split
      · split
        · rw [Memory.read_below m (b + 1) a hm (by omega)]
          exact Eq.symm ‹_›
        · simp [Memory.read_cons]
      · rw [Memory.read_cons, if_neg (by simp; omega)]
        exact ih (b + 1) hm

/-- A write leaves every other address alone. -/
theorem Memory.read_write_other (m : Memory) (a a' : Nat) (v : Byte) (hne : a' ≠ a) :
    (m.write a v).read a' = m.read a' := by
  induction m with
  | nil =>
    unfold Memory.write
    split
    · rfl
    · simp [Memory.read_cons, Ne.symm hne]
  | cons c m ih =>
    obtain ⟨b, x⟩ := c
    unfold Memory.write
    split
    · split
      · rfl
      · simp [Memory.read_cons, Ne.symm hne]
    · split
      · split
        · rw [Memory.read_cons, if_neg (by simp; omega)]
        · simp [Memory.read_cons, Ne.symm hne, ‹a = b›.symm]
      · simp [Memory.read_cons, ih]

@[simp] theorem Memory.length_readBytes (m : Memory) (a n : Nat) : (m.readBytes a n).length = n := by
  induction n generalizing a with
  | zero => rfl
  | succ n ih => simp [Memory.readBytes, ih]

theorem Memory.getElem?_readBytes (m : Memory) (a n j : Nat) :
    (m.readBytes a n)[j]? = if j < n then some (m.read (a + j)) else none := by
  induction n generalizing a j with
  | zero => simp [Memory.readBytes]
  | succ n ih =>
    cases j with
    | zero => simp [Memory.readBytes]
    | succ j =>
      simp only [Memory.readBytes, List.getElem?_cons_succ, ih]
      simp [Nat.add_comm, Nat.add_left_comm]

theorem Memory.readBytes_add (m : Memory) (a n k : Nat) :
    m.readBytes a (n + k) = m.readBytes a n ++ m.readBytes (a + n) k := by
  induction n generalizing a with
  | zero => simp [Memory.readBytes]
  | succ n ih =>
    rw [Nat.succ_add]
    simp only [Memory.readBytes, ih, List.cons_append]
    rw [show a + (n + 1) = a + 1 + n by omega]

theorem Memory.take_readBytes (m : Memory) (a n k : Nat) (h : k ≤ n) :
    (m.readBytes a n).take k = m.readBytes a k := by
  obtain ⟨d, rfl⟩ := Nat.exists_eq_add_of_le h
  rw [Memory.readBytes_add]
  simp

theorem Memory.drop_readBytes (m : Memory) (a n k : Nat) (h : k ≤ n) :
    (m.readBytes a n).drop k = m.readBytes (a + k) (n - k) := by
  obtain ⟨d, rfl⟩ := Nat.exists_eq_add_of_le h
  rw [Memory.readBytes_add]
  simp

@[simp] theorem Source.length_bytes (src : Source) (a n : Nat) : (src.bytes a n).length = n :=
  Memory.length_readBytes _ _ _

/-- Everything `memRead` can answer (R55, R56). -/
theorem memRead_cases (src : Source) (k addr n : Nat) :
    (n = 0 ∧ memRead src k addr n = .ok []) ∨
    (0 < n ∧ src.avail.holds k = false ∧ memRead src k addr n = .error .sourceUnavailable) ∨
    (0 < n ∧ src.avail.holds k = true ∧ src.len.val < addr + n ∧
      memRead src k addr n = .error .truncatedError) ∨
    (0 < n ∧ src.avail.holds k = true ∧ addr + n ≤ src.len.val ∧
      memRead src k addr n = .ok (src.bytes addr n)) := by
  unfold memRead
  by_cases h0 : n = 0
  · exact .inl ⟨h0, if_pos h0⟩
  · rw [if_neg h0]
    cases ha : src.avail.holds k
    · exact .inr (.inl ⟨by omega, rfl, by simp⟩)
    · by_cases hl : addr + n > src.len.val
      · exact .inr (.inr (.inl ⟨by omega, rfl, hl, by simp [hl]⟩))
      · exact .inr (.inr (.inr ⟨by omega, rfl, by omega, by simp [hl]⟩))

/-- A read that succeeds delivers the bytes asked for, all inside SRC. -/
theorem memRead_ok (src : Source) (k addr n : Nat) (q : List Byte) (h : memRead src k addr n = .ok q) :
    q = src.bytes addr n ∧ (0 < n → src.avail.holds k = true ∧ addr + n ≤ src.len.val) := by
  rcases memRead_cases src k addr n with ⟨h0, h1⟩ | ⟨-, -, h1⟩ | ⟨-, -, -, h1⟩ | ⟨-, ha, hl, h1⟩ <;>
    rw [h1] at h <;> cases h
  · subst h0; exact ⟨rfl, fun hp => absurd hp (by omega)⟩
  · exact ⟨rfl, fun _ => ⟨ha, hl⟩⟩

end Sys2Proof.Machine
end

