-- ==== Sys2Proof/Laws/State.lean ====
section
/-! SUPPORT. One lemma per field per named update of the state, true by rfl, so that no proof unfolds a record
update. -/

namespace Sys2Proof.Machine

variable (s : State)

/-! ### applyReset -/

@[simp] theorem State.applyReset_cfg : (s.applyReset).cfg = s.cfg := rfl
@[simp] theorem State.applyReset_ksg : (s.applyReset).ksg = Ksg.reset := rfl
@[simp] theorem State.applyReset_par : (s.applyReset).par = Parser.reset := rfl
@[simp] theorem State.applyReset_store : (s.applyReset).store = Store.reset := rfl
@[simp] theorem State.applyReset_phase : (s.applyReset).phase = .idle := rfl
@[simp] theorem State.applyReset_status : (s.applyReset).status = Status.reset := rfl
@[simp] theorem State.applyReset_ports : (s.applyReset).ports = Ports.empty := rfl
@[simp] theorem State.applyReset_waiting : (s.applyReset).waiting = none := rfl
@[simp] theorem State.applyReset_delivery : (s.applyReset).delivery = none := rfl
@[simp] theorem State.applyReset_resetIn : (s.applyReset).resetIn = false := rfl

/-! ### accept -/

@[simp] theorem State.accept_cfg (p : Ports) : (s.accept p).cfg = s.cfg := rfl
@[simp] theorem State.accept_ksg (p : Ports) : (s.accept p).ksg = s.ksg := rfl
@[simp] theorem State.accept_par (p : Ports) : (s.accept p).par = s.par := rfl
@[simp] theorem State.accept_store (p : Ports) : (s.accept p).store = s.store := rfl
@[simp] theorem State.accept_phase (p : Ports) : (s.accept p).phase = .cmd := rfl
@[simp] theorem State.accept_status (p : Ports) : (s.accept p).status = { s.status with busy := true } := rfl
@[simp] theorem State.accept_ports (p : Ports) : (s.accept p).ports = p := rfl
@[simp] theorem State.accept_waiting (p : Ports) : (s.accept p).waiting = none := rfl
@[simp] theorem State.accept_delivery (p : Ports) : (s.accept p).delivery = none := rfl
@[simp] theorem State.accept_resetIn (p : Ports) : (s.accept p).resetIn = s.resetIn := rfl

/-! ### delivered -/

@[simp] theorem State.delivered_cfg : (s.delivered).cfg = s.cfg := rfl
@[simp] theorem State.delivered_ksg : (s.delivered).ksg = s.ksg := rfl
@[simp] theorem State.delivered_par : (s.delivered).par = s.par := rfl
@[simp] theorem State.delivered_store : (s.delivered).store = s.store := rfl
@[simp] theorem State.delivered_phase : (s.delivered).phase = s.phase := rfl
@[simp] theorem State.delivered_status : (s.delivered).status = s.status := rfl
@[simp] theorem State.delivered_ports : (s.delivered).ports = s.ports := rfl
@[simp] theorem State.delivered_waiting : (s.delivered).waiting = s.waiting := rfl
@[simp] theorem State.delivered_delivery : (s.delivered).delivery = none := rfl
@[simp] theorem State.delivered_resetIn : (s.delivered).resetIn = s.resetIn := rfl

/-! ### respondOk -/

@[simp] theorem State.respondOk_cfg (out : List Byte) (idx : Option Half) : (s.respondOk out idx).cfg =
      s.cfg := rfl
@[simp] theorem State.respondOk_ksg (out : List Byte) (idx : Option Half) : (s.respondOk out idx).ksg =
      s.ksg := rfl
@[simp] theorem State.respondOk_par (out : List Byte) (idx : Option Half) : (s.respondOk out idx).par =
      s.par := rfl
@[simp] theorem State.respondOk_store (out : List Byte) (idx : Option Half) : (s.respondOk out idx).store =
      s.store := rfl
@[simp] theorem State.respondOk_phase (out : List Byte) (idx : Option Half) : (s.respondOk out idx).phase =
      .idle := rfl
@[simp] theorem State.respondOk_status (out : List Byte) (idx : Option Half) : (s.respondOk out idx).status =
      Status.okay := rfl
@[simp] theorem State.respondOk_ports (out : List Byte) (idx : Option Half) : (s.respondOk out idx).ports =
      Ports.empty := rfl
@[simp] theorem State.respondOk_waiting (out : List Byte) (idx : Option Half) : (s.respondOk out idx).waiting =
      s.waiting := rfl
@[simp] theorem State.respondOk_delivery (out : List Byte) (idx : Option Half) : (s.respondOk out idx).delivery =
      some { resp := .ok, out := out, idx := idx } := rfl
@[simp] theorem State.respondOk_resetIn (out : List Byte) (idx : Option Half) : (s.respondOk out idx).resetIn =
      s.resetIn := rfl

/-! ### raise -/

@[simp] theorem State.raise_cfg (e : Err) (sub : BitVec 2) : (s.raise e sub).cfg = s.cfg := rfl
@[simp] theorem State.raise_ksg (e : Err) (sub : BitVec 2) : (s.raise e sub).ksg = s.ksg := rfl
@[simp] theorem State.raise_par (e : Err) (sub : BitVec 2) : (s.raise e sub).par = s.par := rfl
@[simp] theorem State.raise_store (e : Err) (sub : BitVec 2) : (s.raise e sub).store = s.store := rfl
@[simp] theorem State.raise_phase (e : Err) (sub : BitVec 2) : (s.raise e sub).phase = .idle := rfl
@[simp] theorem State.raise_status (e : Err) (sub : BitVec 2) : (s.raise e sub).status =
      { busy := false, err := .error e, errPhase := s.phase, errSub := sub, errEidx := s.errIndices.1, errBidx := s.errIndices.2 } := rfl
@[simp] theorem State.raise_ports (e : Err) (sub : BitVec 2) : (s.raise e sub).ports = Ports.empty := rfl
@[simp] theorem State.raise_waiting (e : Err) (sub : BitVec 2) : (s.raise e sub).waiting = s.waiting := rfl
@[simp] theorem State.raise_delivery (e : Err) (sub : BitVec 2) : (s.raise e sub).delivery =
      some { resp := .error e, out := [], idx := none } := rfl
@[simp] theorem State.raise_resetIn (e : Err) (sub : BitVec 2) : (s.raise e sub).resetIn = s.resetIn := rfl

/-! ### setProbe -/

@[simp] theorem State.setProbe_cfg (q : List Byte) : (s.setProbe q).cfg = s.cfg := rfl
@[simp] theorem State.setProbe_ksg (q : List Byte) : (s.setProbe q).ksg = s.ksg := rfl
@[simp] theorem State.setProbe_par (q : List Byte) : (s.setProbe q).par =
      { s.par with probe := q ++ s.par.probe.drop q.length } := rfl
@[simp] theorem State.setProbe_store (q : List Byte) : (s.setProbe q).store = s.store := rfl
@[simp] theorem State.setProbe_phase (q : List Byte) : (s.setProbe q).phase = s.phase := rfl
@[simp] theorem State.setProbe_status (q : List Byte) : (s.setProbe q).status = s.status := rfl
@[simp] theorem State.setProbe_ports (q : List Byte) : (s.setProbe q).ports = s.ports := rfl
@[simp] theorem State.setProbe_waiting (q : List Byte) : (s.setProbe q).waiting = s.waiting := rfl
@[simp] theorem State.setProbe_delivery (q : List Byte) : (s.setProbe q).delivery = s.delivery := rfl
@[simp] theorem State.setProbe_resetIn (q : List Byte) : (s.setProbe q).resetIn = s.resetIn := rfl

/-! ### modifyEntry -/

@[simp] theorem State.modifyEntry_cfg (i : Nat) (f : Entry → Entry) : (s.modifyEntry i f).cfg = s.cfg := rfl
@[simp] theorem State.modifyEntry_ksg (i : Nat) (f : Entry → Entry) : (s.modifyEntry i f).ksg = s.ksg := rfl
@[simp] theorem State.modifyEntry_par (i : Nat) (f : Entry → Entry) : (s.modifyEntry i f).par = s.par := rfl
@[simp] theorem State.modifyEntry_store (i : Nat) (f : Entry → Entry) : (s.modifyEntry i f).store =
      { s.store with ent := s.store.ent.modify i f } := rfl
@[simp] theorem State.modifyEntry_phase (i : Nat) (f : Entry → Entry) : (s.modifyEntry i f).phase =
      s.phase := rfl
@[simp] theorem State.modifyEntry_status (i : Nat) (f : Entry → Entry) : (s.modifyEntry i f).status =
      s.status := rfl
@[simp] theorem State.modifyEntry_ports (i : Nat) (f : Entry → Entry) : (s.modifyEntry i f).ports =
      s.ports := rfl
@[simp] theorem State.modifyEntry_waiting (i : Nat) (f : Entry → Entry) : (s.modifyEntry i f).waiting =
      s.waiting := rfl
@[simp] theorem State.modifyEntry_delivery (i : Nat) (f : Entry → Entry) : (s.modifyEntry i f).delivery =
      s.delivery := rfl
@[simp] theorem State.modifyEntry_resetIn (i : Nat) (f : Entry → Entry) : (s.modifyEntry i f).resetIn =
      s.resetIn := rfl

/-! ### commitEntry -/

@[simp] theorem State.commitEntry_cfg (name : List Byte) (blkoff : Word) : (s.commitEntry name blkoff).cfg =
      s.cfg := rfl
@[simp] theorem State.commitEntry_ksg (name : List Byte) (blkoff : Word) : (s.commitEntry name blkoff).ksg =
      s.ksg := rfl
@[simp] theorem State.commitEntry_par (name : List Byte) (blkoff : Word) : (s.commitEntry name blkoff).par =
      { s.par with cur := s.par.cur + 20 } := rfl
@[simp] theorem State.commitEntry_store (name : List Byte) (blkoff : Word) : (s.commitEntry name blkoff).store =
      { s.store with ecnt := s.store.ecnt + 1, ent := s.store.ent ++ [freshEntry name blkoff] } := rfl
@[simp] theorem State.commitEntry_phase (name : List Byte) (blkoff : Word) : (s.commitEntry name blkoff).phase =
      s.phase := rfl
@[simp] theorem State.commitEntry_status (name : List Byte) (blkoff : Word) : (s.commitEntry name blkoff).status =
      s.status := rfl
@[simp] theorem State.commitEntry_ports (name : List Byte) (blkoff : Word) : (s.commitEntry name blkoff).ports =
      s.ports := rfl
@[simp] theorem State.commitEntry_waiting (name : List Byte) (blkoff : Word) : (s.commitEntry name blkoff).waiting =
      s.waiting := rfl
@[simp] theorem State.commitEntry_delivery (name : List Byte) (blkoff : Word) : (s.commitEntry name blkoff).delivery =
      s.delivery := rfl
@[simp] theorem State.commitEntry_resetIn (name : List Byte) (blkoff : Word) : (s.commitEntry name blkoff).resetIn =
      s.resetIn := rfl

/-! ### commitBlock -/

@[simp] theorem State.commitBlock_cfg (size : Half) (dataoff : Word) : (s.commitBlock size dataoff).cfg =
      s.cfg := rfl
@[simp] theorem State.commitBlock_ksg (size : Half) (dataoff : Word) : (s.commitBlock size dataoff).ksg =
      s.ksg := rfl
@[simp] theorem State.commitBlock_par (size : Half) (dataoff : Word) : (s.commitBlock size dataoff).par =
      { s.par with bcnt := s.par.bcnt + 1, cur := s.par.cur + 6 } := rfl
@[simp] theorem State.commitBlock_store (size : Half) (dataoff : Word) : (s.commitBlock size dataoff).store =
      { s.store with ent := s.store.ent.modify s.par.eidx.toNat fun e => e.addBlock ⟨size, dataoff⟩ (s.par.bcnt + 1) } := rfl
@[simp] theorem State.commitBlock_phase (size : Half) (dataoff : Word) : (s.commitBlock size dataoff).phase =
      s.phase := rfl
@[simp] theorem State.commitBlock_status (size : Half) (dataoff : Word) : (s.commitBlock size dataoff).status =
      s.status := rfl
@[simp] theorem State.commitBlock_ports (size : Half) (dataoff : Word) : (s.commitBlock size dataoff).ports =
      s.ports := rfl
@[simp] theorem State.commitBlock_waiting (size : Half) (dataoff : Word) : (s.commitBlock size dataoff).waiting =
      s.waiting := rfl
@[simp] theorem State.commitBlock_delivery (size : Half) (dataoff : Word) : (s.commitBlock size dataoff).delivery =
      s.delivery := rfl
@[simp] theorem State.commitBlock_resetIn (size : Half) (dataoff : Word) : (s.commitBlock size dataoff).resetIn =
      s.resetIn := rfl

/-! ### startEntry -/

@[simp] theorem State.startEntry_cfg (i : Half) : (s.startEntry i).cfg = s.cfg := rfl
@[simp] theorem State.startEntry_ksg (i : Half) : (s.startEntry i).ksg = s.ksg := rfl
@[simp] theorem State.startEntry_par (i : Half) : (s.startEntry i).par =
      { s.par with eidx := i, bcnt := 0, cur := (s.entryAt i.toNat).blkoff.setWidth 33 } := rfl
@[simp] theorem State.startEntry_store (i : Half) : (s.startEntry i).store = s.store := rfl
@[simp] theorem State.startEntry_phase (i : Half) : (s.startEntry i).phase = .blklist := rfl
@[simp] theorem State.startEntry_status (i : Half) : (s.startEntry i).status = s.status := rfl
@[simp] theorem State.startEntry_ports (i : Half) : (s.startEntry i).ports = s.ports := rfl
@[simp] theorem State.startEntry_waiting (i : Half) : (s.startEntry i).waiting = s.waiting := rfl
@[simp] theorem State.startEntry_delivery (i : Half) : (s.startEntry i).delivery = s.delivery := rfl
@[simp] theorem State.startEntry_resetIn (i : Half) : (s.startEntry i).resetIn = s.resetIn := rfl

/-! ### endBlockList -/

@[simp] theorem State.endBlockList_cfg : (s.endBlockList).cfg = s.cfg := rfl
@[simp] theorem State.endBlockList_ksg : (s.endBlockList).ksg = s.ksg := rfl
@[simp] theorem State.endBlockList_par : (s.endBlockList).par =
      { s.par with cbuf := [], tlen := 0, didx := 0 } := rfl
@[simp] theorem State.endBlockList_store : (s.endBlockList).store = s.store := rfl
@[simp] theorem State.endBlockList_phase : (s.endBlockList).phase = .data := rfl
@[simp] theorem State.endBlockList_status : (s.endBlockList).status = s.status := rfl
@[simp] theorem State.endBlockList_ports : (s.endBlockList).ports = s.ports := rfl
@[simp] theorem State.endBlockList_waiting : (s.endBlockList).waiting = s.waiting := rfl
@[simp] theorem State.endBlockList_delivery : (s.endBlockList).delivery = s.delivery := rfl
@[simp] theorem State.endBlockList_resetIn : (s.endBlockList).resetIn = s.resetIn := rfl

/-! ### appendData -/

@[simp] theorem State.appendData_cfg (q : List Byte) (size : Half) : (s.appendData q size).cfg = s.cfg := rfl
@[simp] theorem State.appendData_ksg (q : List Byte) (size : Half) : (s.appendData q size).ksg = s.ksg := rfl
@[simp] theorem State.appendData_par (q : List Byte) (size : Half) : (s.appendData q size).par =
      { s.par with cbuf := s.par.cbuf ++ q, tlen := s.par.tlen + size.setWidth 32, didx := s.par.didx + 1 } := rfl
@[simp] theorem State.appendData_store (q : List Byte) (size : Half) : (s.appendData q size).store =
      s.store := rfl
@[simp] theorem State.appendData_phase (q : List Byte) (size : Half) : (s.appendData q size).phase =
      s.phase := rfl
@[simp] theorem State.appendData_status (q : List Byte) (size : Half) : (s.appendData q size).status =
      s.status := rfl
@[simp] theorem State.appendData_ports (q : List Byte) (size : Half) : (s.appendData q size).ports =
      s.ports := rfl
@[simp] theorem State.appendData_waiting (q : List Byte) (size : Half) : (s.appendData q size).waiting =
      s.waiting := rfl
@[simp] theorem State.appendData_delivery (q : List Byte) (size : Half) : (s.appendData q size).delivery =
      s.delivery := rfl
@[simp] theorem State.appendData_resetIn (q : List Byte) (size : Half) : (s.appendData q size).resetIn =
      s.resetIn := rfl

/-! ### addReads -/

@[simp] theorem State.addReads_cfg (n : Nat) : (s.addReads n).cfg = s.cfg := rfl
@[simp] theorem State.addReads_ksg (n : Nat) : (s.addReads n).ksg = s.ksg := rfl
@[simp] theorem State.addReads_par (n : Nat) : (s.addReads n).par =
      { s.par with reads := s.par.reads + n } := rfl
@[simp] theorem State.addReads_store (n : Nat) : (s.addReads n).store = s.store := rfl
@[simp] theorem State.addReads_phase (n : Nat) : (s.addReads n).phase = s.phase := rfl
@[simp] theorem State.addReads_status (n : Nat) : (s.addReads n).status = s.status := rfl
@[simp] theorem State.addReads_ports (n : Nat) : (s.addReads n).ports = s.ports := rfl
@[simp] theorem State.addReads_waiting (n : Nat) : (s.addReads n).waiting = s.waiting := rfl
@[simp] theorem State.addReads_delivery (n : Nat) : (s.addReads n).delivery = s.delivery := rfl
@[simp] theorem State.addReads_resetIn (n : Nat) : (s.addReads n).resetIn = s.resetIn := rfl

/-! ### hideWork -/

@[simp] theorem State.hideWork_cfg : (s.hideWork).cfg = s.cfg := rfl
@[simp] theorem State.hideWork_ksg : (s.hideWork).ksg = Ksg.reset := rfl
@[simp] theorem State.hideWork_par : (s.hideWork).par = Parser.reset := rfl
@[simp] theorem State.hideWork_store : (s.hideWork).store = s.store := rfl
@[simp] theorem State.hideWork_phase : (s.hideWork).phase = s.phase := rfl
@[simp] theorem State.hideWork_status : (s.hideWork).status = s.status := rfl
@[simp] theorem State.hideWork_ports : (s.hideWork).ports = s.ports := rfl
@[simp] theorem State.hideWork_waiting : (s.hideWork).waiting = s.waiting := rfl
@[simp] theorem State.hideWork_delivery : (s.hideWork).delivery = s.delivery := rfl
@[simp] theorem State.hideWork_resetIn : (s.hideWork).resetIn = s.resetIn := rfl

/-! ### assertReset -/

@[simp] theorem State.assertReset_cfg : (s.assertReset).cfg = s.cfg := rfl
@[simp] theorem State.assertReset_ksg : (s.assertReset).ksg = s.ksg := rfl
@[simp] theorem State.assertReset_par : (s.assertReset).par = s.par := rfl
@[simp] theorem State.assertReset_store : (s.assertReset).store = s.store := rfl
@[simp] theorem State.assertReset_phase : (s.assertReset).phase = s.phase := rfl
@[simp] theorem State.assertReset_status : (s.assertReset).status = s.status := rfl
@[simp] theorem State.assertReset_ports : (s.assertReset).ports = s.ports := rfl
@[simp] theorem State.assertReset_waiting : (s.assertReset).waiting = s.waiting := rfl
@[simp] theorem State.assertReset_delivery : (s.assertReset).delivery = s.delivery := rfl
@[simp] theorem State.assertReset_resetIn : (s.assertReset).resetIn = true := rfl

/-! ### countRead -/

@[simp] theorem State.countRead_cfg (n : Nat) : (s.countRead n).cfg = s.cfg := by
  unfold State.countRead; split <;> rfl
@[simp] theorem State.countRead_ksg (n : Nat) : (s.countRead n).ksg = s.ksg := by
  unfold State.countRead; split <;> rfl
@[simp] theorem State.countRead_store (n : Nat) : (s.countRead n).store = s.store := by
  unfold State.countRead; split <;> rfl
@[simp] theorem State.countRead_phase (n : Nat) : (s.countRead n).phase = s.phase := by
  unfold State.countRead; split <;> rfl
@[simp] theorem State.countRead_status (n : Nat) : (s.countRead n).status = s.status := by
  unfold State.countRead; split <;> rfl
@[simp] theorem State.countRead_ports (n : Nat) : (s.countRead n).ports = s.ports := by
  unfold State.countRead; split <;> rfl
@[simp] theorem State.countRead_waiting (n : Nat) : (s.countRead n).waiting = s.waiting := by
  unfold State.countRead; split <;> rfl
@[simp] theorem State.countRead_delivery (n : Nat) : (s.countRead n).delivery = s.delivery := by
  unfold State.countRead; split <;> rfl
@[simp] theorem State.countRead_resetIn (n : Nat) : (s.countRead n).resetIn = s.resetIn := by
  unfold State.countRead; split <;> rfl

theorem State.countRead_zero : s.countRead 0 = s := rfl

theorem State.countRead_pos (n : Nat) (h : 0 < n) : s.countRead n = s.addReads 1 := by
  unfold State.countRead State.addReads
  rw [if_neg (by omega)]

/-! ### views -/

@[simp] theorem State.cursor_mk (cur : Cursor) (pr : Parser) :
    ({ s with par := { pr with cur := cur } } : State).cursor = cur.toNat := rfl

theorem State.entryAt_congr (s t : State) (h : s.store.ent = t.store.ent) (i : Nat) :
    s.entryAt i = t.entryAt i := by
  unfold State.entryAt; rw [h]

theorem State.entryAt_of_getElem? (i : Nat) (e : Entry) (h : s.store.ent[i]? = some e) :
    s.entryAt i = e := by
  unfold State.entryAt; rw [h]; rfl

end Sys2Proof.Machine
end

