-- ==== Sys2Proof/Laws/Ops.lean ====
section
/-! SUPPORT. For each shared operation, what it can do, said once. -/

namespace Sys2Proof.Machine

/-- Reading SRC in a command: nothing to read, the bytes with the ordinal counted, or the error raised. -/
theorem State.readSrc_cases (s : State) (addr n : Nat) :
    (n = 0 ∧ s.readSrc addr n = .bytes [] s) ∨
    (0 < n ∧ s.ports.src.avail.holds (s.par.reads + 1) = true ∧ addr + n ≤ s.ports.src.len.val ∧
      s.readSrc addr n = .bytes (s.ports.src.bytes addr n) (s.addReads 1)) ∨
    (0 < n ∧ s.ports.src.avail.holds (s.par.reads + 1) = true ∧ s.ports.src.len.val < addr + n ∧
      s.readSrc addr n = .raised ((s.addReads 1).raise .truncatedError 0)) ∨
    (0 < n ∧ s.ports.src.avail.holds (s.par.reads + 1) = false ∧
      s.readSrc addr n = .raised ((s.addReads 1).raise .sourceUnavailable 0)) := by
  unfold State.readSrc
  rcases memRead_cases s.ports.src (s.par.reads + 1) addr n with
    ⟨h0, h⟩ | ⟨hn, ha, h⟩ | ⟨hn, ha, hl, h⟩ | ⟨hn, ha, hl, h⟩ <;> rw [h]
  · subst h0; exact .inl ⟨rfl, rfl⟩
  · exact .inr (.inr (.inr ⟨hn, ha, by simp [State.countRead_pos s n hn]⟩))
  · exact .inr (.inr (.inl ⟨hn, ha, hl, by simp [State.countRead_pos s n hn]⟩))
  · exact .inr (.inl ⟨hn, ha, hl, by simp [State.countRead_pos s n hn]⟩)

/-- The end of the entry list: entry 0, or completion without one. -/
theorem State.endEntryList_cases (s : State) :
    (0 < s.store.ecnt.toNat ∧ s.endEntryList = s.startEntry 0) ∨
    (s.store.ecnt.toNat = 0 ∧ s.endEntryList = s.respondOk [] none) := by
  unfold State.endEntryList
  by_cases h : 0 < s.store.ecnt.toNat
  · exact .inl ⟨h, if_pos h⟩
  · exact .inr ⟨by omega, if_neg h⟩

/-- After an entry: the next one, or completion. -/
theorem State.nextEntry_cases (s : State) :
    (s.par.eidx.toNat + 1 < s.store.ecnt.toNat ∧ s.nextEntry = s.startEntry (s.par.eidx + 1)) ∨
    (s.store.ecnt.toNat ≤ s.par.eidx.toNat + 1 ∧ s.nextEntry = s.respondOk [] none) := by
  unfold State.nextEntry
  by_cases h : s.par.eidx.toNat + 1 < s.store.ecnt.toNat
  · exact .inl ⟨h, if_pos h⟩
  · exact .inr ⟨by omega, if_neg h⟩

/-- An idle step: acceptance of a waiting command while BUSY is 0, or nothing but the port of the response emptied. -/
theorem State.idleStep_cases (s : State) :
    (∃ p, s.status.busy = false ∧ s.waiting = some p ∧ s.idleStep = s.accept p) ∨
    ((s.status.busy = true ∨ s.waiting = none) ∧ s.idleStep = s.delivered) := by
  unfold State.idleStep
  cases s.status.busy <;> cases s.waiting <;> simp

/-- A step of the data phase: phase DEC after the last block, one more block's bytes, or the read's error. -/
theorem State.gather_cases (s : State) :
    (s.dataBlock = none ∧ s.gather = { s with phase := .dec }) ∨
    (∃ b q s', s.dataBlock = some b ∧ s.readSrc b.dataoff.toNat b.size.toNat = .bytes q s' ∧
      s.gather = s'.appendData q b.size) ∨
    (∃ b s', s.dataBlock = some b ∧ s.readSrc b.dataoff.toNat b.size.toNat = .raised s' ∧ s.gather = s') := by
  unfold State.gather
  cases hb : s.dataBlock with
  | none => exact .inl ⟨rfl, rfl⟩
  | some b =>
    cases hr : s.readSrc b.dataoff.toNat b.size.toNat with
    | bytes q s' => exact .inr (.inl ⟨b, q, s', rfl, hr, by simp only [hr]⟩)
    | raised s' => exact .inr (.inr ⟨b, s', rfl, hr, by simp only [hr]⟩)

/-- The state with a probe in PROBE and `k` more reads counted: what a fetch of a record leaves. -/
def State.probed (s : State) (p : List Byte) (k : Nat) : State :=
  { s with par := { s.par with probe := p ++ s.par.probe.drop p.length, reads := s.par.reads + k } }

@[simp] theorem State.setProbe_addReads (s : State) (p : List Byte) (k : Nat) :
    (s.setProbe p).addReads k = s.probed p k := rfl
@[simp] theorem State.addReads_setProbe (s : State) (p : List Byte) (k : Nat) :
    (s.addReads k).setProbe p = s.probed p k := rfl
@[simp] theorem State.probed_addReads (s : State) (p : List Byte) (k j : Nat) :
    (s.probed p k).addReads j = s.probed p (k + j) := by
  simp [State.addReads, State.probed, Nat.add_assoc]
@[simp] theorem State.addReads_addReads (s : State) (k j : Nat) :
    (s.addReads k).addReads j = s.addReads (k + j) := by
  simp [State.addReads, Nat.add_assoc]

@[simp] theorem State.probed_cfg (s : State) (p : List Byte) (k : Nat) : (s.probed p k).cfg = s.cfg := rfl
@[simp] theorem State.probed_ksg (s : State) (p : List Byte) (k : Nat) : (s.probed p k).ksg = s.ksg := rfl
@[simp] theorem State.probed_par (s : State) (p : List Byte) (k : Nat) :
    (s.probed p k).par =
      { s.par with probe := p ++ s.par.probe.drop p.length, reads := s.par.reads + k } := rfl
@[simp] theorem State.probed_store (s : State) (p : List Byte) (k : Nat) : (s.probed p k).store = s.store := rfl
@[simp] theorem State.probed_phase (s : State) (p : List Byte) (k : Nat) : (s.probed p k).phase = s.phase := rfl
@[simp] theorem State.probed_status (s : State) (p : List Byte) (k : Nat) : (s.probed p k).status = s.status := rfl
@[simp] theorem State.probed_ports (s : State) (p : List Byte) (k : Nat) : (s.probed p k).ports = s.ports := rfl
@[simp] theorem State.probed_waiting (s : State) (p : List Byte) (k : Nat) :
    (s.probed p k).waiting = s.waiting := rfl
@[simp] theorem State.probed_delivery (s : State) (p : List Byte) (k : Nat) :
    (s.probed p k).delivery = s.delivery := rfl
@[simp] theorem State.probed_resetIn (s : State) (p : List Byte) (k : Nat) :
    (s.probed p k).resetIn = s.resetIn := rfl

/-- The errors a read can raise. -/
def ReadErr (e : Err) : Prop :=
  e = .truncatedError ∨ e = .sourceUnavailable

/-- A read of at least one byte: its bytes, or an error raised with one more read counted. -/
theorem State.readSrc_pos (s : State) (addr n : Nat) (hn : 0 < n) :
    (addr + n ≤ s.ports.src.len.val ∧
      s.readSrc addr n = .bytes (s.ports.src.bytes addr n) (s.addReads 1)) ∨
    ∃ e, ReadErr e ∧ s.readSrc addr n = .raised ((s.addReads 1).raise e 0) := by
  rcases s.readSrc_cases addr n with ⟨h0, -⟩ | ⟨-, -, hl, h⟩ | ⟨-, -, -, h⟩ | ⟨-, -, h⟩
  · omega
  · exact .inl ⟨hl, h⟩
  · exact .inr ⟨_, .inl rfl, h⟩
  · exact .inr ⟨_, .inr rfl, h⟩

/-! ## Entries and blocks -/

/-- Changing one entry leaves the others. -/
theorem State.getElem?_modifyEntry (s : State) (i j : Nat) (f : Entry → Entry) :
    (s.modifyEntry i f).store.ent[j]? = if j = i then (s.store.ent[j]?).map f else s.store.ent[j]? := by
  simp only [State.modifyEntry_store, List.getElem?_modify]
  by_cases h : i = j
  · subst h; simp
  · simp [h, Ne.symm h]

@[simp] theorem blocksSize_nil : blocksSize [] = 0 := rfl

theorem blocksSize_append (bs bs' : List Block) : blocksSize (bs ++ bs') = blocksSize bs + blocksSize bs' := by
  simp [blocksSize]

/-- One more block adds its size. -/
theorem blocksSize_take_succ (bs : List Block) (n : Nat) (b : Block) (h : bs[n]? = some b) :
    blocksSize (bs.take (n + 1)) = blocksSize (bs.take n) + b.size.toNat := by
  rw [List.take_add_one, h, blocksSize_append]; rfl

/-- Why TLEN never overflows (R29, R148). -/
theorem blocksSize_le (bs : List Block) : blocksSize bs ≤ 65535 * bs.length := by
  induction bs with
  | nil => rfl
  | cons b bs ih =>
    have hb := b.size.isLt
    have hc : blocksSize (b :: bs) = b.size.toNat + blocksSize bs := rfl
    rw [hc, List.length_cons]; omega

end Sys2Proof.Machine
end

