-- ==== Sys2Proof/Laws/Fetch.lean ====
section
/-! SUPPORT. What a fetch can be in each phase, and what a step can be: inversion lemmas that later proofs cite
instead of unfolding the fetches. -/

namespace Sys2Proof.Machine

/-- A step is an instruction's meaning on the state after its fetch, or a quiet step. -/
theorem step_cases (s t : State) (h : step s = .next t) :
    s.fetch = .quiet t ∨ ∃ i s', s.fetch = .run i s' ∧ exec i s' = .next t := by
  unfold step at h
  cases hf : s.fetch with
  | run i s' => rw [hf] at h; exact .inr ⟨i, s', rfl, h⟩
  | quiet s' => rw [hf] at h; cases h; exact .inl rfl

theorem step_of_run (s s' : State) (i : Instr) (h : s.fetch = .run i s') : step s = exec i s' := by
  unfold step; rw [h]

theorem step_of_quiet (s s' : State) (h : s.fetch = .quiet s') : step s = .next s' := by
  unfold step; rw [h]

/-! ## The fetch by phase -/

theorem State.fetch_reset (s : State) (h : s.resetIn = true) : s.fetch = .quiet s.applyReset := by
  unfold State.fetch; rw [if_pos h]

theorem State.fetch_idle (s : State) (h : s.resetIn = false) (hp : s.phase = .idle) :
    s.fetch = .quiet s.idleStep := by
  unfold State.fetch; simp [h, hp]

theorem State.fetch_cmd (s : State) (h : s.resetIn = false) (hp : s.phase = .cmd) :
    s.fetch = .run (decodeCommand s.ports.cmd) s := by
  unfold State.fetch; simp [h, hp]

theorem State.fetch_hdr (s : State) (h : s.resetIn = false) (hp : s.phase = .hdr) :
    s.fetch = s.fetchHeader := by
  unfold State.fetch; simp [h, hp]

theorem State.fetch_entlist (s : State) (h : s.resetIn = false) (hp : s.phase = .entlist) :
    s.fetch = s.fetchEntry := by
  unfold State.fetch; simp [h, hp]

theorem State.fetch_blklist (s : State) (h : s.resetIn = false) (hp : s.phase = .blklist) :
    s.fetch = s.fetchBlock := by
  unfold State.fetch; simp [h, hp]

theorem State.fetch_data (s : State) (h : s.resetIn = false) (hp : s.phase = .data) :
    s.fetch = .quiet s.gather := by
  unfold State.fetch; simp [h, hp]

theorem State.fetch_dec (s : State) (h : s.resetIn = false) (hp : s.phase = .dec) :
    s.fetch = .quiet s.decipher := by
  unfold State.fetch; simp [h, hp]

/-! ## Inversions -/

/-- Phase HDR: a read's error with one or two reads made, a bad magic, or the header. -/
theorem State.fetchHeader_cases (s : State) :
    (∃ e k, ReadErr e ∧ (k = 1 ∨ k = 2) ∧ s.fetchHeader = .quiet ((s.addReads k).raise e 0)) ∨
    (6 ≤ s.ports.src.len.val ∧ s.ports.src.bytes 0 6 ≠ Config.magic ∧
      s.fetchHeader = .quiet ((s.addReads 1).raise .formatError 0)) ∨
    (10 ≤ s.ports.src.len.val ∧ s.ports.src.bytes 0 6 = Config.magic ∧
      s.fetchHeader = .run (.hdr (le32 (s.ports.src.bytes 6 4))) (s.addReads 2)) := by
  unfold State.fetchHeader
  rcases s.readSrc_pos 0 6 (by omega) with ⟨hl, h⟩ | ⟨e, he, h⟩ <;> rw [h]
  · by_cases hm : s.ports.src.bytes 0 6 = Config.magic
    · simp only [hm, ne_eq, not_true_eq_false, if_false]
      rcases (s.addReads 1).readSrc_pos 6 4 (by omega) with ⟨hl', h'⟩ | ⟨e, he, h'⟩ <;> rw [h']
      · refine .inr (.inr ⟨by simpa using hl', trivial, ?_⟩)
        simp only [decodeHeaderRecord, State.addReads_ports, State.addReads_addReads]
        rw [List.drop_append_of_le_length (by simp [Config.magic])]
        simp [Config.magic]
      · exact .inl ⟨e, 2, he, .inr rfl, by simp⟩
    · exact .inr (.inl ⟨by omega, hm, by simp [hm]⟩)
  · exact .inl ⟨e, 1, he, .inl rfl, rfl⟩

/-- A probe of four bytes or more is the sentinel exactly when the four bytes at its offset are (R82, R88). -/
theorem isSentinel_bytes (src : Source) (a n : Nat) (h : 4 ≤ n) :
    isSentinel (src.bytes a n) = true ↔ src.bytes a 4 = [0xFF, 0xFF, 0xFF, 0xFF] := by
  rw [isSentinel_iff _ (by simpa using h)]
  simp only [Source.bytes, Memory.take_readBytes src.mem a n 4 h]

/-- The bytes of an entry, gathered by three reads, decode as one record (R137). -/
theorem decodeEntryRecord_reads (m : Memory) (a : Nat) (h : isSentinel (m.readBytes a 4) = false) :
    decodeEntryRecord (m.readBytes a 4 ++ m.readBytes (a + 4) 12 ++ m.readBytes (a + 16) 4) =
      .ent (m.readBytes a 16) (le32 (m.readBytes (a + 16) 4)) := by
  have e1 : m.readBytes a 4 ++ m.readBytes (a + 4) 12 = m.readBytes a 16 := (Memory.readBytes_add m a 4 12).symm
  have e2 : m.readBytes a 16 ++ m.readBytes (a + 16) 4 = m.readBytes a 20 := (Memory.readBytes_add m a 16 4).symm
  have hs : isSentinel (m.readBytes a 20) = false := by
    rw [← isSentinel_take (m.readBytes a 20) 4 (Nat.le_refl 4), Memory.take_readBytes m a 20 4 (by omega)]
    exact h
  rw [e1, e2]
  unfold decodeEntryRecord
  rw [if_neg (by rw [hs]; exact Bool.false_ne_true), Memory.take_readBytes m a 20 16 (by omega),
    Memory.drop_readBytes m a 20 16 (by omega)]

/-- An entry-list position below the cap: an error, with the probe in PROBE from the second read on; the sentinel;
or an entry. -/
theorem State.fetchEntryRecord_cases (s : State) :
    (∃ e, ReadErr e ∧ s.fetchEntryRecord = .quiet ((s.addReads 1).raise e 0)) ∨
    (s.cursor + 4 ≤ s.ports.src.len.val ∧ isSentinel (s.ports.src.bytes s.cursor 4) = true ∧
      s.fetchEntryRecord = .run .entEnd (s.probed (s.ports.src.bytes s.cursor 4) 1)) ∨
    (∃ e k, ReadErr e ∧ (k = 2 ∨ k = 3) ∧ s.cursor + 4 ≤ s.ports.src.len.val ∧
      isSentinel (s.ports.src.bytes s.cursor 4) = false ∧
      s.fetchEntryRecord = .quiet ((s.probed (s.ports.src.bytes s.cursor 4) k).raise e 0)) ∨
    (s.cursor + 20 ≤ s.ports.src.len.val ∧ isSentinel (s.ports.src.bytes s.cursor 4) = false ∧
      s.fetchEntryRecord =
        .run (.ent (s.ports.src.bytes s.cursor 16) (le32 (s.ports.src.bytes (s.cursor + 16) 4)))
          (s.probed (s.ports.src.bytes s.cursor 4) 3)) := by
  unfold State.fetchEntryRecord
  rcases s.readSrc_pos s.cursor 4 (by omega) with ⟨hl, h⟩ | ⟨e, he, h⟩ <;> rw [h]
  · cases hs : isSentinel (s.ports.src.bytes s.cursor 4)
    · simp only [State.addReads_setProbe]
      rw [if_neg (by rw [hs]; exact Bool.false_ne_true)]
      rcases (s.probed (s.ports.src.bytes s.cursor 4) 1).readSrc_pos (s.cursor + 4) 12 (by omega) with
        ⟨hl', h'⟩ | ⟨e, he, h'⟩ <;> rw [h']
      · simp only [State.probed_addReads]
        rcases (s.probed (s.ports.src.bytes s.cursor 4) 2).readSrc_pos (s.cursor + 16) 4 (by omega) with
          ⟨hl'', h''⟩ | ⟨e, he, h''⟩ <;> rw [h'']
        · refine .inr (.inr (.inr ⟨by simpa using hl'', trivial, ?_⟩))
          simp only [State.probed_ports, State.probed_addReads]
          exact congrArg (Fetched.run · _) (decodeEntryRecord_reads s.ports.src.mem s.cursor hs)
        · exact .inr (.inr (.inl ⟨e, 3, he, .inr rfl, hl, trivial, by simp⟩))
      · exact .inr (.inr (.inl ⟨e, 2, he, .inl rfl, hl, trivial, by simp⟩))
    · exact .inr (.inl ⟨hl, rfl, by simp [decodeEntryRecord, hs]⟩)
  · exact .inl ⟨e, he, rfl⟩

/-- The entry cap in strict mode: an error, the sentinel, or FormatError. -/
theorem State.fetchEntryAtCap_cases (s : State) :
    (∃ e, ReadErr e ∧ s.fetchEntryAtCap = .quiet ((s.addReads 1).raise e 0)) ∨
    (s.cursor + 4 ≤ s.ports.src.len.val ∧ isSentinel (s.ports.src.bytes s.cursor 4) = true ∧
      s.fetchEntryAtCap = .run .entEnd (s.probed (s.ports.src.bytes s.cursor 4) 1)) ∨
    (s.cursor + 4 ≤ s.ports.src.len.val ∧ isSentinel (s.ports.src.bytes s.cursor 4) = false ∧
      s.fetchEntryAtCap = .quiet ((s.probed (s.ports.src.bytes s.cursor 4) 1).raise .formatError 1)) := by
  unfold State.fetchEntryAtCap
  rcases s.readSrc_pos s.cursor 4 (by omega) with ⟨hl, h⟩ | ⟨e, he, h⟩ <;> rw [h]
  · cases hs : isSentinel (s.ports.src.bytes s.cursor 4)
    · exact .inr (.inr ⟨hl, rfl, by simp [hs]⟩)
    · exact .inr (.inl ⟨hl, rfl, by simp [decodeEntryRecord, hs]⟩)
  · exact .inl ⟨e, he, rfl⟩

/-- A block-list position below the cap: an error, the sentinel with its two ignored bytes, or a block record. -/
theorem State.fetchBlockRecord_cases (s : State) :
    (∃ e, ReadErr e ∧ s.fetchBlockRecord = .quiet ((s.addReads 1).raise e 0)) ∨
    (s.cursor + 6 ≤ s.ports.src.len.val ∧ isSentinel (s.ports.src.bytes s.cursor 6) = true ∧
      s.fetchBlockRecord =
        .run (.blkEnd (le16 ((s.ports.src.bytes s.cursor 6).drop 4)))
          (s.probed (s.ports.src.bytes s.cursor 6) 1)) ∨
    (s.cursor + 6 ≤ s.ports.src.len.val ∧ isSentinel (s.ports.src.bytes s.cursor 6) = false ∧
      s.fetchBlockRecord =
        .run (.blk (le16 (s.ports.src.bytes s.cursor 6)) (le32 ((s.ports.src.bytes s.cursor 6).drop 2)))
          (s.probed (s.ports.src.bytes s.cursor 6) 1)) := by
  unfold State.fetchBlockRecord
  rcases s.readSrc_pos s.cursor 6 (by omega) with ⟨hl, h⟩ | ⟨e, he, h⟩ <;> rw [h]
  · cases hs : isSentinel (s.ports.src.bytes s.cursor 6)
    · exact .inr (.inr ⟨hl, rfl, by simp [decodeBlockRecord, hs]⟩)
    · exact .inr (.inl ⟨hl, rfl, by simp [decodeBlockRecord, hs]⟩)
  · exact .inl ⟨e, he, rfl⟩

/-- The block cap in strict mode: an error, the sentinel, or FormatError. -/
theorem State.fetchBlockAtCap_cases (s : State) :
    (∃ e, ReadErr e ∧ s.fetchBlockAtCap = .quiet ((s.addReads 1).raise e 0)) ∨
    (s.cursor + 6 ≤ s.ports.src.len.val ∧ isSentinel (s.ports.src.bytes s.cursor 6) = true ∧
      s.fetchBlockAtCap =
        .run (.blkEnd (le16 ((s.ports.src.bytes s.cursor 6).drop 4)))
          (s.probed (s.ports.src.bytes s.cursor 6) 1)) ∨
    (s.cursor + 6 ≤ s.ports.src.len.val ∧ isSentinel (s.ports.src.bytes s.cursor 6) = false ∧
      s.fetchBlockAtCap = .quiet ((s.probed (s.ports.src.bytes s.cursor 6) 1).raise .formatError 2)) := by
  unfold State.fetchBlockAtCap
  rcases s.readSrc_pos s.cursor 6 (by omega) with ⟨hl, h⟩ | ⟨e, he, h⟩ <;> rw [h]
  · cases hs : isSentinel (s.ports.src.bytes s.cursor 6)
    · exact .inr (.inr ⟨hl, rfl, by simp [hs]⟩)
    · exact .inr (.inl ⟨hl, rfl, by simp [decodeBlockRecord, hs]⟩)
  · exact .inl ⟨e, he, rfl⟩

/-- Phase ENTLIST: below the cap, at the cap in strict mode, at the cap in default mode. -/
theorem State.fetchEntry_cases (s : State) :
    (s.store.ecnt.toNat < s.cfg.entryCap.toNat ∧ s.fetchEntry = s.fetchEntryRecord) ∨
    (s.cfg.entryCap.toNat ≤ s.store.ecnt.toNat ∧ s.cfg.strictCap = true ∧
      s.fetchEntry = s.fetchEntryAtCap) ∨
    (s.cfg.entryCap.toNat ≤ s.store.ecnt.toNat ∧ s.cfg.strictCap = false ∧
      s.fetchEntry = .quiet s.endEntryList) := by
  unfold State.fetchEntry
  by_cases h : s.store.ecnt.toNat < s.cfg.entryCap.toNat
  · exact .inl ⟨h, if_pos h⟩
  · rw [if_neg h]
    cases hc : s.cfg.strictCap
    · exact .inr (.inr ⟨by omega, rfl, by simp⟩)
    · exact .inr (.inl ⟨by omega, rfl, by simp⟩)

/-- Phase BLKLIST: below the cap, at the cap in strict mode, at the cap in default mode. -/
theorem State.fetchBlock_cases (s : State) :
    (s.par.bcnt.toNat < s.cfg.blockCap.toNat ∧ s.fetchBlock = s.fetchBlockRecord) ∨
    (s.cfg.blockCap.toNat ≤ s.par.bcnt.toNat ∧ s.cfg.strictCap = true ∧
      s.fetchBlock = s.fetchBlockAtCap) ∨
    (s.cfg.blockCap.toNat ≤ s.par.bcnt.toNat ∧ s.cfg.strictCap = false ∧
      s.fetchBlock = .quiet s.endBlockList) := by
  unfold State.fetchBlock
  by_cases h : s.par.bcnt.toNat < s.cfg.blockCap.toNat
  · exact .inl ⟨h, if_pos h⟩
  · rw [if_neg h]
    cases hc : s.cfg.strictCap
    · exact .inr (.inr ⟨by omega, rfl, by simp⟩)
    · exact .inr (.inl ⟨by omega, rfl, by simp⟩)

end Sys2Proof.Machine
end

