-- ==== Sys2Proof/Laws/Keystream.lean ====
section
/-! SUPPORT. Small lemmas of the keystream unit, the XOR datapath and the operand sequences. -/

namespace Sys2Proof.Machine

@[simp] theorem lfsrStages_zero (s : Word) : lfsrStages 0 s = s := rfl

theorem lfsrStages_succ (n : Nat) (s : Word) : lfsrStages (n + 1) s = lfsrStages n (lfsrStep s) := rfl

/-- Stages run one after another add up. -/
theorem lfsrStages_add (m n : Nat) (s : Word) : lfsrStages (m + n) s = lfsrStages n (lfsrStages m s) := by
  induction m generalizing s with
  | zero => simp
  | succ m ih => rw [Nat.succ_add, lfsrStages_succ, lfsrStages_succ, ih]

@[simp] theorem keystream_zero (s : Word) : keystream 0 s = [] := rfl

theorem keystream_succ (n : Nat) (s : Word) :
    keystream (n + 1) s = (lfsrByte s).setWidth 8 :: keystream n (lfsrByte s) := rfl

theorem KsgRun.stages_add (m n : Nat) (r : KsgRun) :
    KsgRun.stages (m + n) r = KsgRun.stages n (KsgRun.stages m r) := by
  induction m generalizing r with
  | zero => simp [KsgRun.stages]
  | succ m ih => rw [Nat.succ_add]; exact ih r.stage

/-- With no byte still to produce the unit rests. -/
theorem KsgRun.stage_done (r : KsgRun) (h : r.ksg.kcnt = 0) : r.stage = r := by
  unfold KsgRun.stage; rw [if_pos h]

/-- A stage that does not complete a byte. -/
theorem KsgRun.stage_shift (r : KsgRun) (h : r.ksg.kcnt ≠ 0) (hb : r.ksg.bitcnt ≠ 7) :
    r.stage =
      { ksg := { S := lfsrStep r.ksg.S, bitcnt := r.ksg.bitcnt + 1, kcnt := r.ksg.kcnt }, out := r.out } := by
  unfold KsgRun.stage; rw [if_neg h, if_neg hb]

/-- The stage that completes a byte and samples it. -/
theorem KsgRun.stage_sample (r : KsgRun) (h : r.ksg.kcnt ≠ 0) (hb : r.ksg.bitcnt = 7) :
    r.stage =
      { ksg := { S := lfsrStep r.ksg.S, bitcnt := 0, kcnt := r.ksg.kcnt - 1 },
        out := r.out ++ [(lfsrStep r.ksg.S).setWidth 8] } := by
  unfold KsgRun.stage; rw [if_neg h, if_pos hb]

@[simp] theorem xorBytes_nil (b : List Byte) : xorBytes [] b = [] := rfl

@[simp] theorem xorBytes_cons (x y : Byte) (a b : List Byte) :
    xorBytes (x :: a) (y :: b) = (x ^^^ y) :: xorBytes a b := rfl

/-- A sequence handed over whole is the operand, and takes no free value. -/
theorem portBytes_whole (q : List Byte) (n ctr : Nat) (h : q.length = n) : portBytes q n ctr = q := by
  subst h; simp [portBytes, missingBytes]

/-- An operand sequence has the length its port says. -/
theorem length_portBytes (q : List Byte) (n ctr : Nat) : (portBytes q n ctr).length = n := by
  simp [portBytes, missingBytes]; omega

/-- The bytes handed over, as far as the length goes, are the operand's. -/
theorem getElem?_portBytes (q : List Byte) (n ctr i : Nat) (h : i < n) (x : Byte) (hx : q[i]? = some x) :
    (portBytes q n ctr)[i]? = some x := by
  have hi : i < q.length := (List.getElem?_eq_some_iff.mp hx).1
  unfold portBytes
  rw [List.getElem?_append_left (by simp; omega), List.getElem?_take_of_lt h, hx]

end Sys2Proof.Machine
end

