-- ==== Sys2Proof/Laws/PerInstr.lean ====
section
/-! SUPPORT. A family of statements made once per instruction: the encoding has the length the format gives the
instruction. -/

namespace Sys2Proof.Laws.EncodedLength

/-- A well-formed instruction's encoding has `Instr.size` bytes (30_encoding.md R71, R76 to R80, R88). -/
def Statement (i : Instr) : Prop :=
  i.wf = true → (encode i).length = i.size

theorem ksGen : Statement .ksGen := fun _ => rfl

theorem xorApply : Statement .xorApply := fun _ => rfl

theorem kdbDecode : Statement .kdbDecode := fun _ => rfl

theorem kdbFind : Statement .kdbFind := fun _ => rfl

theorem cmdIllegal (op : Byte) : Statement (.cmdIllegal op) := fun _ => rfl

theorem hdr (eloff : Word) : Statement (.hdr eloff) := fun _ => rfl

theorem entEnd : Statement .entEnd := fun _ => rfl

/-- The one kind whose length rests on its being well-formed: a name has 16 bytes. -/
theorem ent (name : List Byte) (blkoff : Word) : Statement (.ent name blkoff) := by
  intro h
  simp only [Instr.wf, nameExpressible, Bool.and_eq_true, beq_iff_eq] at h
  simp [encode, Instr.size, bytesOf32, h.1]

theorem blkEnd (ignored : Half) : Statement (.blkEnd ignored) := fun _ => rfl

theorem blk (size : Half) (dataoff : Word) : Statement (.blk size dataoff) := fun _ => rfl

end Sys2Proof.Laws.EncodedLength
end

