-- ==== Sys2Proof/Tests/Slice0.lean ====
section
/-! SUPPORT. Tests. Expected values come from spec/95_test_vectors.md and the examples of the rules; a witness
theorem shows that the hypotheses of an obligation can be met, at the boundaries of its clauses. -/

namespace Sys2Proof.Tests

open Sys2Proof.Machine

/-! ## Well-formedness (30_encoding.md R73, R77, R85) -/

theorem test_wf_illegal_code_refused : (Instr.cmdIllegal 0x01).wf = false := by decide
theorem test_wf_illegal_code_4_refused : (Instr.cmdIllegal 0x04).wf = false := by decide
theorem test_wf_short_name_refused : (Instr.ent [0x4D, 0x41] 0).wf = false := by decide
theorem test_wf_sentinel_name_refused :
    (Instr.ent ([0xFF, 0xFF, 0xFF, 0xFF] ++ List.replicate 12 0) 0).wf = false := by decide
theorem test_wf_sentinel_block_refused : (Instr.blk 0xFFFF 0x0001FFFF).wf = false := by decide

/-- Hypothesis of EncodingRoundTrip, at the edges of the checks: D7, D14, R73. -/
theorem witness_EncodingRoundTrip :
    (Instr.ent ([0xFF, 0xFF, 0xFF, 0xFE] ++ List.replicate 12 0) 0x10).wf = true ∧
    (Instr.blk 0xFFFF 0x0001FFFE).wf = true ∧ (Instr.blk 0xFFFE 0x0001FFFF).wf = true ∧
    (Instr.cmdIllegal 0x00).wf = true ∧ (Instr.cmdIllegal 0x05).wf = true ∧ (Instr.cmdIllegal 0xFF).wf = true := by
  decide

/-! ## Decoding: words written out from 30_encoding.md R72, R73, R76 to R80 and 95_test_vectors.md section 4 -/

theorem test_decode_ksGen : decode .command [0x01] = .ok (.ksGen, []) := by decide
theorem test_decode_xorApply : decode .command [0x02] = .ok (.xorApply, []) := by decide
theorem test_decode_kdbDecode : decode .command [0x03] = .ok (.kdbDecode, []) := by decide
theorem test_decode_kdbFind : decode .command [0x04] = .ok (.kdbFind, []) := by decide
theorem test_decode_cmdIllegal : decode .command [0x00] = .ok (.cmdIllegal 0x00, []) := by decide
/-- D4. -/
theorem test_decode_hdr :
    decode .header [0x43, 0x54, 0x32, 0x30, 0x31, 0x38, 0xFF, 0xFF, 0xFF, 0xFF] = .ok (.hdr 0xFFFFFFFF, []) := by
  decide
/-- C2 and C5 of section 5: the magic is compared before the offset is missed. -/
theorem test_decode_header_refused :
    decode .header [0x4B, 0x54, 0x32, 0x30, 0x31, 0x38] = .error .badMagic ∧
    decode .header [0x43, 0x54, 0x32, 0x30, 0x31, 0x38] = .error .tooShort := by decide
/-- D8. -/
theorem test_decode_entEnd :
    decode .entryList [0xFF, 0xFF, 0xFF, 0xFF, 0x41, 0x42] = .ok (.entEnd, [0x41, 0x42]) := by decide
/-- D7. -/
theorem test_decode_ent :
    decode .entryList [0xFF, 0xFF, 0xFF, 0xFE, 0, 0, 0, 0, 0, 0, 0, 0, 0, 0, 0, 0, 0x10, 0, 0, 0] =
      .ok (.ent [0xFF, 0xFF, 0xFF, 0xFE, 0, 0, 0, 0, 0, 0, 0, 0, 0, 0, 0, 0] 0x10, []) := by decide
/-- D13. -/
theorem test_decode_blkEnd : decode .blockList [0xFF, 0xFF, 0xFF, 0xFF, 0x01, 0x00] = .ok (.blkEnd 0x0001, []) := by
  decide
/-- D16. -/
theorem test_decode_blk : decode .blockList [0x00, 0x01, 0x0A, 0, 0, 0] = .ok (.blk 0x0100 0x0A, []) := by decide
/-- Words as spec/opcode_table.json numbers them: a BLK.END with AA BB, and a BLK one bit away from it. -/
theorem test_decodeTableWord :
    decodeTableWord 48 0xBBAAFFFFFFFF = some (.blkEnd 0xBBAA) ∧
    decodeTableWord 48 0x0001FFFEFFFF = some (.blk 0xFFFF 0x0001FFFE) ∧
    decodeTableWord 32 0xFFFFFFFF = some .entEnd ∧ decodeTableWord 8 0x05 = some (.cmdIllegal 0x05) ∧
    decodeTableWord 80 0x0000000A383130325443 = some (.hdr 0x0A) := by decide

/-- R82: the row of lower priority number is chosen, also where it stands second. -/
theorem test_selectRow_priority :
    (selectRow .blockList [0xFF, 0xFF, 0xFF, 0xFF, 0x01, 0x00]).map TableRow.mnemonic = some "BLK.END" ∧
    (selectFrom opcodeTable.reverse .blockList [0xFF, 0xFF, 0xFF, 0xFF, 0x01, 0x00]).map TableRow.mnemonic =
      some "BLK.END" ∧
    (selectRow .blockList [0xFF, 0xFF, 0xFE, 0xFF, 0x01, 0x00]).map TableRow.mnemonic = some "BLK" := by decide

/-! ## The keystream and the XOR (sections 2 and 3) -/

/-- T4, T5, T7, T9. -/
theorem test_lfsrStep :
    lfsrStep 0x80000000 = 0x40000000 ∧ lfsrStep 0xFFFFFFFF = 0xF89ABCDE ∧
    lfsrStep 0x87654321 = 0xC4D7E2B1 ∧ lfsrStep 0x0ECA8643 = 0x80000000 := by decide
/-- R105 and R106. -/
theorem test_keystream :
    keystream 4 0x12345678 = [0xAC, 0x71, 0x9F, 0xBB] ∧ keystream 4 0x00000001 = [0x2C, 0xFA, 0x56, 0xF8] := by
  decide
/-- Section 2.2: state 16 from seed 1. -/
theorem test_ksgUnit :
    (genKeystream 2 1).out = [0x2C, 0xFA] ∧ (genKeystream 2 1).ksg = { S := 0xE18C96FA, bitcnt := 0, kcnt := 0 } := by
  decide
/-- X1. -/
theorem test_xorBytes :
    xorBytes [0x00, 0xFF, 0x55, 0xAA, 0x12] [0xAC, 0x71, 0x9F, 0xBB, 0x55] = [0xAC, 0x8E, 0xCA, 0x11, 0x47] := by
  decide
/-- X12. -/
theorem test_cryptBytes :
    cryptBytes [0x48, 0x45, 0x4C, 0x4C, 0x4F] 0x12345678 = [0xE4, 0x34, 0xD3, 0xF7, 0x1A] := by decide

/-! ## Small states -/

/-- The example seed of section 5. -/
def cfg : Configuration := { Configuration.default with kdbSeed := 0x12345678 }

/-- A state with a command in progress. -/
def busy (c : Configuration) (ph : Phase) (ports : Ports) (par : Parser) (st : Store) : State :=
  { State.reset with
    cfg := c, phase := ph, ports := ports, par := par, store := st,
    status := { Status.reset with busy := true } }

/-- A command just accepted. -/
def cmd (p : Ports) : State := busy cfg .cmd p Parser.reset Store.reset

/-- KDB.DECODE in a phase. -/
def decoding (c : Configuration) (ph : Phase) (src : Source) (par : Parser) (st : Store) : State :=
  busy c ph { Ports.empty with cmd := 0x03, src := src } par st

/-- A source of `n` bytes beginning with `q`. -/
def srcOf (q : List Byte) (n : Nat) : Source := { Source.ofBytes q with len := srcLength n }

/-- Image A (section 5). -/
def imageA : List Byte :=
  [0x43, 0x54, 0x32, 0x30, 0x31, 0x38, 0x0A, 0x00, 0x00, 0x00, 0x4D, 0x41, 0x47, 0x49, 0x43, 0x00,
   0x00, 0x00, 0x00, 0x00, 0x00, 0x00, 0x00, 0x00, 0x00, 0x00, 0x22, 0x00, 0x00, 0x00, 0xFF, 0xFF,
   0xFF, 0xFF, 0x04, 0x00, 0x2E, 0x00, 0x00, 0x00, 0xFF, 0xFF, 0xFF, 0xFF, 0x00, 0x00, 0xE7, 0x35,
   0xDD, 0x9A]

def srcA : Source := Source.ofBytes imageA

def nameA : List Byte := [0x4D, 0x41, 0x47, 0x49, 0x43, 0, 0, 0, 0, 0, 0, 0, 0, 0, 0, 0]

/-- Entry 0 of image A as the entry list commits it, with its block, and resolved. -/
def fresh : Entry := freshEntry nameA 0x22
def blocked : Entry := { fresh with nblk := 1, blks := [⟨4, 0x2E⟩] }
def resolved : Entry := { blocked with payload := [0x4B, 0x44, 0x42, 0x21], plen := 4, resolved := true }
def other : Entry := { fresh with name := [0x46, 0x49, 0x52, 0x53, 0x54, 0, 0, 0, 0, 0, 0, 0, 0, 0, 0, 0] }

def storeOf (es : List Entry) : Store :=
  { hdrv := true, eloff := 0x0A, ecnt := BitVec.ofNat 16 es.length, ent := es }

/-- PAR at a cursor with a number of blocks committed and of reads made. -/
def parAt (cur : Cursor) (bcnt : Half) (reads : Nat) : Parser :=
  { Parser.reset with cur := cur, bcnt := bcnt, reads := reads }

/-- Image A in phase HDR, at its entry, at the end of its list, at its block, at the end of that list, before and
after its data, and deciphering. -/
def aHdr : State := decoding cfg .hdr srcA Parser.reset Store.reset
def aEnt : State := decoding cfg .entlist srcA (parAt 0x0A 0 2) (storeOf [])
def aEntEnd : State := decoding cfg .entlist srcA (parAt 0x1E 0 5) (storeOf [fresh])
def aBlk : State := decoding cfg .blklist srcA (parAt 0x22 0 6) (storeOf [fresh])
def aBlkEnd : State := decoding cfg .blklist srcA (parAt 0x28 1 7) (storeOf [blocked])
def aData : State := decoding cfg .data srcA (parAt 0x28 1 8) (storeOf [blocked])
def gathered : Parser := { parAt 0x28 1 9 with didx := 1, tlen := 4, cbuf := [0xE7, 0x35, 0xDD, 0x9A] }
def aDataEnd : State := decoding cfg .data srcA gathered (storeOf [blocked])
def aDec : State := decoding cfg .dec srcA gathered (storeOf [blocked])
def aDec2 : State := decoding cfg .dec srcA gathered (storeOf [blocked, other])

/-- What holds of the state after `k` steps. -/
def after (k : Nat) (s : State) (f : State → Bool) : Bool :=
  match Host.Core.run core k s with
  | .next t => f t
  | .fault _ => false
  | .refused _ => false

theorem after_spec (k : Nat) (s : State) (f : State → Bool) (h : after k s f = true) :
    ∃ t, Host.Core.run core k s = .next t ∧ f t = true := by
  unfold after at h
  split at h
  · exact ⟨_, ‹_›, h⟩
  · cases h
  · cases h

theorem after_one (s : State) (f : State → Bool) (h : after 1 s f = true) : ∃ t, step s = .next t ∧ f t = true := by
  obtain ⟨t, ht, hf⟩ := after_spec 1 s f h
  refine ⟨t, ?_, hf⟩
  simp only [Host.Core.run] at ht
  cases hs : step s with
  | next u => rw [show core.step s = step s from rfl, hs] at ht; cases ht; rfl
  | fault r => cases r
  | refused r => rw [show core.step s = step s from rfl, hs] at ht; cases ht

/-! ## One step of each instruction -/

/-- R106. -/
theorem test_ksGen :
    after 1 (cmd { Ports.empty with cmd := 0x01, len := 4, seed := 1 })
      (fun t => t.delivery == some { resp := .ok, out := [0x2C, 0xFA, 0x56, 0xF8], idx := none } &&
        t.readCR 8 == some 0 && t.phase == .idle) = true := by decide
/-- R107. -/
theorem test_ksGen_negative :
    after 1 (cmd { Ports.empty with cmd := 0x01, len := 0xFFFFFFFF, seed := 1 })
      (fun t => t.delivery == some { resp := .error .lengthNegative, out := [], idx := none } &&
        t.readCR 8 == some 0x60 && t.readCR 9 == some 6) = true := by decide
/-- X6. -/
theorem test_xorApply :
    after 1 (cmd { Ports.empty with cmd := 0x02, dlen := 4, klen := 4, dataIn := [0x4B, 0x44, 0x42, 0x21],
                                    ksIn := [0xAC, 0x71, 0x9F, 0xBB] })
      (fun t => t.delivery == some { resp := .ok, out := [0xE7, 0x35, 0xDD, 0x9A], idx := none }) = true := by decide
/-- X11: not LengthMismatch. -/
theorem test_xorApply_negative :
    after 1 (cmd { Ports.empty with cmd := 0x02, dlen := 3, klen := 0x80000003, dataIn := [1, 2, 3] })
      (fun t => t.readCR 8 == some 0x60 && t.readCR 9 == some 6) = true := by decide
/-- R131: the store is cleared. -/
theorem test_kdbDecode :
    after 1 (busy cfg .cmd { Ports.empty with cmd := 0x03, src := srcA } (parAt 0x28 1 9) (storeOf [resolved]))
      (fun t => t.phase == .hdr && t.store.hdrv == false && t.store.ecnt == 0 && t.par.reads == 0) = true := by decide
/-- R131: SourceUnavailable at the start test leaves the store. -/
theorem test_kdbDecode_unavailable :
    after 1 (busy cfg .cmd { Ports.empty with cmd := 0x03 } (parAt 0x28 1 9) (storeOf [resolved]))
      (fun t => t.store == storeOf [resolved] && t.readCR 8 == some 0x42 && t.readCR 9 == some 6 &&
        t.readCR 10 == some 0) = true := by decide
/-- Section 5, image A then KDB.FIND, behind an entry that does not match. -/
theorem test_kdbFind :
    after 1 (busy cfg .cmd { Ports.empty with cmd := 0x04 } Parser.reset (storeOf [other, resolved]))
      (fun t => t.delivery == some { resp := .ok, out := [0x4B, 0x44, 0x42, 0x21], idx := some 1 }) = true := by
  decide
/-- R156: the first match decides, though a later one is resolved. -/
theorem test_kdbFind_unresolved :
    after 1 (busy cfg .cmd { Ports.empty with cmd := 0x04 } Parser.reset (storeOf [blocked, resolved]))
      (fun t => t.readCR 8 == some 0x52 && t.delivery == some { resp := .error .noSignatureFound, out := [], idx := none })
      = true := by decide
/-- R177. -/
theorem test_cmdIllegal :
    after 1 (cmd { Ports.empty with cmd := 0xFF }) (fun t => t.readCR 8 == some 0x70 && t.readCR 9 == some 6) = true := by
  decide
/-- D1. -/
theorem test_hdr :
    after 1 aHdr (fun t => t.store.hdrv && t.store.eloff == 0x0A && t.par.cur == 0x0A && t.par.reads == 2 &&
      t.phase == .entlist) = true := by decide
/-- Image C: FormatError, the offset not read. -/
theorem test_hdr_badMagic :
    after 1 (decoding cfg .hdr (srcOf [0x43, 0x54, 0x32, 0x30, 0x31, 0x39, 0x0A] 50) Parser.reset Store.reset)
      (fun t => t.readCR 8 == some 0x10 && t.readCR 9 == some 1 && t.par.reads == 1) = true := by decide
/-- R137, R138: the record at 0x0A of image A. -/
theorem test_ent :
    after 1 aEnt (fun t => t.store.ent == [fresh] && t.store.ecnt == 1 && t.par.cur == 0x1E && t.par.reads == 5) = true := by
  decide
/-- R136: the probe at 0x1E ends the list; entry 0's block list is at 0x22. -/
theorem test_entEnd :
    after 1 aEntEnd (fun t => t.phase == .blklist && t.par.cur == 0x22 && t.store.ecnt == 1 && t.par.reads == 6) = true := by
  decide
/-- R143, R144: the record at 0x22. -/
theorem test_blk :
    after 1 aBlk (fun t => t.store.ent == [blocked] && t.par.bcnt == 1 && t.par.cur == 0x28) = true := by decide
/-- R142: the probe at 0x28 ends the list. -/
theorem test_blkEnd :
    after 1 aBlkEnd (fun t => t.phase == .data && t.store.ent == [blocked] && t.par.tlen == 0) = true := by decide
/-- Phase DATA: the bytes at 0x2E. -/
theorem test_data :
    after 1 aData (fun t => t.par.cbuf == [0xE7, 0x35, 0xDD, 0x9A] && t.par.tlen == 4 && t.par.reads == 9) = true := by
  decide
/-- Phase DEC: "KDB!", and the response. -/
theorem test_dec :
    after 1 aDec (fun t => t.store.ent == [resolved] && t.readCR 8 == some 2 && t.phase == .idle) = true := by decide
/-- Image D: block 1 of entry 1 runs past the end. -/
theorem test_data_truncated :
    after 1
      (decoding cfg .data (srcOf [] 118) { parAt 0x2A 2 19 with eidx := 1, didx := 1, tlen := 3, cbuf := [0xE4, 0x34, 0xD3] }
        (storeOf [resolved, { blocked with nblk := 2, blks := [⟨3, 0x0F⟩, ⟨0x100, 0x0A⟩] }, other]))
      (fun t => t.readCR 8 == some 0x22 && t.readCR 9 == some 4 && t.readCR 10 == some 0x00010001) = true := by decide

/-! ## Witnesses: the hypotheses of the obligations can be met, clause by clause -/

theorem readable (s : State) (h : s.ports.src.avail = Avail.always) : s.Readable := by
  intro k; rw [h]; rfl

theorem witness_DecodedBytesAreTheEncoding :
    decode .blockList [0xFF, 0xFF, 0xFE, 0xFF, 0x01, 0x00, 0x41] = .ok (.blk 0xFFFF 0x0001FFFE, [0x41]) := by decide

theorem witness_StepRunsTheDecodedInstruction_command :
    (cmd { Ports.empty with cmd := 0x04, src := srcA }).resetIn = false ∧
    (cmd { Ports.empty with cmd := 0x04, src := srcA }).Readable ∧
    (cmd { Ports.empty with cmd := 0x04, src := srcA }).phase = .cmd ∧
    decode .command [0x04] = .ok (.kdbFind, []) :=
  ⟨rfl, readable _ rfl, rfl, by decide⟩

theorem witness_StepRunsTheDecodedInstruction_header :
    let s := decoding cfg .hdr (srcOf (imageA.take 11) 11) Parser.reset Store.reset
    s.resetIn = false ∧ s.Readable ∧ s.phase = .hdr ∧
    decode .header (s.ports.src.tail 0) = .ok (.hdr 0x0A, [0x4D]) :=
  ⟨rfl, readable _ rfl, rfl, by decide⟩

theorem witness_StepRunsTheDecodedInstruction_entry :
    aEnt.resetIn = false ∧ aEnt.Readable ∧ aEnt.phase = .entlist ∧
    aEnt.store.ecnt.toNat < aEnt.cfg.entryCap.toNat ∧
    decode .entryList (aEnt.ports.src.tail aEnt.cursor) = .ok (.ent nameA 0x22, imageA.drop 0x1E) :=
  ⟨rfl, readable _ rfl, rfl, by decide, by decide⟩

theorem witness_StepRunsTheDecodedInstruction_entryEnd :
    aEntEnd.Readable ∧ aEntEnd.phase = .entlist ∧ aEntEnd.store.ecnt.toNat < aEntEnd.cfg.entryCap.toNat ∧
    decode .entryList (aEntEnd.ports.src.tail aEntEnd.cursor) = .ok (.entEnd, imageA.drop 0x22) :=
  ⟨readable _ rfl, rfl, by decide, by decide⟩

theorem witness_StepRunsTheDecodedInstruction_block :
    aBlk.resetIn = false ∧ aBlk.Readable ∧ aBlk.phase = .blklist ∧
    aBlk.par.bcnt.toNat < aBlk.cfg.blockCap.toNat ∧
    decode .blockList (aBlk.ports.src.tail aBlk.cursor) = .ok (.blk 4 0x2E, imageA.drop 0x28) :=
  ⟨rfl, readable _ rfl, rfl, by decide, by decide⟩

/-- MemRead at its boundaries: no bytes, unavailable at that ordinal, one byte too far, and up to the last byte. -/
theorem witness_MemReadIsAllOrNothing :
    memRead srcA 1 50 0 = .ok [] ∧
    (({ srcA with avail := ⟨[true, false], true⟩ } : Source).avail.holds 1 = false) ∧
    (srcA.avail.holds 1 = true ∧ srcA.len.val < 47 + 4) ∧
    (srcA.avail.holds 1 = true ∧ 46 + 4 ≤ srcA.len.val) := by decide

theorem witness_ReadErrorsAreRaised :
    (({ srcA with avail := ⟨[true, true, true, false], true⟩ } : Source).avail.holds (aEnt.par.reads + 1) = false) ∧
    (aEnt.ports.src.avail.holds (aEnt.par.reads + 1) = true ∧ aEnt.ports.src.len.val < 47 + 4) ∧
    (aEnt.ports.src.avail.holds (aEnt.par.reads + 1) = true ∧ 46 + 4 ≤ aEnt.ports.src.len.val) := by decide

theorem witness_LfsrStageBitByBit :
    (26 ∈ [26, 25, 24, 22, 21, 18, 16, 14, 9, 8, 5, 0]) ∧ (0 ∈ [26, 25, 24, 22, 21, 18, 16, 14, 9, 8, 5, 0]) ∧
    (30 ≤ 30 ∧ 30 ∉ [26, 25, 24, 22, 21, 18, 16, 14, 9, 8, 5, 0]) ∧
    (1 ≤ 30 ∧ 1 ∉ [26, 25, 24, 22, 21, 18, 16, 14, 9, 8, 5, 0]) := by decide

theorem witness_LfsrZeroAndBijection : (1 : Word) ≠ 0 ∧ (1 : Word) ≠ 2 := by decide

theorem witness_KeystreamSamplesTheState : 3 < 4 ∧ keystream 4 1 = [0x2C, 0xFA, 0x56, 0xF8] := by decide

theorem witness_KeystreamPrefix : 2 ≤ 4 ∧ 4 ≤ 4 ∧ (keystream 4 1).take 2 = [0x2C, 0xFA] := by decide

theorem witness_KsGenDeliversTheKeystream :
    (cmd { Ports.empty with cmd := 0x01, len := 0x7FFFFFFF }).ports.len.getLsbD 31 = false ∧
    (cmd { Ports.empty with cmd := 0x01, len := 0 }).ports.len.getLsbD 31 = false := by decide

theorem witness_KsGenRejectsNegativeLength :
    (cmd { Ports.empty with cmd := 0x01, len := 0x80000000 }).phase = .cmd ∧
    (cmd { Ports.empty with cmd := 0x01, len := 0x80000000 }).ports.len.getLsbD 31 = true := by decide

/-- Two states that differ in S and in the result store. -/
theorem witness_KsGenDependsOnItsOperandsOnly :
    ∃ t t', exec .ksGen (cmd { Ports.empty with len := 4, seed := 1 }) = .next t ∧
      exec .ksGen { cmd { Ports.empty with len := 4, seed := 1 } with
        ksg := { S := 7, bitcnt := 0, kcnt := 0 }, store := storeOf [resolved] } = .next t' :=
  ⟨_, _, rfl, rfl⟩

theorem witness_XorBytesIsElementWise :
    ([0x00, 0xFF] : List Byte).length = ([0xAC, 0x71] : List Byte).length ∧
    ([0x00, 0xFF] : List Byte)[1]? = some 0xFF ∧ ([0xAC, 0x71] : List Byte)[1]? = some 0x71 := by decide

theorem witness_XorIsAnInvolution :
    ([0x4B, 0x44] : List Byte).length = ([0xAC, 0x71] : List Byte).length := by decide

/-- X6, and X2. -/
theorem witness_XorApplyDeliversTheXor :
    let p : Ports := { Ports.empty with cmd := 0x02, dlen := 4, klen := 4, dataIn := [0x4B, 0x44, 0x42, 0x21],
                                        ksIn := [0xAC, 0x71, 0x9F, 0xBB] }
    (p.dlen.getLsbD 31 = false ∧ p.klen = p.dlen ∧ p.dataIn.length = p.dlen.toNat ∧ p.ksIn.length = p.klen.toNat) ∧
    (Ports.empty.dlen.getLsbD 31 = false ∧ Ports.empty.klen = Ports.empty.dlen ∧
      Ports.empty.dataIn.length = Ports.empty.dlen.toNat ∧ Ports.empty.ksIn.length = Ports.empty.klen.toNat) := by
  decide

/-- X10, X11 and X3. -/
theorem witness_XorApplyRejectsBadLengths :
    ((0xFFFFFFFE : Word).getLsbD 31 = true) ∧ ((0x80000003 : Word).getLsbD 31 = true) ∧
    ((3 : Word).getLsbD 31 = false ∧ (2 : Word).getLsbD 31 = false ∧ (3 : Word) ≠ 2) ∧
    (cmd { Ports.empty with cmd := 0x02, dlen := 3, klen := 2 }).phase = .cmd := by decide

theorem witness_XorApplyRunsOnShortSequences :
    let p : Ports := { Ports.empty with cmd := 0x02, dlen := 3, klen := 3, dataIn := [1], ksIn := [1, 2, 3] }
    p.dlen.getLsbD 31 = false ∧ p.klen = p.dlen ∧ 0 < p.dlen.toNat ∧ p.dataIn[0]? = some 1 ∧ p.ksIn[0]? = some 1 := by
  decide

theorem witness_XorCryptIsTwoCommands :
    State.reset.Quiescent ∧ ([0x48, 0x45, 0x4C, 0x4C, 0x4F] : List Byte).length < 2 ^ 31 :=
  ⟨⟨rfl, rfl, rfl, rfl⟩, by decide⟩

theorem witness_KdbDecodeStarts :
    (cmd { Ports.empty with cmd := 0x03, src := srcA }).ports.src.avail.holds 0 = true ∧
    (cmd { Ports.empty with cmd := 0x03 }).phase = .cmd ∧
    (cmd { Ports.empty with cmd := 0x03 }).ports.src.avail.holds 0 = false := by decide

theorem witness_EntEndLeavesTheList :
    aEnt.store.ecnt = 0 ∧ aEntEnd.store.ecnt ≠ 0 ∧ aEntEnd.store.ent[0]? = some fresh := by decide

/-- Phase HDR at its four boundaries. -/
theorem witness_HeaderPhase :
    let s (q : List Byte) (n : Nat) := decoding cfg .hdr (srcOf q n) Parser.reset Store.reset
    (∀ q n, (s q n).resetIn = false ∧ (s q n).phase = .hdr ∧ (s q n).Readable) ∧
    ((s Config.magic 5).ports.src.len.val < 6) ∧
    (6 ≤ (s [0x4B] 6).ports.src.len.val ∧ (s [0x4B] 6).ports.src.bytes 0 6 ≠ Config.magic) ∧
    (6 ≤ (s Config.magic 9).ports.src.len.val ∧ (s Config.magic 9).ports.src.len.val < 10 ∧
      (s Config.magic 9).ports.src.bytes 0 6 = Config.magic) ∧
    (10 ≤ (s Config.magic 10).ports.src.len.val ∧ (s Config.magic 10).ports.src.bytes 0 6 = Config.magic) :=
  ⟨fun _ _ => ⟨rfl, rfl, readable _ rfl⟩, by decide, by decide, by decide, by decide⟩

/-- Phase ENTLIST below the cap at its five boundaries: cursor 10, source of 13, 14, 25, 29 and 30 bytes. -/
theorem witness_EntryListPhase :
    let s (q : List Byte) (n : Nat) :=
      decoding cfg .entlist (srcOf (List.replicate 10 0 ++ q) n) (parAt 10 0 2) (storeOf [])
    let e : List Byte := [0xFF, 0xFF, 0xFF, 0xFF]
    (∀ q n, (s q n).resetIn = false ∧ (s q n).phase = .entlist ∧ (s q n).Readable ∧
      (s q n).store.ecnt.toNat < (s q n).cfg.entryCap.toNat) ∧
    ((s [] 13).ports.src.len.val < (s [] 13).cursor + 4) ∧
    ((s e 14).cursor + 4 ≤ (s e 14).ports.src.len.val ∧ (s e 14).ports.src.bytes (s e 14).cursor 4 = e) ∧
    ((s [0xFF] 25).ports.src.bytes (s [0xFF] 25).cursor 4 ≠ e ∧
      (s [0xFF] 25).cursor + 4 ≤ (s [0xFF] 25).ports.src.len.val ∧
      (s [0xFF] 25).ports.src.len.val < (s [0xFF] 25).cursor + 16) ∧
    ((s [0xFF] 26).cursor + 16 ≤ (s [0xFF] 26).ports.src.len.val ∧
      (s [0xFF] 29).cursor + 16 ≤ (s [0xFF] 29).ports.src.len.val ∧
      (s [0xFF] 29).ports.src.len.val < (s [0xFF] 29).cursor + 20) ∧
    ((s [0xFF] 30).ports.src.bytes (s [0xFF] 30).cursor 4 ≠ e ∧
      (s [0xFF] 30).cursor + 20 ≤ (s [0xFF] 30).ports.src.len.val) :=
  ⟨fun _ _ => ⟨rfl, rfl, readable _ rfl, show (0 : Nat) < 127 by decide⟩, by decide, by decide, by decide, by decide,
    by decide⟩

/-- The entry cap at ECNT = ENTRY_CAP = 1: default mode, and strict mode with the probe past the end, a sentinel, a
further entry. -/
theorem witness_EntryCapReached :
    let c (m : Bool) : Configuration := { cfg with entryCap := 1, strictCap := m }
    let s (m : Bool) (q : List Byte) (n : Nat) :=
      decoding (c m) .entlist (srcOf (List.replicate 30 0 ++ q) n) (parAt 30 0 5) (storeOf [fresh])
    let e : List Byte := [0xFF, 0xFF, 0xFF, 0xFF]
    (∀ m q n, (s m q n).resetIn = false ∧ (s m q n).phase = .entlist ∧
      (s m q n).cfg.entryCap.toNat ≤ (s m q n).store.ecnt.toNat ∧ (s m q n).cfg.strictCap = m ∧ (s m q n).Readable) ∧
    ((s true [] 33).ports.src.len.val < (s true [] 33).cursor + 4) ∧
    ((s true e 34).cursor + 4 ≤ (s true e 34).ports.src.len.val ∧
      (s true e 34).ports.src.bytes (s true e 34).cursor 4 = e) ∧
    ((s true [0xFF] 34).cursor + 4 ≤ (s true [0xFF] 34).ports.src.len.val ∧
      (s true [0xFF] 34).ports.src.bytes (s true [0xFF] 34).cursor 4 ≠ e) :=
  ⟨fun _ _ _ => ⟨rfl, rfl, show (1 : Nat) ≤ 1 by decide, rfl, readable _ rfl⟩, by decide, by decide, by decide⟩

/-- Phase BLKLIST below the cap at its three boundaries: cursor 10, source of 15 and 16 bytes. -/
theorem witness_BlockListPhase :
    let s (q : List Byte) (n : Nat) :=
      decoding cfg .blklist (srcOf (List.replicate 10 0 ++ q) n) (parAt 10 0 6) (storeOf [fresh])
    let e : List Byte := [0xFF, 0xFF, 0xFF, 0xFF]
    (∀ q n, (s q n).resetIn = false ∧ (s q n).phase = .blklist ∧ (s q n).Readable ∧
      (s q n).par.bcnt.toNat < (s q n).cfg.blockCap.toNat) ∧
    ((s e 15).ports.src.len.val < (s e 15).cursor + 6) ∧
    ((s e 16).cursor + 6 ≤ (s e 16).ports.src.len.val ∧ (s e 16).ports.src.bytes (s e 16).cursor 4 = e) ∧
    ((s [4] 16).cursor + 6 ≤ (s [4] 16).ports.src.len.val ∧ (s [4] 16).ports.src.bytes (s [4] 16).cursor 4 ≠ e) :=
  ⟨fun _ _ => ⟨rfl, rfl, readable _ rfl, show (0 : Nat) < 255 by decide⟩, by decide, by decide, by decide⟩

/-- The block cap at BCNT = BLOCK_CAP = 1. -/
theorem witness_BlockCapReached :
    let c (m : Bool) : Configuration := { cfg with blockCap := 1, strictCap := m }
    let s (m : Bool) (q : List Byte) (n : Nat) :=
      decoding (c m) .blklist (srcOf (List.replicate 10 0 ++ q) n) (parAt 10 1 6) (storeOf [blocked])
    let e : List Byte := [0xFF, 0xFF, 0xFF, 0xFF]
    (∀ m q n, (s m q n).resetIn = false ∧ (s m q n).phase = .blklist ∧
      (s m q n).cfg.blockCap.toNat ≤ (s m q n).par.bcnt.toNat ∧ (s m q n).cfg.strictCap = m ∧ (s m q n).Readable) ∧
    ((s true e 15).ports.src.len.val < (s true e 15).cursor + 6) ∧
    ((s true e 16).cursor + 6 ≤ (s true e 16).ports.src.len.val ∧
      (s true e 16).ports.src.bytes (s true e 16).cursor 4 = e) ∧
    ((s true [4] 16).cursor + 6 ≤ (s true [4] 16).ports.src.len.val ∧
      (s true [4] 16).ports.src.bytes (s true [4] 16).cursor 4 ≠ e) :=
  ⟨fun _ _ _ => ⟨rfl, rfl, show (1 : Nat) ≤ 1 by decide, rfl, readable _ rfl⟩, by decide, by decide, by decide⟩

/-! ### States that meet the invariant -/

theorem fresh_inv (c : Configuration) : fresh.Inv c :=
  ⟨by decide, by decide, Nat.zero_le _, by decide, by decide, by decide⟩

theorem blocked_inv (c : Configuration) (h : 1 ≤ c.blockCap.toNat) : blocked.Inv c :=
  ⟨by decide, by decide, h, by decide, by decide, by decide⟩

theorem resolved_inv (c : Configuration) (h : 1 ≤ c.blockCap.toNat) : resolved.Inv c :=
  ⟨by decide, by decide, h, by decide, by decide, by decide⟩

theorem other_inv (c : Configuration) : other.Inv c :=
  ⟨by decide, by decide, Nat.zero_le _, by decide, by decide, by decide⟩

theorem storeOf_inv (c : Configuration) (es : List Entry) (hc : es.length ≤ c.entryCap.toNat)
    (he : ∀ e ∈ es, e.Inv c) : (storeOf es).Inv c := by
  have hl := c.entryCap.isLt
  have hn : (BitVec.ofNat 16 es.length).toNat = es.length := by
    rw [BitVec.toNat_ofNat]; exact Nat.mod_eq_of_lt (by omega)
  exact ⟨hn.symm, by show (BitVec.ofNat 16 es.length).toNat ≤ _; omega, he, fun h => absurd h (by simp [storeOf])⟩

theorem status_inv : ({ Status.reset with busy := true } : Status).Inv :=
  ⟨by decide, by decide, fun e h => by cases h⟩

theorem decoding_inv (c : Configuration) (ph : Phase) (src : Source) (par : Parser) (st : Store) (hs : st.Inv c)
    (hp : ph ≠ .idle) (ht : par.tlen.toNat = par.cbuf.length) (hq : par.probe.length = 6)
    (hc : par.cur.toNat ≤ 2 ^ 32) (hw : src.wf = true) (hg : (decoding c ph src par st).Progress) :
    (decoding c ph src par st).Inv :=
  ⟨hs, status_inv, ⟨fun _ => hp, fun _ => rfl⟩, ht, hq, hc, ⟨rfl, rfl⟩, hw,
    (fun _ h => by cases h), fun h => absurd h hp, fun _ => rfl, hg⟩

theorem aEnt_inv : aEnt.Inv :=
  decoding_inv _ _ _ _ _ (storeOf_inv _ _ (by decide) (by simp)) (by decide) (by decide) (by decide) (by decide)
    (by decide) ⟨rfl, by simp [decoding, busy, storeOf]⟩

theorem atEntry_single (c : Configuration) (ph : Phase) (par : Parser) (e : Entry) (h0 : par.eidx = 0)
    (hr : e.resolved = false) : (decoding c ph srcA par (storeOf [e])).AtEntry := by
  refine ⟨rfl, by show par.eidx.toNat < 1; rw [h0]; decide, fun i e' _ hi => ?_, ?_, fun i e' hi hlt => ?_⟩
  · exact absurd (show i < par.eidx.toNat from hi) (by rw [h0]; simp)
  · show ((([e] : List Entry)[par.eidx.toNat]?).getD _).resolved = false
    rw [h0]; exact hr
  · cases i with
    | zero => exact absurd hlt (Nat.not_lt_zero _)
    | succ i => cases hi

theorem aBlk_inv : aBlk.Inv :=
  decoding_inv _ _ _ _ _ (storeOf_inv _ _ (by decide) (by simp [fresh_inv])) (by decide) (by decide) (by decide)
    (by decide) (by decide) ⟨atEntry_single _ _ _ _ rfl rfl, rfl⟩

theorem aData_inv : aData.Inv :=
  decoding_inv _ _ _ _ _ (storeOf_inv _ _ (by decide) (by simp [blocked_inv, cfg, Configuration.default])) (by decide)
    (by decide) (by decide) (by decide) (by decide) ⟨atEntry_single _ _ _ _ rfl rfl, by decide, by decide⟩

theorem aDataEnd_inv : aDataEnd.Inv :=
  decoding_inv _ _ _ _ _ (storeOf_inv _ _ (by decide) (by simp [blocked_inv, cfg, Configuration.default])) (by decide)
    (by decide) (by decide) (by decide) (by decide) ⟨atEntry_single _ _ _ _ rfl rfl, by decide, by decide⟩

theorem aDec_inv : aDec.Inv :=
  decoding_inv _ _ _ _ _ (storeOf_inv _ _ (by decide) (by simp [blocked_inv, cfg, Configuration.default])) (by decide)
    (by decide) (by decide) (by decide) (by decide) ⟨atEntry_single _ _ _ _ rfl rfl, by decide⟩

/-- Entry 0 is not the last. -/
theorem aDec2_inv : aDec2.Inv := by
  refine decoding_inv _ _ _ _ _ (storeOf_inv _ _ (by decide) ?_) (by decide) (by decide) (by decide) (by decide)
    (by decide) ⟨⟨rfl, by decide, ?_, rfl, ?_⟩, by decide⟩
  · simp [blocked_inv, other_inv, cfg, Configuration.default]
  · intro i e' _ hi; exact absurd hi (Nat.not_lt_zero _)
  · intro i e' hi hlt
    match i, hi, hlt with
    | 1, hi, _ => cases hi; exact ⟨rfl, rfl⟩
    | i + 2, hi, _ => cases hi

theorem witness_EntCommitsAndAdvances :
    aEnt.Inv ∧ aEnt.store.ecnt.toNat < aEnt.cfg.entryCap.toNat ∧ aEnt.cursor + 20 ≤ 2 ^ 32 :=
  ⟨aEnt_inv, by decide, by decide⟩

theorem witness_BlkCommitsAndAdvances :
    aBlk.Inv ∧ aBlk.phase = .blklist ∧ aBlk.store.ent[aBlk.par.eidx.toNat]? = some fresh ∧
    aBlk.par.bcnt.toNat < aBlk.cfg.blockCap.toNat ∧ aBlk.cursor + 6 ≤ 2 ^ 32 :=
  ⟨aBlk_inv, rfl, rfl, by decide, by decide⟩

/-- Image A with its block of another size, or with another source length. -/
def dataAt (src : Source) (z : Half) : State :=
  decoding cfg .data src (parAt 0x28 1 8) (storeOf [{ blocked with blks := [⟨z, 0x2E⟩] }])

theorem dataAt_inv (src : Source) (z : Half) (hw : src.wf = true) : (dataAt src z).Inv := by
  refine decoding_inv _ _ _ _ _ (storeOf_inv _ _ (show (1 : Nat) ≤ 127 by decide) ?_) (by decide) rfl rfl
    (by decide) hw ⟨⟨rfl, (show (0 : Nat) < 1 by decide), ?_, rfl, ?_⟩, (show (0 : Nat) ≤ 1 by decide), rfl⟩
  · intro e he
    rw [List.mem_singleton.mp he]
    refine ⟨(show nameExpressible nameA = true by decide), rfl, (show (1 : Nat) ≤ 255 by decide), ?_,
      (fun h => by cases h), fun _ => ⟨rfl, rfl⟩⟩
    intro b hb
    rw [List.mem_singleton.mp hb]
    simp [blockExpressible]
  · intro i e' _ hi; exact absurd hi (Nat.not_lt_zero _)
  · intro i e' hi hlt
    cases i with
    | zero => exact absurd hlt (Nat.not_lt_zero _)
    | succ i => cases hi

/-- Phase DATA: a block of size 0, data that ends one byte past the end and at the end of SRC, and no block left. -/
theorem witness_DataPhase :
    (∀ n z, (dataAt (srcOf [] n) z).resetIn = false ∧ (dataAt (srcOf [] n) z).phase = .data ∧
      (dataAt (srcOf [] n) z).Readable ∧
      (dataAt (srcOf [] n) z).store.ent[(dataAt (srcOf [] n) z).par.eidx.toNat]? = some { blocked with blks := [⟨z, 0x2E⟩] } ∧
      ([⟨z, 0x2E⟩] : List Block)[(dataAt (srcOf [] n) z).par.didx.toNat]? = some ⟨z, 0x2E⟩) ∧
    (dataAt (srcOf [] 0) 0).Inv ∧
    ((dataAt (srcOf [] 49) 4).Inv ∧ (4 : Half) ≠ 0 ∧ (dataAt (srcOf [] 49) 4).ports.src.len.val < 0x2E + 4) ∧
    ((dataAt (srcOf [] 50) 4).Inv ∧ 0x2E + 4 ≤ (dataAt (srcOf [] 50) 4).ports.src.len.val) ∧
    (aDataEnd.Inv ∧ aDataEnd.resetIn = false ∧ aDataEnd.Readable ∧ aDataEnd.phase = .data ∧
      aDataEnd.store.ent[aDataEnd.par.eidx.toNat]? = some blocked ∧ blocked.blks[aDataEnd.par.didx.toNat]? = none) :=
  ⟨fun _ _ => ⟨rfl, rfl, readable _ rfl, rfl, rfl⟩, dataAt_inv _ _ (by decide),
    ⟨dataAt_inv _ _ (by decide), by decide, by decide⟩, ⟨dataAt_inv _ _ (by decide), by decide⟩,
    ⟨aDataEnd_inv, rfl, readable _ rfl, rfl, rfl, rfl⟩⟩

theorem witness_DecipherPhase :
    (aDec.Inv ∧ aDec.resetIn = false ∧ aDec.phase = .dec ∧ aDec.store.ent[aDec.par.eidx.toNat]? = some blocked ∧
      aDec.par.eidx.toNat + 1 = aDec.store.ecnt.toNat) ∧
    (aDec2.Inv ∧ aDec2.store.ent[aDec2.par.eidx.toNat]? = some blocked ∧
      aDec2.par.eidx.toNat + 1 < aDec2.store.ecnt.toNat ∧ aDec2.store.ent[aDec2.par.eidx.toNat + 1]? = some other) :=
  ⟨⟨aDec_inv, rfl, rfl, rfl, by decide⟩, aDec2_inv, rfl, by decide, rfl⟩

/-- KDB.FIND on a store. -/
def finding (es : List Entry) : State := busy cfg .cmd { Ports.empty with cmd := 0x04 } Parser.reset (storeOf es)

theorem finding_inv (es : List Entry) (hc : es.length ≤ 127) (he : ∀ e ∈ es, e.Inv cfg) : (finding es).Inv :=
  ⟨storeOf_inv cfg es hc he, status_inv, ⟨(fun _ h => by cases h), fun _ => rfl⟩, rfl, rfl, Nat.zero_le _, ⟨rfl, rfl⟩,
    rfl, (fun _ h => by cases h), (fun h => by cases h), (fun _ => rfl), trivial⟩

theorem witness_KdbFindAnswersTheFirstMatch :
    ((finding [other]).Inv ∧ (finding [other]).phase = .cmd ∧ other.name.take 5 ≠ Config.findPrefix) ∧
    ((finding [other, resolved]).Inv ∧ (finding [other, resolved]).store.ent[1]? = some resolved ∧
      resolved.name.take 5 = Config.findPrefix ∧ resolved.resolved = true) ∧
    ((finding [fresh, resolved]).Inv ∧ (finding [fresh, resolved]).store.ent[0]? = some fresh ∧
      fresh.name.take 5 = Config.findPrefix ∧ fresh.resolved = false) :=
  have hr : resolved.Inv cfg := resolved_inv cfg (by decide)
  ⟨⟨finding_inv _ (by decide) (by simp [other_inv]), rfl, by decide⟩,
    ⟨finding_inv _ (by decide) (by simp [other_inv, hr]), rfl, by decide, rfl⟩,
    ⟨finding_inv _ (by decide) (by simp [fresh_inv, hr]), rfl, by decide, rfl⟩⟩

theorem witness_IllegalCodesAreRejected :
    (cmd { Ports.empty with cmd := 0x05 }).resetIn = false ∧ (cmd { Ports.empty with cmd := 0x05 }).phase = .cmd ∧
    (0x05 : Byte) ≠ 0x01 ∧ (0x05 : Byte) ≠ 0x02 ∧ (0x05 : Byte) ≠ 0x03 ∧ (0x05 : Byte) ≠ 0x04 ∧
    (0x00 : Byte) ≠ 0x01 := by decide

theorem witness_RaiseRecordsTheError :
    (cmd Ports.empty).phase = .cmd ∧ aHdr.phase = .hdr ∧ aEnt.phase = .entlist ∧ aBlk.phase = .blklist ∧
    aData.phase = .data := by decide

theorem witness_ConfigurationIsImmutable : ∃ t, step aHdr = .next t :=
  (after_one aHdr (fun _ => true) (by decide)).imp fun _ h => h.1

/-- A step that does not respond, and one that does. -/
theorem witness_SourceIsNeverWritten :
    (∃ t, exec .entEnd aEntEnd = .next t) ∧
    (aHdr.resetIn = false ∧ aHdr.phase ≠ .idle ∧ ∃ t, step aHdr = .next t ∧ (t.phase == .entlist) = true) ∧
    (aDec.resetIn = false ∧ aDec.phase ≠ .idle ∧ ∃ t, step aDec = .next t ∧ (t.phase == .idle) = true) :=
  ⟨⟨_, rfl⟩, ⟨rfl, by decide, after_one _ _ (by decide)⟩, ⟨rfl, by decide, after_one _ _ (by decide)⟩⟩

theorem witness_OtherCommandsLeaveTheStore :
    (∃ t, exec .ksGen (cmd { Ports.empty with len := 4, seed := 1 }) = .next t) ∧
    (∃ t, exec .xorApply (cmd Ports.empty) = .next t) ∧ (∃ t, exec .kdbFind (finding []) = .next t) ∧
    (∃ t, exec (.cmdIllegal 0x05) (finding [resolved]) = .next t) :=
  ⟨⟨_, rfl⟩, ⟨_, rfl⟩, ⟨_, rfl⟩, ⟨_, rfl⟩⟩

/-- KDB.DECODE with a source that can be read and with one that cannot, and the records. -/
theorem witness_RecordFrames :
    (aHdr.ports.src.avail.holds 0 = true ∧ ∃ t, exec .kdbDecode aHdr = .next t) ∧
    ((cmd Ports.empty).ports.src.avail.holds 0 = false ∧ ∃ t, exec .kdbDecode (cmd Ports.empty) = .next t) ∧ (∃ t, exec (.hdr 0x0A) aHdr = .next t) ∧
    (∃ t, exec (.ent nameA 0x22) aEnt = .next t) ∧ (∃ t, exec (.blk 4 0x2E) aBlk = .next t) ∧
    (∃ t, exec (.blkEnd 0) aBlkEnd = .next t) :=
  ⟨⟨rfl, _, rfl⟩, ⟨rfl, _, rfl⟩, ⟨_, rfl⟩, ⟨_, rfl⟩, ⟨_, rfl⟩, ⟨_, rfl⟩⟩

/-- A reset while KDB.DECODE runs and no command waits. -/
theorem witness_ResetAppliesAtAnyTime : aHdr.phase = .hdr ∧ aHdr.waiting = none := ⟨rfl, rfl⟩

theorem witness_ResponsesKeepAndResetDrops :
    (∃ t t', t = aDec.respondOk [] none ∧ t' = aHdr.raise .formatError 0) ∧
    ((aDec.respondOk [] none).resetIn = false ∧ (aDec.respondOk [] none).phase = .idle ∧
      (aDec.respondOk [] none).waiting = none) :=
  ⟨⟨_, _, rfl, rfl⟩, rfl, rfl, rfl⟩

/-- R44: the operands are off the ports in the state a response answers, and what it delivered is gone a step later. -/
theorem test_ports_hold_nothing :
    after 1 aDec (fun t => t.ports == Ports.empty && t.delivery == some { resp := .ok, out := [], idx := none }) = true ∧
    after 2 aDec (fun t => t.ports == Ports.empty && t.delivery == none) = true := by decide

theorem witness_CommandsAfterReset :
    (0 : Word).getLsbD 31 = false ∧ (0x7FFFFFFF : Word).getLsbD 31 = false ∧
    ([0x12, 0x34] : List Byte).length = ([0, 0] : List Byte).length ∧ ([0x12, 0x34] : List Byte).length < 2 ^ 31 := by
  decide

theorem witness_OneCommandAtATime :
    let p := HostCommand.kdbFind.ports
    ((State.reset.present p).resetIn = false ∧ (State.reset.present p).waiting = some p ∧
      (State.reset.present p).phase = .idle ∧ (State.reset.present p).status.busy = false) ∧
    ((aHdr.present p).resetIn = false ∧ (aHdr.present p).waiting = some p ∧ (aHdr.present p).phase ≠ .idle) :=
  ⟨⟨rfl, rfl, rfl, rfl⟩, rfl, rfl, by decide⟩

/-- Image C in phase HDR; the entry cap and the block cap in strict mode with a further record. -/
def cHdr : State := decoding cfg .hdr (srcOf [0x43, 0x54, 0x32, 0x30, 0x31, 0x39] 50) Parser.reset Store.reset
def strict : Configuration := { cfg with entryCap := 1, blockCap := 1, strictCap := true }
def cEnt : State := decoding strict .entlist srcA (parAt 0x0A 0 5) (storeOf [fresh])
def cBlk : State := decoding strict .blklist srcA (parAt 0x22 1 7) (storeOf [blocked])

theorem cHdr_inv : cHdr.Inv :=
  decoding_inv _ _ _ _ _ ⟨rfl, by decide, (fun _ h => by cases h), fun _ => rfl⟩ (by decide) (by decide) (by decide)
    (by decide) (by decide) rfl

theorem cEnt_inv : cEnt.Inv :=
  decoding_inv _ _ _ _ _ (storeOf_inv _ _ (by decide) (by simp [fresh_inv])) (by decide) (by decide) (by decide)
    (by decide) (by decide) ⟨rfl, fun e he => by
      rw [List.mem_singleton.mp (show e ∈ [fresh] from he)]; exact ⟨rfl, rfl⟩⟩

theorem cBlk_inv : cBlk.Inv :=
  have hb : blocked.Inv strict := blocked_inv strict (by decide)
  decoding_inv _ _ _ _ _ (storeOf_inv _ _ (by decide) (by simp [hb])) (by decide) (by decide) (by decide) (by decide)
    (by decide) ⟨atEntry_single _ _ _ _ rfl rfl, rfl⟩

/-- A Bool test of the state a step answers, as the claim it stands for. -/
theorem step_fails (s : State) (e : Err) (h : after 1 s (fun t => t.phase == .idle && t.status.err == .error e) = true) :
    ∃ t, step s = .next t ∧ t.phase = .idle ∧ t.status.err = .error e := by
  obtain ⟨t, ht, hf⟩ := after_one _ _ h
  simp only [Bool.and_eq_true, beq_iff_eq] at hf
  exact ⟨t, ht, hf⟩

theorem witness_ErrorsArePreciseAndKeepTheStore :
    cHdr.resetIn = false ∧ cHdr.phase ≠ .idle ∧
    ∃ t, step cHdr = .next t ∧ t.phase = .idle ∧ t.status.err = .error .formatError :=
  ⟨rfl, by decide, step_fails _ _ (by decide)⟩

theorem witness_FormatErrorCauses :
    (cHdr.Inv ∧ cHdr.resetIn = false ∧ cHdr.phase ≠ .idle ∧ ∃ t, step cHdr = .next t ∧ t.phase = .idle ∧ t.status.err = .error .formatError) ∧
    (cEnt.Inv ∧ cEnt.resetIn = false ∧ cEnt.phase ≠ .idle ∧ ∃ t, step cEnt = .next t ∧ t.phase = .idle ∧ t.status.err = .error .formatError) ∧
    (cBlk.Inv ∧ cBlk.resetIn = false ∧ cBlk.phase ≠ .idle ∧ ∃ t, step cBlk = .next t ∧ t.phase = .idle ∧ t.status.err = .error .formatError) :=
  ⟨⟨cHdr_inv, rfl, by decide, step_fails _ _ (by decide)⟩, ⟨cEnt_inv, rfl, by decide, step_fails _ _ (by decide)⟩,
    ⟨cBlk_inv, rfl, by decide, step_fails _ _ (by decide)⟩⟩

theorem witness_EveryStepKeepsTheInvariant : aDec2.Inv ∧ ∃ t, step aDec2 = .next t :=
  ⟨aDec2_inv, (after_one aDec2 (fun _ => true) (by decide)).imp fun _ h => h.1⟩

theorem witness_ReadsStayBounded : aDec2.Inv ∧ aDec2.ReadsBounded ∧ ∃ t, step aDec2 = .next t :=
  ⟨aDec2_inv, by show (9 : Nat) ≤ _; decide, witness_EveryStepKeepsTheInvariant.2⟩

theorem witness_EveryCommandTerminates : aBlk.Inv ∧ aBlk.resetIn = false ∧ aBlk.phase ≠ .idle :=
  ⟨aBlk_inv, rfl, by decide⟩

theorem aEnt_mirrors : aEnt.MirrorsSource srcA :=
  ⟨(fun _ _ h => by cases h), (fun _ => by decide), (fun h => by cases h)⟩

theorem witness_StoreMirrorsTheSource :
    aEnt.Inv ∧ aEnt.resetIn = false ∧ aEnt.phase ≠ .idle ∧ aEnt.phase ≠ .cmd ∧ aEnt.MirrorsSource aEnt.ports.src ∧
    ∃ t, step aEnt = .next t :=
  ⟨aEnt_inv, rfl, by decide, by decide, aEnt_mirrors, (after_one aEnt (fun _ => true) (by decide)).imp fun _ h => h.1⟩

theorem witness_DecodeOkResolvesEveryEntry :
    aDec.Inv ∧ aDec.resetIn = false ∧ aDec.phase ≠ .idle ∧ aDec.phase ≠ .cmd ∧
    ∃ t, step aDec = .next t ∧ t.phase = .idle ∧ t.status.err = .ok := by
  refine ⟨aDec_inv, rfl, by decide, by decide, ?_⟩
  obtain ⟨t, ht, hf⟩ := after_one aDec (fun t => t.phase == .idle && t.status.err == .ok) (by decide)
  simp only [Bool.and_eq_true, beq_iff_eq] at hf
  exact ⟨t, ht, hf⟩

/-- The shortest whole command: image A with both caps 1. -/
def aCmd : State :=
  busy { cfg with entryCap := 1, blockCap := 1 } .cmd { Ports.empty with cmd := 0x03, src := srcA } Parser.reset Store.reset

theorem witness_DecodeRunsThePseudocode :
    aCmd.resetIn = false ∧ aCmd.phase = .cmd ∧ aCmd.ports.cmd = 0x03 ∧ aCmd.ports.src.avail.holds 0 = true := by
  decide

/-- Image A deciphers to "KDB!". -/
theorem witness_DecodeRestoresThePlaintext :
    aCmd.resetIn = false ∧ aCmd.phase = .cmd ∧ aCmd.ports.cmd = 0x03 ∧ aCmd.ports.src.avail.holds 0 = true ∧
    aCmd.waiting = none ∧
    (∃ t, Host.Core.run core 9 aCmd = .next t ∧ t.phase = .idle ∧ t.status.err = .ok ∧
      t.store.ent[0]? = some resolved) ∧
    blockData aCmd.ports.src resolved.blks =
      xorBytes [0x4B, 0x44, 0x42, 0x21] (keystream ([0x4B, 0x44, 0x42, 0x21] : List Byte).length aCmd.cfg.kdbSeed) := by
  refine ⟨rfl, rfl, rfl, rfl, rfl, ?_, by decide⟩
  obtain ⟨t, ht, hf⟩ := after_spec 9 aCmd
    (fun t => (t.phase == .idle && t.status.err == .ok) && t.store.ent[0]? == some resolved) (by decide)
  simp only [Bool.and_eq_true, beq_iff_eq] at hf
  exact ⟨t, ht, hf.1.1, hf.1.2, hf.2⟩

theorem witness_WorkingRegistersAreUnobservable :
    State.reset.phase = .idle ∧
    State.reset.hideWork =
      ({ State.reset with ksg := { S := 7, bitcnt := 3, kcnt := 9 }, par := parAt 5 6 7 } : State).hideWork :=
  ⟨rfl, rfl⟩

end Sys2Proof.Tests
end

section
/-! O59. Between commands the working registers of KSG and PAR are dead: two states that agree on all the host
can see, and on the registers of PAR that the phase still has to use, stay so under every step. -/

namespace Sys2Proof.Machine

/-! ## The registers a phase has to use -/

/-- Two contents of PAR's registers agree on those that a phase, or one after it in the command, reads before it
writes them. PROBE is in no phase among them, nor is any register between commands (R23, R202). -/
def Parser.AgreesIn (p q : Parser) : Phase → Prop
  | .idle => True
  | .cmd => True
  | .hdr => p.reads = q.reads
  | .entlist => p.reads = q.reads ∧ p.cur = q.cur
  | .blklist => p.reads = q.reads ∧ p.cur = q.cur ∧ p.eidx = q.eidx ∧ p.bcnt = q.bcnt
  | .data => p.reads = q.reads ∧ p.eidx = q.eidx ∧ p.didx = q.didx ∧ p.tlen = q.tlen ∧ p.cbuf = q.cbuf
  | .dec => p.reads = q.reads ∧ p.eidx = q.eidx ∧ p.tlen = q.tlen ∧ p.cbuf = q.cbuf

/-- The phases whose steps read SRC, or have one after them whose steps do. -/
@[simp] def Phase.reading (ph : Phase) : Prop :=
  ph ≠ .idle ∧ ph ≠ .cmd

theorem Parser.AgreesIn.reads {p q : Parser} {ph : Phase} (h : p.AgreesIn q ph) (hr : ph.reading) :
    p.reads = q.reads := by
  cases ph with
  | idle => exact absurd rfl hr.1
  | cmd => exact absurd rfl hr.2
  | hdr => exact h
  | entlist | blklist | data | dec => exact h.1

/-- One more read counted on both sides. -/
theorem Parser.AgreesIn.countRead {p q : Parser} {ph : Phase} (h : p.AgreesIn q ph) :
    Parser.AgreesIn { p with reads := p.reads + 1 } { q with reads := q.reads + 1 } ph := by
  cases ph with
  | idle | cmd => trivial
  | hdr => exact congrArg (· + 1) h
  | entlist | blklist | data | dec => exact ⟨congrArg (· + 1) h.1, h.2⟩

theorem Parser.AgreesIn.setProbe {p q : Parser} {ph : Phase} (h : p.AgreesIn q ph) (x y : List Byte) :
    Parser.AgreesIn { p with probe := x } { q with probe := y } ph := by
  cases ph <;> exact h

/-! ## States with other working registers -/

/-- The state with other contents of the working registers. -/
def State.withWork (s : State) (k : Ksg) (p : Parser) : State :=
  { s with ksg := k, par := p }

/-- Two states that differ in working registers only, and not in those the phase has to use. -/
inductive State.Agrees (s : State) : State → Prop
  | withWork (k : Ksg) (p : Parser) (h : s.par.AgreesIn p s.phase) : s.Agrees (s.withWork k p)

/-- Two outcomes with a next state each, and these agree. -/
def NextAgrees (o o' : Host.Outcome State Fault Refusal) : Prop :=
  ∃ t t', o = .next t ∧ o' = .next t' ∧ t.Agrees t'

theorem State.hideWork_withWork (s : State) (k : Ksg) (p : Parser) : (s.withWork k p).hideWork = s.hideWork := rfl

theorem State.Agrees.hideWork_eq {s t : State} (h : s.Agrees t) : s.hideWork = t.hideWork := by
  obtain ⟨k, p, -⟩ := h
  exact (s.hideWork_withWork k p).symm

theorem State.Agrees.cfg_eq {s t : State} (h : s.Agrees t) : s.cfg = t.cfg := congrArg (·.cfg) h.hideWork_eq
theorem State.Agrees.store_eq {s t : State} (h : s.Agrees t) : s.store = t.store := congrArg (·.store) h.hideWork_eq
theorem State.Agrees.phase_eq {s t : State} (h : s.Agrees t) : s.phase = t.phase := congrArg (·.phase) h.hideWork_eq
theorem State.Agrees.ports_eq {s t : State} (h : s.Agrees t) : s.ports = t.ports := congrArg (·.ports) h.hideWork_eq
theorem State.Agrees.resetIn_eq {s t : State} (h : s.Agrees t) : s.resetIn = t.resetIn :=
  congrArg (·.resetIn) h.hideWork_eq

/-- States that look the same differ in working registers only. -/
theorem State.eq_withWork_of_hideWork_eq {s t : State} (h : s.hideWork = t.hideWork) : t = s.withWork t.ksg t.par := by
  cases s
  cases t
  simpa [State.hideWork, State.withWork, eq_comm] using h

/-- Between commands, and until a command's first step, states that look the same agree. -/
theorem State.Agrees.of_not_reading {s t : State} (h : s.hideWork = t.hideWork)
    (hp : s.phase = .idle ∨ s.phase = .cmd) : s.Agrees t := by
  rw [State.eq_withWork_of_hideWork_eq h]
  refine .withWork _ _ ?_
  rcases hp with hp | hp <;> rw [hp] <;> trivial

theorem NextAgrees.next {s t : State} (h : s.Agrees t) : NextAgrees (.next s) (.next t) :=
  ⟨s, t, rfl, rfl, h⟩

/-! ## Operations -/

section Operations

variable {s t : State} (h : s.Agrees t)
include h

theorem State.Agrees.reads (hr : s.phase.reading) : s.par.reads = t.par.reads := by
  obtain ⟨k, p, hp⟩ := h
  exact hp.reads hr

theorem State.Agrees.respondOk (out : List Byte) (idx : Option Half) :
    (s.respondOk out idx).Agrees (t.respondOk out idx) := by
  obtain ⟨k, p, -⟩ := h
  exact .withWork k p trivial

/-- The indices a raise records are among the registers its phase has to use (R42). -/
theorem State.Agrees.errIndices : s.errIndices = t.errIndices := by
  obtain ⟨k, p, hp⟩ := h
  unfold State.errIndices
  rw [show (s.withWork k p).phase = s.phase from rfl]
  cases hph : s.phase with
  | idle | cmd | hdr | entlist | dec => rfl
  | blklist =>
    rw [hph] at hp
    obtain ⟨-, -, he, hb⟩ := hp
    exact Prod.ext he hb
  | data =>
    rw [hph] at hp
    obtain ⟨-, he, hd, -⟩ := hp
    exact Prod.ext he hd

theorem State.Agrees.raise (e : Err) (sub : BitVec 2) : (s.raise e sub).Agrees (t.raise e sub) := by
  have hi := h.errIndices
  obtain ⟨k, p, -⟩ := h
  refine .of_not_reading ?_ (.inl rfl)
  simp only [State.raise, State.hideWork, ← hi]
  rfl

theorem State.Agrees.countRead (n : Nat) : (s.countRead n).Agrees (t.countRead n) := by
  rcases Nat.eq_zero_or_pos n with rfl | hn
  · exact h
  · obtain ⟨k, p, hp⟩ := h
    rw [State.countRead_pos _ n hn, State.countRead_pos _ n hn]
    exact .withWork k _ hp.countRead

theorem State.Agrees.setProbe (q : List Byte) : (s.setProbe q).Agrees (t.setProbe q) := by
  obtain ⟨k, p, hp⟩ := h
  exact .withWork k _ (hp.setProbe _ _)

/-- A read meets the same fate on both sides. -/
theorem State.Agrees.readSrc (hr : s.phase.reading) (addr n : Nat) :
    (∃ q, s.readSrc addr n = .bytes q (s.countRead n) ∧ t.readSrc addr n = .bytes q (t.countRead n)) ∨
    (∃ s' t', s.readSrc addr n = .raised s' ∧ t.readSrc addr n = .raised t' ∧ s'.Agrees t') := by
  unfold State.readSrc
  rw [← h.ports_eq, ← h.reads hr]
  cases memRead s.ports.src (s.par.reads + 1) addr n with
  | ok q => exact .inl ⟨q, rfl, rfl⟩
  | error e => exact .inr ⟨_, _, rfl, rfl, (h.countRead n).raise e 0⟩

/-- A block list begins with CUR, EIDX and BCNT written anew (R141). -/
theorem State.Agrees.startEntry (hr : s.phase.reading) (i : Half) : (s.startEntry i).Agrees (t.startEntry i) := by
  obtain ⟨k, p, hp⟩ := h
  exact .withWork k _ ⟨hp.reads hr, rfl, rfl, rfl⟩

theorem State.Agrees.endEntryList (hr : s.phase.reading) : s.endEntryList.Agrees t.endEntryList := by
  unfold State.endEntryList
  rw [← h.store_eq]
  split
  · exact h.startEntry hr 0
  · exact h.respondOk [] none

theorem State.Agrees.endBlockList (hph : s.phase = .blklist) : s.endBlockList.Agrees t.endBlockList := by
  obtain ⟨k, p, hp⟩ := h
  rw [hph] at hp
  obtain ⟨hreads, -, heidx, -⟩ := hp
  exact .withWork k _ ⟨hreads, heidx, rfl, rfl, rfl⟩

theorem State.Agrees.nextEntry (hr : s.phase.reading) (he : s.par.eidx = t.par.eidx) :
    s.nextEntry.Agrees t.nextEntry := by
  unfold State.nextEntry
  rw [← h.store_eq, ← he]
  split
  · exact h.startEntry hr _
  · exact h.respondOk [] none

end Operations

/-! ## Commands and records -/

section Meanings

variable {s t : State} (h : s.Agrees t)
include h

/-- KS.GEN looks at its ports, and loads S afresh. -/
theorem State.Agrees.execKsGen : NextAgrees (execKsGen s) (execKsGen t) := by
  unfold Machine.execKsGen State.genLength State.genSeed
  rw [← h.ports_eq]
  split
  · exact .next (h.raise _ _)
  · obtain ⟨k, p, -⟩ := h
    exact .next (.withWork _ p trivial)

theorem State.Agrees.execXorApply : NextAgrees (execXorApply s) (execXorApply t) := by
  unfold Machine.execXorApply State.dataOperand State.keyOperand
  rw [← h.ports_eq]
  split
  · exact .next (h.raise _ _)
  · split
    · exact .next (h.raise _ _)
    · exact .next (h.respondOk _ _)

/-- KDB.DECODE starts its count of reads afresh. -/
theorem State.Agrees.execKdbDecode : NextAgrees (execKdbDecode s) (execKdbDecode t) := by
  unfold Machine.execKdbDecode
  rw [← h.ports_eq]
  split
  · exact .next (h.raise _ _)
  · obtain ⟨k, p, -⟩ := h
    exact .next (.withWork k _ rfl)

theorem State.Agrees.execKdbFind : NextAgrees (execKdbFind s) (execKdbFind t) := by
  unfold Machine.execKdbFind State.entryAt
  rw [← h.store_eq]
  split
  · exact .next (h.raise _ _)
  · split
    · exact .next (h.respondOk _ _)
    · exact .next (h.raise _ _)

theorem State.Agrees.execHdr (hph : s.phase = .hdr) (eloff : Word) :
    NextAgrees (execHdr eloff s) (execHdr eloff t) := by
  obtain ⟨k, p, hp⟩ := h
  rw [hph] at hp
  exact .next (.withWork k _ ⟨hp, rfl⟩)

theorem State.Agrees.commitEntry (hph : s.phase = .entlist) (name : List Byte) (blkoff : Word) :
    (s.commitEntry name blkoff).Agrees (t.commitEntry name blkoff) := by
  obtain ⟨k, p, hp⟩ := h
  refine .withWork k _ ?_
  rw [hph] at hp
  rw [State.commitEntry_phase, hph]
  exact ⟨hp.1, congrArg (· + 20) hp.2⟩

/-- The block record goes to the same entry on both sides, EIDX and BCNT being the same. -/
theorem State.Agrees.commitBlock (hph : s.phase = .blklist) (size : Half) (dataoff : Word) :
    (s.commitBlock size dataoff).Agrees (t.commitBlock size dataoff) := by
  obtain ⟨k, p, hp⟩ := h
  rw [hph] at hp
  obtain ⟨hreads, hcur, heidx, hbcnt⟩ := hp
  have ht : (s.withWork k p).commitBlock size dataoff =
      (s.commitBlock size dataoff).withWork k { p with bcnt := p.bcnt + 1, cur := p.cur + 6 } := by
    simp only [State.commitBlock, State.modifyEntry, State.withWork, heidx, hbcnt]
  rw [ht]
  refine .withWork k _ ?_
  rw [State.commitBlock_phase, hph]
  exact ⟨hreads, congrArg (· + 6) hcur, heidx, congrArg (· + 1) hbcnt⟩

theorem State.Agrees.dataBlock (hph : s.phase = .data) : s.dataBlock = t.dataBlock := by
  obtain ⟨k, p, hp⟩ := h
  rw [hph] at hp
  obtain ⟨-, heidx, hdidx, -⟩ := hp
  unfold State.dataBlock
  rw [heidx, hdidx]
  rfl

theorem State.Agrees.appendData (hph : s.phase = .data) (q : List Byte) (size : Half) :
    (s.appendData q size).Agrees (t.appendData q size) := by
  obtain ⟨k, p, hp⟩ := h
  refine .withWork k _ ?_
  rw [hph] at hp
  obtain ⟨hreads, heidx, hdidx, htlen, hcbuf⟩ := hp
  rw [State.appendData_phase, hph]
  exact ⟨hreads, heidx, congrArg (· + 1) hdidx, congrArg (· + size.setWidth 32) htlen, congrArg (· ++ q) hcbuf⟩

/-- One more block's bytes gathered, or the last one seen. -/
theorem State.Agrees.gather (hph : s.phase = .data) : s.gather.Agrees t.gather := by
  unfold State.gather
  rw [← h.dataBlock hph]
  cases s.dataBlock with
  | none =>
    obtain ⟨k, p, hp⟩ := h
    rw [hph] at hp
    obtain ⟨hreads, heidx, -, htlen, hcbuf⟩ := hp
    exact .withWork k p ⟨hreads, heidx, htlen, hcbuf⟩
  | some b =>
    rcases h.readSrc (by simp [hph]) b.dataoff.toNat b.size.toNat with
      ⟨q, hs, ht⟩ | ⟨s', t', hs, ht, h'⟩
    · simp only [hs, ht]
      exact (h.countRead _).appendData (by simpa using hph) q b.size
    · simpa only [hs, ht] using h'

/-- The payload comes from CBUF and TLEN, which are the same; S is loaded afresh (R149). -/
theorem State.Agrees.decipher (hph : s.phase = .dec) : s.decipher.Agrees t.decipher := by
  obtain ⟨k, p, hp⟩ := h
  rw [hph] at hp
  obtain ⟨hreads, heidx, htlen, hcbuf⟩ := hp
  unfold State.decipher
  rw [show (s.withWork k p).par = p from rfl, ← htlen, ← hcbuf, ← heidx]
  refine State.Agrees.nextEntry (.withWork _ p ?_) (by simp [hph]) heidx
  rw [State.modifyEntry_phase, hph]
  exact ⟨hreads, heidx, htlen, hcbuf⟩

end Meanings

/-! ## Fetches -/

/-- The phase whose steps fetch at a position (R70). -/
def Phase.ofPosition : Position → Phase
  | .command => .cmd
  | .header => .hdr
  | .entryList => .entlist
  | .blockList => .blklist

@[simp] theorem ofPosition_decodeCommand (op : Byte) : Phase.ofPosition (decodeCommand op).position = .cmd := by
  unfold decodeCommand
  split_ifs <;> rfl

@[simp] theorem ofPosition_decodeHeaderRecord (q : List Byte) :
    Phase.ofPosition (decodeHeaderRecord q).position = .hdr := rfl

@[simp] theorem ofPosition_decodeEntryRecord (q : List Byte) :
    Phase.ofPosition (decodeEntryRecord q).position = .entlist := by
  unfold decodeEntryRecord
  split <;> rfl

@[simp] theorem ofPosition_decodeBlockRecord (q : List Byte) :
    Phase.ofPosition (decodeBlockRecord q).position = .blklist := by
  unfold decodeBlockRecord
  split <;> rfl

/-- Two fetches of one instruction, in the phase of its position, or of none, whose states agree. -/
inductive Fetched.Agrees : Fetched → Fetched → Prop
  | run (i : Instr) {s t : State} (h : s.Agrees t) (hph : s.phase = Phase.ofPosition i.position) :
      Fetched.Agrees (.run i s) (.run i t)
  | quiet {s t : State} (h : s.Agrees t) : Fetched.Agrees (.quiet s) (.quiet t)

section Fetches

variable {s t : State} (h : s.Agrees t)
include h

theorem State.Agrees.fetchHeader (hph : s.phase = .hdr) : s.fetchHeader.Agrees t.fetchHeader := by
  have hr : s.phase.reading := by simp [hph]
  unfold State.fetchHeader
  rcases h.readSrc hr 0 6 with ⟨m, hs, ht⟩ | ⟨s', t', hs, ht, h'⟩ <;> simp only [hs, ht]
  · have h1 := h.countRead 6
    by_cases hm : m = Config.magic
    · simp only [hm, ne_eq, not_true_eq_false, if_false]
      rcases h1.readSrc (by simpa using hr) 6 4 with ⟨off, hs, ht⟩ | ⟨s', t', hs, ht, h'⟩ <;> simp only [hs, ht]
      · exact .run _ (h1.countRead 4) (by simpa using hph)
      · exact .quiet h'
    · simp only [ne_eq, hm, not_false_eq_true, if_true]
      exact .quiet (h1.raise _ _)
  · exact .quiet h'

theorem State.Agrees.cursor (hph : s.phase = .entlist ∨ s.phase = .blklist) : s.cursor = t.cursor := by
  obtain ⟨k, p, hp⟩ := h
  rcases hph with hph | hph <;> rw [hph] at hp
  · exact congrArg BitVec.toNat hp.2
  · exact congrArg BitVec.toNat hp.2.1

theorem State.Agrees.fetchEntryRecord (hph : s.phase = .entlist) :
    s.fetchEntryRecord.Agrees t.fetchEntryRecord := by
  have hr : s.phase.reading := by simp [hph]
  unfold State.fetchEntryRecord
  rw [← h.cursor (.inl hph)]
  rcases h.readSrc hr s.cursor 4 with ⟨probe, hs, ht⟩ | ⟨s', t', hs, ht, h'⟩ <;> simp only [hs, ht]
  · have h1 := (h.countRead 4).setProbe probe
    split
    · exact .run _ h1 (by simpa using hph)
    · rcases h1.readSrc (by simpa using hr) (s.cursor + 4) 12 with ⟨more, hs, ht⟩ | ⟨s', t', hs, ht, h'⟩ <;>
        simp only [hs, ht]
      · have h2 := h1.countRead 12
        rcases h2.readSrc (by simpa using hr) (s.cursor + 16) 4 with ⟨off, hs, ht⟩ | ⟨s', t', hs, ht, h'⟩ <;>
          simp only [hs, ht]
        · exact .run _ (h2.countRead 4) (by simpa using hph)
        · exact .quiet h'
      · exact .quiet h'
  · exact .quiet h'

theorem State.Agrees.fetchEntryAtCap (hph : s.phase = .entlist) : s.fetchEntryAtCap.Agrees t.fetchEntryAtCap := by
  unfold State.fetchEntryAtCap
  rw [← h.cursor (.inl hph)]
  rcases h.readSrc (by simp [hph]) s.cursor 4 with ⟨probe, hs, ht⟩ | ⟨s', t', hs, ht, h'⟩ <;>
    simp only [hs, ht]
  · have h1 := (h.countRead 4).setProbe probe
    split
    · exact .run _ h1 (by simpa using hph)
    · exact .quiet (h1.raise _ _)
  · exact .quiet h'

theorem State.Agrees.fetchEntry (hph : s.phase = .entlist) : s.fetchEntry.Agrees t.fetchEntry := by
  unfold State.fetchEntry
  rw [← h.cfg_eq, ← h.store_eq]
  split
  · exact h.fetchEntryRecord hph
  · split
    · exact h.fetchEntryAtCap hph
    · exact .quiet (h.endEntryList (by simp [hph]))

theorem State.Agrees.fetchBlockRecord (hph : s.phase = .blklist) :
    s.fetchBlockRecord.Agrees t.fetchBlockRecord := by
  unfold State.fetchBlockRecord
  rw [← h.cursor (.inr hph)]
  rcases h.readSrc (by simp [hph]) s.cursor 6 with ⟨probe, hs, ht⟩ | ⟨s', t', hs, ht, h'⟩ <;>
    simp only [hs, ht]
  · exact .run _ ((h.countRead 6).setProbe probe) (by simpa using hph)
  · exact .quiet h'

theorem State.Agrees.fetchBlockAtCap (hph : s.phase = .blklist) : s.fetchBlockAtCap.Agrees t.fetchBlockAtCap := by
  unfold State.fetchBlockAtCap
  rw [← h.cursor (.inr hph)]
  rcases h.readSrc (by simp [hph]) s.cursor 6 with ⟨probe, hs, ht⟩ | ⟨s', t', hs, ht, h'⟩ <;>
    simp only [hs, ht]
  · have h1 := (h.countRead 6).setProbe probe
    split
    · exact .run _ h1 (by simpa using hph)
    · exact .quiet (h1.raise _ _)
  · exact .quiet h'

theorem State.Agrees.fetchBlock (hph : s.phase = .blklist) : s.fetchBlock.Agrees t.fetchBlock := by
  have hb : s.par.bcnt = t.par.bcnt := by
    obtain ⟨k, p, hp⟩ := h
    rw [hph] at hp
    obtain ⟨-, -, -, hbcnt⟩ := hp
    exact hbcnt
  unfold State.fetchBlock
  rw [← h.cfg_eq, ← hb]
  split
  · exact h.fetchBlockRecord hph
  · split
    · exact h.fetchBlockAtCap hph
    · exact .quiet (h.endBlockList hph)

/-- An idle block accepts a waiting command whatever the working registers hold. -/
theorem State.Agrees.idleStep (hph : s.phase = .idle) : s.idleStep.Agrees t.idleStep := by
  obtain ⟨k, p, -⟩ := h
  have ht : (s.withWork k p).idleStep.hideWork = s.idleStep.hideWork := by
    unfold State.idleStep
    rw [show (s.withWork k p).status = s.status from rfl, show (s.withWork k p).waiting = s.waiting from rfl]
    split <;> rfl
  refine .of_not_reading ht.symm ?_
  rcases s.idleStep_cases with ⟨c, -, -, hi⟩ | ⟨-, hi⟩ <;> rw [hi]
  · exact .inr rfl
  · exact .inl hph

theorem State.Agrees.applyReset : s.applyReset.Agrees t.applyReset := by
  unfold State.applyReset
  rw [← h.cfg_eq]
  exact .withWork _ _ trivial

/-- States that agree fetch the same. -/
theorem State.Agrees.fetch : s.fetch.Agrees t.fetch := by
  cases hr : s.resetIn with
  | true =>
    rw [s.fetch_reset hr, t.fetch_reset (h.resetIn_eq ▸ hr)]
    exact .quiet h.applyReset
  | false =>
    cases hp : s.phase with
    | idle =>
      rw [s.fetch_idle hr hp, t.fetch_idle (h.resetIn_eq ▸ hr) (h.phase_eq ▸ hp)]
      exact .quiet (h.idleStep hp)
    | cmd =>
      rw [s.fetch_cmd hr hp, t.fetch_cmd (h.resetIn_eq ▸ hr) (h.phase_eq ▸ hp), h.ports_eq]
      exact .run _ h (by simpa using hp)
    | hdr =>
      rw [s.fetch_hdr hr hp, t.fetch_hdr (h.resetIn_eq ▸ hr) (h.phase_eq ▸ hp)]
      exact h.fetchHeader hp
    | entlist =>
      rw [s.fetch_entlist hr hp, t.fetch_entlist (h.resetIn_eq ▸ hr) (h.phase_eq ▸ hp)]
      exact h.fetchEntry hp
    | blklist =>
      rw [s.fetch_blklist hr hp, t.fetch_blklist (h.resetIn_eq ▸ hr) (h.phase_eq ▸ hp)]
      exact h.fetchBlock hp
    | data =>
      rw [s.fetch_data hr hp, t.fetch_data (h.resetIn_eq ▸ hr) (h.phase_eq ▸ hp)]
      exact .quiet (h.gather hp)
    | dec =>
      rw [s.fetch_dec hr hp, t.fetch_dec (h.resetIn_eq ▸ hr) (h.phase_eq ▸ hp)]
      exact .quiet (h.decipher hp)

/-! ## Steps and runs -/

/-- An instruction in the phase of its position keeps agreement. -/
theorem State.Agrees.exec (i : Instr) (hph : s.phase = Phase.ofPosition i.position) :
    NextAgrees (exec i s) (exec i t) := by
  cases i with
  | ksGen => exact h.execKsGen
  | xorApply => exact h.execXorApply
  | kdbDecode => exact h.execKdbDecode
  | kdbFind => exact h.execKdbFind
  | cmdIllegal op => exact .next (h.raise .illegalCommand 0)
  | hdr eloff => exact h.execHdr hph eloff
  | entEnd =>
    have hr : s.phase.reading := by simp [hph, Phase.ofPosition, Instr.position]
    exact .next (h.endEntryList hr)
  | ent name blkoff => exact .next (h.commitEntry hph name blkoff)
  | blkEnd ignored => exact .next (h.endBlockList hph)
  | blk size dataoff => exact .next (h.commitBlock hph size dataoff)

/-- One step of the noninterference: states that agree step to states that agree. -/
theorem State.Agrees.step : NextAgrees (step s) (step t) := by
  have hf := h.fetch
  unfold Machine.step
  generalize s.fetch = f, t.fetch = f' at hf
  cases hf with
  | run i h' hph => exact h'.exec i hph
  | quiet h' => exact .next h'

end Fetches

theorem run_succ_of_step {s u : State} (n : Nat) (h : step s = .next u) :
    Host.Core.run core (n + 1) s = Host.Core.run core n u := by
  simp only [Host.Core.run, show core.step s = step s from rfl, h]

theorem State.Agrees.run {s t : State} (h : s.Agrees t) (n : Nat) :
    NextAgrees (Host.Core.run core n s) (Host.Core.run core n t) := by
  induction n generalizing s t with
  | zero => exact .next h
  | succ n ih =>
    obtain ⟨u, v, hs, ht, huv⟩ := h.step
    rw [run_succ_of_step n hs, run_succ_of_step n ht]
    exact ih huv

/-- Settles O59: between commands no working register is one that a later step has to use, so states that look the
same agree, and steps keep agreement. -/
theorem workingRegistersAreUnobservable : Obligations.WorkingRegistersAreUnobservable := by
  intro s t n hidle hlook
  obtain ⟨u, v, hs, ht, huv⟩ := (State.Agrees.of_not_reading hlook (.inl hidle)).run n
  exact ⟨u, v, hs, ht, huv.hideWork_eq⟩

end Sys2Proof.Machine
end

section
/-! O6. A read of SRC is all or nothing: the clauses of R55 and R56 exclude each other, so each is one case of
`memRead_cases`, and the bytes of the last one are read off `Source.bytes`. -/

namespace Sys2Proof.Machine

theorem Source.getElem?_bytes (src : Source) (a n j : Nat) (h : j < n) :
    (src.bytes a n)[j]? = some (src.byte (a + j)) :=
  (src.mem.getElem?_readBytes a n j).trans (if_pos h)

/-- Settles O6: in each case of the read its own clause answers, and the guards of the other three fail. -/
theorem memReadIsAllOrNothing : Obligations.MemReadIsAllOrNothing := by
  intro src k addr n
  rcases memRead_cases src k addr n with
    ⟨rfl, hread⟩ | ⟨hpos, hav, hread⟩ | ⟨hpos, hav, hout, hread⟩ | ⟨hpos, hav, hin, hread⟩
  · simp [hread]
  · simp [hread, hpos.ne', hav]
  · simp [hread, hpos.ne', hav, hout.not_ge]
  · simpa [hread, hpos, hpos.ne', hav, hin, hin.not_gt] using src.getElem?_bytes addr n

end Sys2Proof.Machine
end

section
/-! O36. A code that is none of the four decodes to CMD.ILLEGAL, and an error raised in phase CMD records no index,
so what the raise writes is the constants of R177. -/

namespace Sys2Proof.Machine

/-- R73: every code but the four of R72 is CMD.ILLEGAL. -/
theorem decodeCommand_of_illegal (op : Byte) (h1 : op ≠ 0x01) (h2 : op ≠ 0x02) (h3 : op ≠ 0x03) (h4 : op ≠ 0x04) :
    decodeCommand op = .cmdIllegal op := by
  unfold decodeCommand
  rw [if_neg h1, if_neg h2, if_neg h3, if_neg h4]

/-- R42: no entry or block is at hand before a command's first step. -/
theorem State.errIndices_cmd (s : State) (hp : s.phase = .cmd) : s.errIndices = (0, 0) := by
  unfold State.errIndices
  rw [hp]

/-- An error raised in phase CMD, in full: whatever the working registers hold, ERRIDX is 0. -/
theorem State.raise_cmd (s : State) (hp : s.phase = .cmd) (e : Err) (sub : BitVec 2) :
    s.raise e sub =
      { s with
        status := { busy := false, err := .error e, errPhase := .cmd, errSub := sub, errEidx := 0, errBidx := 0 }
        phase := .idle
        ports := Ports.empty
        delivery := some { resp := .error e, out := [], idx := none } } := by
  unfold State.raise
  rw [s.errIndices_cmd hp, hp]

theorem exec_cmdIllegal (op : Byte) (s : State) : exec (.cmdIllegal op) s = .next (s.raise .illegalCommand 0) := rfl

/-- Settles O36: the fetch in phase CMD is of CMD.ILLEGAL, whose meaning is a raise in phase CMD. -/
theorem illegalCodesAreRejected : Obligations.IllegalCodesAreRejected := by
  intro s hreset hphase h1 h2 h3 h4
  have hfetch : s.fetch = .run (.cmdIllegal s.ports.cmd) s := by
    rw [s.fetch_cmd hreset hphase, decodeCommand_of_illegal _ h1 h2 h3 h4]
  exact ⟨step_of_run s s _ hfetch, by rw [exec_cmdIllegal, s.raise_cmd hphase]⟩

end Sys2Proof.Machine
end

section
/-! The LFSR stage: one equation for both branches, from which the bits (O8) and the laws of R111 (O9) are read off. -/

namespace Sys2Proof.Machine

/-- What a stage XORs in when the bit shifted out is `f`. -/
def feedbackIf (f : Bool) : Word :=
  if f then Config.feedback else 0

/-- The positions of R102 at which a stage XORs the feedback bit into the bit moving right. -/
abbrev taps : List Nat := [26, 25, 24, 22, 21, 18, 16, 14, 9, 8, 5, 0]

theorem lfsrStep_eq (s : Word) : lfsrStep s = (s >>> 1) ^^^ feedbackIf (s.getLsbD 0) := by
  unfold lfsrStep feedbackIf
  split
  · rfl
  · exact BitVec.xor_zero.symm

/-- FEEDBACK is bit 31 and the taps. -/
theorem getLsbD_feedback (i : Nat) (hi : i < 32) : Config.feedback.getLsbD i = decide (i = 31 ∨ i ∈ taps) := by
  have hall : ∀ j : Fin 32, Config.feedback.getLsbD j = decide (j.val = 31 ∨ j.val ∈ taps) := by decide
  exact hall ⟨i, hi⟩

theorem getLsbD_feedbackIf (f : Bool) (i : Nat) : (feedbackIf f).getLsbD i = (f && Config.feedback.getLsbD i) := by
  cases f with
  | false => exact BitVec.getLsbD_zero
  | true => rfl

theorem getLsbD_lfsrStep (s : Word) (i : Nat) :
    (lfsrStep s).getLsbD i = (s.getLsbD (i + 1) ^^ (s.getLsbD 0 && Config.feedback.getLsbD i)) := by
  rw [lfsrStep_eq, BitVec.getLsbD_xor, getLsbD_feedbackIf, BitVec.getLsbD_ushiftRight, Nat.add_comm]

/-- The feedback bit ends in the top bit, since the shift brings in 0 there. -/
theorem getLsbD_lfsrStep_top (s : Word) : (lfsrStep s).getLsbD 31 = s.getLsbD 0 := by
  rw [getLsbD_lfsrStep, getLsbD_feedback 31 (by decide), BitVec.getLsbD_of_ge s 32 (Nat.le_refl 32)]
  simp

theorem getLsbD_lfsrStep_tap (s : Word) (i : Nat) (h : i ∈ taps) :
    (lfsrStep s).getLsbD i = (s.getLsbD (i + 1) ^^ s.getLsbD 0) := by
  have hi : i < 32 := (by decide : ∀ j ∈ taps, j < 32) i h
  simp [getLsbD_lfsrStep, getLsbD_feedback i hi, h]

theorem getLsbD_lfsrStep_other (s : Word) (i : Nat) (hi : i ≤ 30) (h : i ∉ taps) :
    (lfsrStep s).getLsbD i = s.getLsbD (i + 1) := by
  have hne : i ≠ 31 := by omega
  simp [getLsbD_lfsrStep, getLsbD_feedback i (by omega), h, hne]

/-- Settles O8: the bits of one equation, by which bits of FEEDBACK are set. -/
theorem lfsrStageBitByBit : Obligations.LfsrStageBitByBit :=
  fun s => ⟨getLsbD_lfsrStep_top s, getLsbD_lfsrStep_tap s, getLsbD_lfsrStep_other s⟩

/-! ## The stage undone -/

/-- The formula of R111 that recovers a state from the one after it. -/
def lfsrUnstep (t : Word) : Word :=
  ((t ^^^ feedbackIf (t.getLsbD 31)) <<< 1) ||| (BitVec.ofBool (t.getLsbD 31)).setWidth 32

/-- Shifting right loses bit 0 alone. -/
theorem shiftLeft_ushiftRight_or_bit (s : Word) :
    ((s >>> 1) <<< 1) ||| (BitVec.ofBool (s.getLsbD 0)).setWidth 32 = s := by
  refine BitVec.eq_of_getLsbD_eq fun i hi => ?_
  cases i with
  | zero => simp
  | succ i => simp [hi, Nat.add_comm 1 i]

/-- The top bit says whether FEEDBACK went in, so it can be taken out again. -/
theorem lfsrUnstep_lfsrStep (s : Word) : lfsrUnstep (lfsrStep s) = s := by
  have hxor : lfsrStep s ^^^ feedbackIf (s.getLsbD 0) = s >>> 1 := by
    rw [lfsrStep_eq, BitVec.xor_assoc, BitVec.xor_self, BitVec.xor_zero]
  unfold lfsrUnstep
  rw [getLsbD_lfsrStep_top, hxor, shiftLeft_ushiftRight_or_bit]

theorem lfsrStep_injective : Function.Injective lfsrStep :=
  Function.LeftInverse.injective lfsrUnstep_lfsrStep

/-- There are finitely many words, so an injective stage reaches them all. -/
theorem lfsrStep_surjective : Function.Surjective lfsrStep :=
  Finite.surjective_of_injective lfsrStep_injective

/-! ## Many stages -/

theorem lfsrStages_eq_iterate (n : Nat) : lfsrStages n = lfsrStep^[n] := by
  funext s
  induction n generalizing s with
  | zero => rfl
  | succ n ih => exact ih (lfsrStep s)

theorem lfsrStages_injective (n : Nat) : Function.Injective (lfsrStages n) := by
  rw [lfsrStages_eq_iterate]
  exact lfsrStep_injective.iterate n

theorem lfsrStep_zero : lfsrStep 0 = 0 := rfl

@[simp] theorem lfsrStages_of_zero (n : Nat) : lfsrStages n 0 = 0 := by
  rw [lfsrStages_eq_iterate]
  exact Function.iterate_fixed lfsrStep_zero n

theorem lfsrByte_zero : lfsrByte 0 = 0 := lfsrStages_of_zero 8

theorem keystream_of_zero (n : Nat) : keystream n 0 = List.replicate n 0 := by
  induction n with
  | zero => rfl
  | succ n ih => rw [keystream_succ, lfsrByte_zero, ih]; rfl

/-- A key of zeros leaves the data. -/
theorem xorBytes_replicate_zero (data : List Byte) : xorBytes data (List.replicate data.length 0) = data := by
  induction data with
  | nil => rfl
  | cons x data ih => exact congrArg₂ List.cons BitVec.xor_zero ih

theorem cryptBytes_zero (data : List Byte) : cryptBytes data 0 = data := by
  rw [cryptBytes, keystream_of_zero, xorBytes_replicate_zero]

/-- Settles O9: zero is fixed, and the stage, undone by the formula of R111, is injective at every count. -/
theorem lfsrZeroAndBijection : Obligations.LfsrZeroAndBijection :=
  ⟨lfsrStep_zero, keystream_of_zero, cryptBytes_zero,
    fun s => ⟨(getLsbD_lfsrStep_top s).symm, (lfsrUnstep_lfsrStep s).symm⟩,
    lfsrStep_surjective,
    fun _ hs n h0 => hs (lfsrStages_injective n (h0.trans (lfsrStages_of_zero n).symm)),
    fun _ _ hst n => (lfsrStages_injective n).ne hst⟩

end Sys2Proof.Machine
end

section
/-! O11. A keystream is the bytes of its first part followed by those from the state that part ends in (R110). -/

namespace Sys2Proof.Machine

theorem length_keystream (n : Nat) (s : Word) : (keystream n s).length = n := by
  induction n generalizing s with
  | zero => rfl
  | succ n ih => rw [keystream_succ, List.length_cons, ih]

/-- Each byte takes eight stages. -/
theorem lfsrStages_bytes_succ (n : Nat) (s : Word) :
    lfsrStages (8 * (n + 1)) s = lfsrStages (8 * n) (lfsrByte s) := by
  rw [Nat.mul_succ, Nat.add_comm, lfsrStages_add]
  rfl

theorem keystream_add (m n : Nat) (s : Word) :
    keystream (m + n) s = keystream m s ++ keystream n (lfsrStages (8 * m) s) := by
  induction m generalizing s with
  | zero => rw [Nat.zero_add]; rfl
  | succ m ih => rw [Nat.succ_add, keystream_succ, ih, keystream_succ, lfsrStages_bytes_succ, List.cons_append]

/-- Settles O11: the longer keystream is the shorter one and a rest, cut at the length of the shorter. -/
theorem keystreamPrefix : Obligations.KeystreamPrefix := by
  intro m n seed hmn
  obtain ⟨k, rfl⟩ := Nat.exists_eq_add_of_le hmn
  rw [keystream_add, Nat.add_sub_cancel_left]
  exact ⟨List.take_left' (length_keystream m seed), List.drop_left' (length_keystream m seed)⟩

end Sys2Proof.Machine
end

section
/-! O13 to O15. The unit at work: seven stages that shift and one that samples make a byte, and as many bytes as
KCNT says make the keystream. KS.GEN is then one of two states, by bit 31 of LEN. -/

namespace Sys2Proof.Machine

/-- Up to the seventh stage of a byte the unit only shifts. -/
theorem KsgRun.stages_shift (n : Nat) (s : Word) (k : Word) (out : List Byte) (hk : k ≠ 0) (hn : n ≤ 7) :
    KsgRun.stages n { ksg := { S := s, bitcnt := 0, kcnt := k }, out := out } =
      { ksg := { S := lfsrStages n s, bitcnt := BitVec.ofNat 3 n, kcnt := k }, out := out } := by
  induction n with
  | zero => rfl
  | succ n ih =>
    have hbit : BitVec.ofNat 3 n ≠ 7 := by bv_omega
    rw [KsgRun.stages_add, ih (by omega), lfsrStages_add]
    rw [show BitVec.ofNat 3 (n + 1) = BitVec.ofNat 3 n + 1 from BitVec.ofNat_add n 1]
    exact KsgRun.stage_shift _ hk hbit

/-- Eight stages produce one byte (R103, R104). -/
theorem KsgRun.stages_byte (s : Word) (k : Word) (out : List Byte) (hk : k ≠ 0) :
    KsgRun.stages 8 { ksg := { S := s, bitcnt := 0, kcnt := k }, out := out } =
      { ksg := { S := lfsrByte s, bitcnt := 0, kcnt := k - 1 }, out := out ++ [(lfsrByte s).setWidth 8] } := by
  rw [KsgRun.stages_add 7 1, KsgRun.stages_shift 7 s k out hk (Nat.le_refl 7)]
  exact KsgRun.stage_sample _ hk rfl

/-- Run for all the bytes KCNT counts, the unit produces the keystream from S after what it had produced before. -/
theorem KsgRun.stages_keystream (n : Nat) (s : Word) (k : Word) (out : List Byte) (hk : k.toNat = n) :
    KsgRun.stages (8 * n) { ksg := { S := s, bitcnt := 0, kcnt := k }, out := out } =
      { ksg := { S := lfsrStages (8 * n) s, bitcnt := 0, kcnt := 0 }, out := out ++ keystream n s } := by
  induction n generalizing s k out with
  | zero =>
    obtain rfl : k = 0 := BitVec.eq_of_toNat_eq hk
    rw [keystream_zero, List.append_nil]
    rfl
  | succ n ih =>
    have hpos : k ≠ 0 := by bv_omega
    have hrest : (k - 1).toNat = n := by bv_omega
    rw [Nat.mul_succ, Nat.add_comm, KsgRun.stages_add, KsgRun.stages_byte s k out hpos, ih _ _ _ hrest,
      keystream_succ, List.append_assoc, List.singleton_append, ← lfsrStages_bytes_succ, Nat.mul_succ, Nat.add_comm]

/-- One keystream operation: the unit refines R105's function and ends with its counters at zero (R22). -/
theorem genKeystream_eq (n seed : Word) :
    genKeystream n seed =
      { ksg := { S := lfsrStages (8 * n.toNat) seed, bitcnt := 0, kcnt := 0 }, out := keystream n.toNat seed } :=
  KsgRun.stages_keystream n.toNat seed n [] rfl

/-! ## KS.GEN -/

/-- KS.GEN on a length that is not negative (R106, R108). -/
theorem exec_ksGen_of_nonneg (s : State) (h : s.ports.len.getLsbD 31 = false) :
    exec .ksGen s =
      .next
        ({ s with
            ksg := { S := lfsrStages (8 * s.ports.len.toNat) s.ports.seed, bitcnt := 0, kcnt := 0 } }.respondOk
          (keystream s.ports.len.toNat s.ports.seed) none) := by
  have hlen : lengthNegative s.genLength = false := h
  simp only [exec, execKsGen, hlen, genKeystream_eq]
  rfl

/-- KS.GEN on a negative length: a raise on the state as it stands (R107). -/
theorem exec_ksGen_of_negative (s : State) (h : s.ports.len.getLsbD 31 = true) :
    exec .ksGen s = .next (s.raise .lengthNegative 0) :=
  if_pos h

/-- Settles O13: the unit's result in the OK response. -/
theorem ksGenDeliversTheKeystream : Obligations.KsGenDeliversTheKeystream :=
  exec_ksGen_of_nonneg

/-- Settles O14: what an error raised in phase CMD writes does not include S. -/
theorem ksGenRejectsNegativeLength : Obligations.KsGenRejectsNegativeLength := by
  intro s hphase hneg
  rw [exec_ksGen_of_negative s hneg, s.raise_cmd hphase]

/-- Settles O15: on either side of bit 31 the delivery names LEN and SEED and nothing else of the state. -/
theorem ksGenDependsOnItsOperandsOnly : Obligations.KsGenDependsOnItsOperandsOnly := by
  intro s s' t t' hlen hseed ht ht'
  cases hneg : s.ports.len.getLsbD 31 with
  | false =>
    rw [exec_ksGen_of_nonneg s hneg] at ht
    rw [exec_ksGen_of_nonneg s' (hlen ▸ hneg), ← hlen, ← hseed] at ht'
    cases ht
    cases ht'
    rfl
  | true =>
    rw [exec_ksGen_of_negative s hneg] at ht
    rw [exec_ksGen_of_negative s' (hlen ▸ hneg)] at ht'
    cases ht
    cases ht'
    rfl

end Sys2Proof.Machine
end

section
/-! O16, O17 and O19. The XOR datapath byte by byte and as its own inverse (R120, R124), and XOR.APPLY's two rejections,
the sign of either length before their comparison (R122, R123). -/

namespace Sys2Proof.Machine

/-! ## XorBytes -/

theorem length_xorBytes (a b : List Byte) (h : a.length = b.length) : (xorBytes a b).length = a.length := by
  rw [xorBytes, List.length_zipWith, ← h, Nat.min_self]

theorem getElem?_xorBytes (a b : List Byte) (i : Nat) (x y : Byte) (hx : a[i]? = some x) (hy : b[i]? = some y) :
    (xorBytes a b)[i]? = some (x ^^^ y) :=
  List.getElem?_zipWith_eq_some.mpr ⟨x, y, hx, hy, rfl⟩

theorem xorBytes_comm (a b : List Byte) : xorBytes a b = xorBytes b a :=
  List.zipWith_comm_of_comm BitVec.xor_comm

/-- A key no shorter than the data, applied twice, leaves the data: every byte meets the same key byte again. -/
theorem xorBytes_xorBytes_cancel (d k : List Byte) (h : d.length ≤ k.length) : xorBytes (xorBytes d k) k = d := by
  induction d generalizing k with
  | nil => rfl
  | cons x d ih =>
    cases k with
    | nil => exact absurd h (Nat.not_succ_le_zero _)
    | cons y k =>
      have hbyte : x ^^^ y ^^^ y = x := by rw [BitVec.xor_assoc, BitVec.xor_self, BitVec.xor_zero]
      rw [xorBytes_cons, xorBytes_cons, hbyte, ih k (Nat.le_of_succ_le_succ h)]

/-! ## XOR.CRYPT as a function -/

theorem length_cryptBytes (d : List Byte) (seed : Word) : (cryptBytes d seed).length = d.length :=
  length_xorBytes d _ (length_keystream d.length seed).symm

/-- The crypted data are as long as the data, so the second run draws the keystream of the first. -/
theorem cryptBytes_cryptBytes (d : List Byte) (seed : Word) : cryptBytes (cryptBytes d seed) seed = d := by
  have hkey : d.length ≤ (keystream d.length seed).length := (length_keystream d.length seed).ge
  calc cryptBytes (cryptBytes d seed) seed
      = xorBytes (cryptBytes d seed) (keystream d.length seed) := by
        rw [cryptBytes, length_cryptBytes]
    _ = d := xorBytes_xorBytes_cancel d _ hkey

/-- Settles O17: each of R124's laws is a law of `xorBytes`, the last one with the keystream for key. -/
theorem xorIsAnInvolution : Obligations.XorIsAnInvolution :=
  ⟨fun d k h => ⟨xorBytes_xorBytes_cancel d k h.le, xorBytes_comm d k⟩, xorBytes_replicate_zero,
    cryptBytes_cryptBytes⟩

/-- Settles O16: `xorBytes` zips the two sequences. -/
theorem xorBytesIsElementWise : Obligations.XorBytesIsElementWise :=
  fun a b h => ⟨length_xorBytes a b h, getElem?_xorBytes a b⟩

/-! ## XOR.APPLY -/

/-- XOR.APPLY on a negative length, whatever the other one is: a raise on the state as it stands (R123). -/
theorem exec_xorApply_of_negative (s : State)
    (h : s.ports.dlen.getLsbD 31 = true ∨ s.ports.klen.getLsbD 31 = true) :
    exec .xorApply s = .next (s.raise .lengthNegative 0) :=
  if_pos (Bool.or_eq_true_iff.mpr h)

/-- XOR.APPLY past the test of the signs, on unequal lengths: a raise on the state as it stands (R122). -/
theorem exec_xorApply_of_mismatch (s : State) (hd : s.ports.dlen.getLsbD 31 = false)
    (hk : s.ports.klen.getLsbD 31 = false) (hne : s.ports.dlen ≠ s.ports.klen) :
    exec .xorApply s = .next (s.raise .lengthMismatch 0) := by
  have hsigns : (lengthNegative s.ports.dlen || lengthNegative s.ports.klen) = false :=
    Bool.or_eq_false_iff.mpr ⟨hd, hk⟩
  exact (if_neg (ne_true_of_eq_false hsigns)).trans (if_pos hne)

/-- Settles O19: both errors are raised in phase CMD, where a raise writes the response and nothing else. -/
theorem xorApplyRejectsBadLengths : Obligations.XorApplyRejectsBadLengths := by
  intro s hphase
  constructor
  · intro hneg
    rw [exec_xorApply_of_negative s hneg, s.raise_cmd hphase]
  · intro hd hk hne
    rw [exec_xorApply_of_mismatch s hd hk hne, s.raise_cmd hphase]

end Sys2Proof.Machine
end

section
/-! Reads of a source that can be read throughout (R55, R58): the length of SRC alone decides. -/

namespace Sys2Proof.Machine

theorem State.Readable.addReads {s : State} (hr : s.Readable) (k : Nat) : (s.addReads k).Readable := hr

/-- SRC reaches to the last byte asked for. -/
theorem State.Readable.readSrc_inside {s : State} (hr : s.Readable) (addr n : Nat) (hn : 0 < n)
    (hl : addr + n ≤ s.ports.src.len.val) :
    s.readSrc addr n = .bytes (s.ports.src.bytes addr n) (s.addReads 1) := by
  rcases s.readSrc_cases addr n with ⟨h0, -⟩ | ⟨-, -, -, h⟩ | ⟨-, -, hout, -⟩ | ⟨-, hav, -⟩
  · exact absurd h0 hn.ne'
  · exact h
  · exact absurd hl hout.not_ge
  · exact absurd hav (by simp [hr _])

/-- SRC ends before the last byte asked for. -/
theorem State.Readable.readSrc_beyond {s : State} (hr : s.Readable) (addr n : Nat) (hn : 0 < n)
    (hl : s.ports.src.len.val < addr + n) :
    s.readSrc addr n = .raised ((s.addReads 1).raise .truncatedError 0) := by
  rcases s.readSrc_cases addr n with ⟨h0, -⟩ | ⟨-, -, hin, -⟩ | ⟨-, -, -, h⟩ | ⟨-, hav, -⟩
  · exact absurd h0 hn.ne'
  · exact absurd hin hl.not_ge
  · exact h
  · exact absurd hav (by simp [hr _])

end Sys2Proof.Machine
end

section
/-! O28. Phase HDR: an equation of the fetch for each of the four ends of R132 and R133. -/

namespace Sys2Proof.Machine

section Header

variable {s : State} (hr : s.Readable)
include hr

theorem State.Readable.fetchHeader_noMagic (hl : s.ports.src.len.val < 6) :
    s.fetchHeader = .quiet ((s.addReads 1).raise .truncatedError 0) := by
  rw [State.fetchHeader, hr.readSrc_beyond 0 6 (by decide) (by omega)]

/-- The magic is compared before the offset is read: the length beyond six bytes is no matter. -/
theorem State.Readable.fetchHeader_badMagic (hl : 6 ≤ s.ports.src.len.val)
    (hm : s.ports.src.bytes 0 6 ≠ Config.magic) :
    s.fetchHeader = .quiet ((s.addReads 1).raise .formatError 0) := by
  rw [State.fetchHeader, hr.readSrc_inside 0 6 (by decide) (by omega)]
  exact if_pos hm

theorem State.Readable.fetchHeader_noOffset (hl : 6 ≤ s.ports.src.len.val) (hl' : s.ports.src.len.val < 10)
    (hm : s.ports.src.bytes 0 6 = Config.magic) :
    s.fetchHeader = .quiet ((s.addReads 2).raise .truncatedError 0) := by
  have hsecond := (hr.addReads 1).readSrc_beyond 6 4 (by decide) hl'
  rw [State.fetchHeader, hr.readSrc_inside 0 6 (by decide) (by omega), hm]
  simp [hsecond]

theorem State.Readable.fetchHeader_whole (hl : 10 ≤ s.ports.src.len.val)
    (hm : s.ports.src.bytes 0 6 = Config.magic) :
    s.fetchHeader = .run (.hdr (le32 (s.ports.src.bytes 6 4))) (s.addReads 2) := by
  have hsecond := (hr.addReads 1).readSrc_inside 6 4 (by decide) hl
  rw [State.fetchHeader, hr.readSrc_inside 0 6 (by decide) (by omega), hm]
  simp only [hsecond]
  rfl

end Header

/-- Settles O28: each clause is one equation of the fetch, and the last one runs HDR. -/
theorem headerPhase : Obligations.HeaderPhase := by
  intro s hreset hphase hr
  have hfetch := s.fetch_hdr hreset hphase
  refine ⟨fun hl => ?_, fun hl hm => ?_, fun hl hl' hm => ?_, fun hl hm => ?_⟩
  · exact step_of_quiet s _ (hfetch.trans (hr.fetchHeader_noMagic hl))
  · exact step_of_quiet s _ (hfetch.trans (hr.fetchHeader_badMagic hl hm))
  · exact step_of_quiet s _ (hfetch.trans (hr.fetchHeader_noOffset hl hl' hm))
  · exact step_of_run s _ _ (hfetch.trans (hr.fetchHeader_whole hl hm))

end Sys2Proof.Machine
end

section
/-! O30 and O32. A cap reached in strict mode: in either list one more probe is read, and it is the sentinel or an
error (R140, R146). The two fetches differ in the probe's length, the decoder and SUB only. -/

namespace Sys2Proof.Machine

/-- One more probe of `n` bytes after a full list: the sentinel is decoded, anything else is FormatError with `sub`. -/
def State.strictProbe (s : State) (n : Nat) (record : List Byte → Instr) (sub : BitVec 2) : Fetched :=
  match s.readSrc s.cursor n with
  | .raised s1 => .quiet s1
  | .bytes probe s1 =>
    if isSentinel probe then .run (record probe) (s1.setProbe probe)
    else .quiet ((s1.setProbe probe).raise .formatError sub)

section StrictProbe

variable {s : State} {n : Nat} {record : List Byte → Instr} {sub : BitVec 2}
  (hfetch : s.fetch = s.strictProbe n record sub) (hn : 4 ≤ n) (hr : s.Readable)
include hfetch hn hr

theorem step_strictProbe_truncated (hl : s.ports.src.len.val < s.cursor + n) :
    step s = .next ((s.addReads 1).raise .truncatedError 0) := by
  have hread := hr.readSrc_beyond s.cursor n (by omega) hl
  exact step_of_quiet s _ (hfetch.trans (by rw [State.strictProbe, hread]))

/-- The list ends as `record`'s sentinel ends it, on the state with the probe taken. -/
theorem step_strictProbe_sentinel (ending : State → State)
    (hend : ∀ q, isSentinel q = true → ∀ t, exec (record q) t = .next (ending t))
    (hl : s.cursor + n ≤ s.ports.src.len.val) (hs : s.ports.src.bytes s.cursor 4 = [0xFF, 0xFF, 0xFF, 0xFF]) :
    step s = .next (ending ((s.setProbe (s.ports.src.bytes s.cursor n)).addReads 1)) := by
  have hread := hr.readSrc_inside s.cursor n (by omega) hl
  have hsent := (isSentinel_bytes s.ports.src s.cursor n hn).mpr hs
  rw [State.strictProbe, hread] at hfetch
  exact (step_of_run s _ _ (hfetch.trans (if_pos hsent))).trans (hend _ hsent _)

theorem step_strictProbe_other (hl : s.cursor + n ≤ s.ports.src.len.val)
    (hs : s.ports.src.bytes s.cursor 4 ≠ [0xFF, 0xFF, 0xFF, 0xFF]) :
    step s = .next (((s.setProbe (s.ports.src.bytes s.cursor n)).addReads 1).raise .formatError sub) := by
  have hread := hr.readSrc_inside s.cursor n (by omega) hl
  have hsent := mt (isSentinel_bytes s.ports.src s.cursor n hn).mp hs
  rw [State.strictProbe, hread] at hfetch
  exact step_of_quiet s _ (hfetch.trans (if_neg hsent))

end StrictProbe

/-! ## The sentinel ends a list -/

theorem exec_entryRecord_sentinel (q : List Byte) (hs : isSentinel q = true) (s : State) :
    exec (decodeEntryRecord q) s = .next s.endEntryList := by
  rw [decodeEntryRecord, if_pos hs]
  rfl

theorem exec_blockRecord_sentinel (q : List Byte) (hs : isSentinel q = true) (s : State) :
    exec (decodeBlockRecord q) s = .next s.endBlockList := by
  rw [decodeBlockRecord, if_pos hs]
  rfl

/-! ## The cap reached -/

theorem State.fetchEntry_full (s : State) (hcap : s.cfg.entryCap.toNat ≤ s.store.ecnt.toNat) :
    s.fetchEntry = if s.cfg.strictCap then s.strictProbe 4 decodeEntryRecord 1 else .quiet s.endEntryList :=
  if_neg hcap.not_gt

theorem State.fetchBlock_full (s : State) (hcap : s.cfg.blockCap.toNat ≤ s.par.bcnt.toNat) :
    s.fetchBlock = if s.cfg.strictCap then s.strictProbe 6 decodeBlockRecord 2 else .quiet s.endBlockList :=
  if_neg hcap.not_gt

/-- Settles O30: in default mode no read, in strict mode the three ends of the probe. -/
theorem entryCapReached : Obligations.EntryCapReached := by
  intro s hreset hphase hcap src probed
  have hfetch := (s.fetch_entlist hreset hphase).trans (s.fetchEntry_full hcap)
  have hstrict (hc : s.cfg.strictCap = true) : s.fetch = s.strictProbe 4 decodeEntryRecord 1 :=
    hfetch.trans (if_pos hc)
  refine ⟨fun hc => ?_, fun hc hr hl => ?_, fun hc hr hl hs => ?_, fun hc hr hl hs => ?_⟩
  · exact step_of_quiet s _ (hfetch.trans (if_neg (ne_true_of_eq_false hc)))
  · exact step_strictProbe_truncated (hstrict hc) (by decide) hr hl
  · exact step_strictProbe_sentinel (hstrict hc) (by decide) hr _ exec_entryRecord_sentinel hl hs
  · exact step_strictProbe_other (hstrict hc) (by decide) hr hl hs

/-- Settles O32: as for the entry list, with the probe of six bytes. -/
theorem blockCapReached : Obligations.BlockCapReached := by
  intro s hreset hphase hcap src probed
  have hfetch := (s.fetch_blklist hreset hphase).trans (s.fetchBlock_full hcap)
  have hstrict (hc : s.cfg.strictCap = true) : s.fetch = s.strictProbe 6 decodeBlockRecord 2 :=
    hfetch.trans (if_pos hc)
  refine ⟨fun hc => ?_, fun hc hr hl => ?_, fun hc hr hl hs => ?_, fun hc hr hl hs => ?_⟩
  · exact step_of_quiet s _ (hfetch.trans (if_neg (ne_true_of_eq_false hc)))
  · exact step_strictProbe_truncated (hstrict hc) (by decide) hr hl
  · exact step_strictProbe_sentinel (hstrict hc) (by decide) hr _ exec_blockRecord_sentinel hl hs
  · exact step_strictProbe_other (hstrict hc) (by decide) hr hl hs

end Sys2Proof.Machine
end

section
/-! O22. KDB.DECODE's start (R131). -/

namespace Sys2Proof.Machine

/-- Settles O22: R131's test of SRC_AVAIL is the whole case split; the error is raised in phase CMD. -/
theorem kdbDecodeStarts : Obligations.KdbDecodeStarts := by
  intro s
  constructor
  · intro hav
    exact if_neg (by simp [hav])
  · intro hphase hav
    exact (if_pos hav).trans (by rw [s.raise_cmd hphase])

end Sys2Proof.Machine
end

section
/-! O24 and O26. The two records that commit to the result store: the caps and the cursor's 33 bits keep every sum an
integer (R138, R144). -/

namespace Sys2Proof.Machine

/-- A count below a 16-bit cap has room for one more. -/
theorem toNat_succ_of_lt {n cap : Half} (h : n.toNat < cap.toNat) : (n + 1).toNat = n.toNat + 1 := by
  have := cap.isLt
  bv_omega

/-- The cursor's 33 bits hold every offset up to 2^32 (R26). -/
theorem toNat_cursor_add_of_le {c k : Cursor} (h : c.toNat + k.toNat ≤ 2 ^ 32) :
    (c + k).toNat = c.toNat + k.toNat := by
  bv_omega

/-- Settles O24: the new entry is appended behind the ECNT entries there are; neither sum wraps. -/
theorem entCommitsAndAdvances : Obligations.EntCommitsAndAdvances := by
  intro s name blkoff hinv hcap hcur
  have hlen := hinv.store.count
  have hcount : (s.store.ecnt + 1).toNat = s.store.ecnt.toNat + 1 := toNat_succ_of_lt hcap
  refine ⟨s.commitEntry name blkoff, rfl, ?_, fun i hi => ?_, hcount, ?_, toNat_cursor_add_of_le hcur, rfl, rfl, rfl,
    rfl⟩
  · rw [← hlen]
    exact List.getElem?_concat_length
  · exact List.getElem?_append_left (hlen ▸ hi)
  · rw [State.commitEntry_store, List.length_append, hlen]
    exact hcount.symm

/-- Settles O26: the block is appended to entry EIDX, whose count of blocks BCNT is in phase BLKLIST. -/
theorem blkCommitsAndAdvances : Obligations.BlkCommitsAndAdvances := by
  intro s size dataoff e hinv hphase he hcap hcur
  obtain ⟨-, hcount⟩ : s.AtEntry ∧ s.par.bcnt = (s.entryAt s.par.eidx.toNat).nblk := by
    simpa only [State.Progress, hphase] using hinv.progress
  rw [s.entryAt_of_getElem? _ e he] at hcount
  have hentry := hinv.store.entries e (List.mem_of_getElem? he)
  refine ⟨s.commitBlock size dataoff, rfl, ?_, ?_, fun i hi => ?_, toNat_succ_of_lt hcap, toNat_cursor_add_of_le hcur,
    rfl, rfl, rfl, rfl, rfl⟩
  · refine (s.getElem?_modifyEntry _ _ _).trans ?_
    rw [if_pos rfl, he]
    rfl
  · rw [hcount, hentry.count]
  · exact (s.getElem?_modifyEntry _ _ _).trans (if_neg hi)

end Sys2Proof.Machine
end

section
/-! O35. KDB.FIND (R154 to R156): under the invariant the entries searched are the store's list, and the first
match in it decides. -/

namespace Sys2Proof.Machine

theorem Entry.named_iff (e : Entry) : e.named = true ↔ e.name.take 5 = Config.findPrefix := beq_iff_eq

/-- Under the invariant every entry held has meaning. -/
theorem Store.Inv.entries_eq {cfg : Configuration} {st : Store} (h : st.Inv cfg) : st.entries = st.ent :=
  List.take_of_length_le h.count.le

/-- No entry is named MAGIC...: none is found. -/
theorem Store.Inv.firstNamed_eq_none {cfg : Configuration} {st : Store} (h : st.Inv cfg)
    (hall : ∀ (i : Nat) (e : Entry), st.ent[i]? = some e → e.name.take 5 ≠ Config.findPrefix) :
    st.firstNamed = none := by
  rw [Store.firstNamed, h.entries_eq, List.findIdx?_eq_none_iff]
  intro e he
  obtain ⟨i, hi⟩ := List.getElem?_of_mem he
  exact Bool.eq_false_iff.mpr (mt e.named_iff.mp (hall i e hi))

/-- The first entry named MAGIC... is the one found (R156). -/
theorem Store.Inv.firstNamed_eq_some {cfg : Configuration} {st : Store} (h : st.Inv cfg) (i : Nat) (e : Entry)
    (he : st.ent[i]? = some e) (hname : e.name.take 5 = Config.findPrefix)
    (hfirst : ∀ (j : Nat) (e' : Entry), j < i → st.ent[j]? = some e' → e'.name.take 5 ≠ Config.findPrefix) :
    st.firstNamed = some i := by
  obtain ⟨hi, rfl⟩ := List.getElem?_eq_some_iff.mp he
  rw [Store.firstNamed, h.entries_eq, List.findIdx?_eq_some_iff_getElem]
  refine ⟨hi, (Entry.named_iff _).mpr hname, fun j hj hnamed => ?_⟩
  exact hfirst j _ hj (List.getElem?_eq_getElem (hj.trans hi)) ((Entry.named_iff _).mp hnamed)

theorem exec_kdbFind_none (s : State) (h : s.store.firstNamed = none) :
    exec .kdbFind s = .next (s.raise .noSignatureFound 0) := by
  rw [exec, execKdbFind, h]

/-- The first match decides by RESOLVED (R154, R156). -/
theorem exec_kdbFind_some (s : State) (i : Nat) (e : Entry) (h : s.store.firstNamed = some i)
    (he : s.store.ent[i]? = some e) :
    exec .kdbFind s =
      .next (if e.resolved then s.respondOk e.payload (some (BitVec.ofNat 16 i)) else s.raise .noSignatureFound 0) := by
  rw [exec, execKdbFind, h]
  simp only [s.entryAt_of_getElem? i e he]
  split <;> rfl

/-- Settles O35: what is found under the invariant, then the response of each case. -/
theorem kdbFindAnswersTheFirstMatch : Obligations.KdbFindAnswersTheFirstMatch := by
  intro s hinv hphase
  constructor
  · intro hall
    rw [exec_kdbFind_none s (hinv.store.firstNamed_eq_none hall), s.raise_cmd hphase]
  · intro i e he hname hfirst
    have hfound := exec_kdbFind_some s i e (hinv.store.firstNamed_eq_some i e he hname hfirst) he
    constructor
    · intro hres
      rw [hfound, if_pos hres]
      rfl
    · intro hres
      rw [hfound, if_neg (ne_true_of_eq_false hres), s.raise_cmd hphase]

end Sys2Proof.Machine
end

section
/-! O34. Phase DEC (R149): the payload goes to entry EIDX, then the next entry begins or the command is over (R150,
R151). -/

namespace Sys2Proof.Machine

/-! ## The payload -/

/-- Entry EIDX with its payload, KSG as the keystream operation leaves it: phase DEC before it moves on. -/
def State.withPayload (s : State) : State :=
  { s.modifyEntry s.par.eidx.toNat fun e =>
      e.resolve (xorBytes s.par.cbuf (keystream s.par.tlen.toNat s.cfg.kdbSeed)) s.par.tlen with
    ksg := { S := lfsrStages (8 * s.par.tlen.toNat) s.cfg.kdbSeed, bitcnt := 0, kcnt := 0 } }

/-- KSG's unit refines R105's function, so phase DEC is `withPayload` and the move to the next entry. -/
theorem State.decipher_eq (s : State) : s.decipher = s.withPayload.nextEntry := by
  simp only [State.decipher, genKeystream_eq]
  rfl

theorem State.getElem?_withPayload_here (s : State) (e : Entry) (he : s.store.ent[s.par.eidx.toNat]? = some e) :
    s.withPayload.store.ent[s.par.eidx.toNat]? =
      some (e.resolve (xorBytes s.par.cbuf (keystream s.par.tlen.toNat s.cfg.kdbSeed)) s.par.tlen) := by
  refine (s.getElem?_modifyEntry _ _ _).trans ?_
  rw [if_pos rfl, he]
  rfl

theorem State.getElem?_withPayload_other (s : State) (i : Nat) (hi : i ≠ s.par.eidx.toNat) :
    s.withPayload.store.ent[i]? = s.store.ent[i]? :=
  (s.getElem?_modifyEntry _ _ _).trans (if_neg hi)

theorem State.length_withPayload (s : State) : s.withPayload.store.ent.length = s.store.ent.length :=
  List.length_modify _ _ _

/-! ## On to the next entry -/

@[simp] theorem State.nextEntry_store (s : State) : s.nextEntry.store = s.store := by
  rcases s.nextEntry_cases with ⟨-, h⟩ | ⟨-, h⟩ <;> rw [h] <;> rfl

@[simp] theorem State.nextEntry_ksg (s : State) : s.nextEntry.ksg = s.ksg := by
  rcases s.nextEntry_cases with ⟨-, h⟩ | ⟨-, h⟩ <;> rw [h] <;> rfl

theorem State.nextEntry_of_more (s : State) (h : s.par.eidx.toNat + 1 < s.store.ecnt.toNat) :
    s.nextEntry = s.startEntry (s.par.eidx + 1) :=
  if_pos h

theorem State.nextEntry_of_last (s : State) (h : s.store.ecnt.toNat ≤ s.par.eidx.toNat + 1) :
    s.nextEntry = s.respondOk [] none :=
  if_neg h.not_gt

/-- The seek to an entry's block list (R141). -/
theorem State.startEntry_cursor (s : State) (i : Half) (e : Entry) (he : s.store.ent[i.toNat]? = some e) :
    (s.startEntry i).cursor = e.blkoff.toNat := by
  rw [State.cursor, State.startEntry_par, s.entryAt_of_getElem? _ e he]
  exact BitVec.toNat_setWidth_of_le (by decide)

/-- Settles O34: the store is `withPayload`'s whatever comes next; EIDX + 1 does not wrap below ECNT. -/
theorem decipherPhase : Obligations.DecipherPhase := by
  intro s e hinv hreset hphase he
  have hstep : step s = .next s.withPayload.nextEntry := by
    rw [step_of_quiet s _ (s.fetch_dec hreset hphase), s.decipher_eq]
  refine ⟨_, hstep, ?_, fun i hi => ?_, ?_, ?_, ?_, ?_, fun hmore => ?_, fun hlast => ?_⟩
  · rw [State.nextEntry_store, s.getElem?_withPayload_here e he]
    rfl
  · rw [State.nextEntry_store, s.getElem?_withPayload_other i hi]
  · rw [State.nextEntry_store]; rfl
  · rw [State.nextEntry_store]; rfl
  · rw [State.nextEntry_store]; rfl
  · rw [State.nextEntry_ksg]; rfl
  · have hidx : (s.par.eidx + 1).toNat = s.par.eidx.toNat + 1 := toNat_succ_of_lt (cap := s.store.ecnt) (by omega)
    rw [s.withPayload.nextEntry_of_more hmore]
    refine ⟨rfl, hidx, rfl, rfl, fun e' he' => ?_⟩
    apply State.startEntry_cursor
    rw [show s.withPayload.par.eidx + 1 = s.par.eidx + 1 from rfl, hidx, s.getElem?_withPayload_other _ (by omega), he']
  · rw [s.withPayload.nextEntry_of_last hlast.ge]
    exact ⟨rfl, rfl, rfl⟩

end Sys2Proof.Machine
end

section
/-! O56. KDB.DECODE responds OK at two places only: the end of an empty entry list and the decipher pass of the last
entry (R136, R151). At the first there is no entry, at the second every other entry is resolved already (R150). -/

namespace Sys2Proof.Machine

/-! ## What ends with OK -/

/-- No command in progress and no error recorded: what a response OK leaves. -/
def State.EndsOk (t : State) : Prop :=
  t.phase = .idle ∧ t.status.err = .ok

theorem State.not_endsOk_raise (s : State) (e : Err) (sub : BitVec 2) : ¬ (s.raise e sub).EndsOk :=
  fun h => Response.noConfusion h.2

theorem State.not_endsOk_of_phase {t : State} {ph : Phase} (h : t.phase = ph) (hne : ph ≠ .idle) : ¬ t.EndsOk :=
  fun hok => hne (h.symm.trans hok.1)

/-- The list's end is the command's end only without an entry. -/
theorem State.endEntryList_of_endsOk (s : State) (h : s.endEntryList.EndsOk) :
    s.store.ecnt.toNat = 0 ∧ s.endEntryList = s.respondOk [] none := by
  rcases s.endEntryList_cases with ⟨-, hend⟩ | hend
  · rw [hend] at h
    exact absurd h (State.not_endsOk_of_phase (s.startEntry_phase 0) (by decide))
  · exact hend

/-- An entry's end is the command's end only at the last entry. -/
theorem State.nextEntry_of_endsOk (s : State) (h : s.nextEntry.EndsOk) :
    s.store.ecnt.toNat ≤ s.par.eidx.toNat + 1 ∧ s.nextEntry = s.respondOk [] none := by
  rcases s.nextEntry_cases with ⟨-, hnext⟩ | hnext
  · rw [hnext] at h
    exact absurd h (State.not_endsOk_of_phase (s.startEntry_phase _) (by decide))
  · exact hnext

/-! ## Phase by phase -/

theorem State.readSrc_bytes_phase {s s' : State} {addr n : Nat} {q : List Byte}
    (h : s.readSrc addr n = .bytes q s') : s'.phase = s.phase := by
  rcases s.readSrc_cases addr n with ⟨-, hr⟩ | ⟨-, -, -, hr⟩ | ⟨-, -, -, hr⟩ | ⟨-, -, hr⟩ <;>
    rw [hr] at h <;> cases h <;> rfl

theorem State.readSrc_raised {s s' : State} {addr n : Nat} (h : s.readSrc addr n = .raised s') :
    ∃ e, s' = (s.addReads 1).raise e 0 := by
  rcases s.readSrc_cases addr n with ⟨-, hr⟩ | ⟨-, -, -, hr⟩ | ⟨-, -, -, hr⟩ | ⟨-, -, hr⟩ <;>
    rw [hr] at h <;> cases h <;> exact ⟨_, rfl⟩

theorem State.not_endsOk_gather (s : State) (hphase : s.phase = .data) : ¬ s.gather.EndsOk := by
  rcases s.gather_cases with ⟨-, h⟩ | ⟨b, q, s', -, hread, h⟩ | ⟨b, s', -, hread, h⟩ <;> rw [h]
  · exact State.not_endsOk_of_phase (ph := .dec) rfl (by decide)
  · exact State.not_endsOk_of_phase ((State.readSrc_bytes_phase hread).trans hphase) (by decide)
  · obtain ⟨e, rfl⟩ := State.readSrc_raised hread
    exact State.not_endsOk_raise _ e 0

section Steps

variable {s t : State} (hreset : s.resetIn = false) (hstep : step s = .next t)
include hreset hstep

theorem not_endsOk_step_hdr (hphase : s.phase = .hdr) : ¬ t.EndsOk := by
  rw [step, s.fetch_hdr hreset hphase] at hstep
  rcases s.fetchHeader_cases with ⟨e, k, -, -, h⟩ | ⟨-, -, h⟩ | ⟨-, -, h⟩ <;> rw [h] at hstep <;> cases hstep
  · exact State.not_endsOk_raise _ e 0
  · exact State.not_endsOk_raise _ .formatError 0
  · exact State.not_endsOk_of_phase (ph := .entlist) rfl (by decide)

theorem not_endsOk_step_blklist (hphase : s.phase = .blklist) : ¬ t.EndsOk := by
  rw [step, s.fetch_blklist hreset hphase] at hstep
  rcases s.fetchBlock_cases with ⟨-, hf⟩ | ⟨-, -, hf⟩ | ⟨-, -, hf⟩ <;> rw [hf] at hstep
  · rcases s.fetchBlockRecord_cases with ⟨e, -, h⟩ | ⟨-, -, h⟩ | ⟨-, -, h⟩ <;> rw [h] at hstep <;> cases hstep
    · exact State.not_endsOk_raise _ e 0
    · exact State.not_endsOk_of_phase (ph := .data) rfl (by decide)
    · exact State.not_endsOk_of_phase hphase (by decide)
  · rcases s.fetchBlockAtCap_cases with ⟨e, -, h⟩ | ⟨-, -, h⟩ | ⟨-, -, h⟩ <;> rw [h] at hstep <;> cases hstep
    · exact State.not_endsOk_raise _ e 0
    · exact State.not_endsOk_of_phase (ph := .data) rfl (by decide)
    · exact State.not_endsOk_raise _ .formatError 2
  · cases hstep
    exact State.not_endsOk_of_phase (ph := .data) rfl (by decide)

/-- In phase ENTLIST only the end of the list can respond OK: a record keeps the phase and an error is one. -/
theorem endsOk_step_entlist (hphase : s.phase = .entlist) (hok : t.EndsOk) :
    ∃ u : State, u.store = s.store ∧ t = u.endEntryList := by
  rw [step, s.fetch_entlist hreset hphase] at hstep
  rcases s.fetchEntry_cases with ⟨-, hf⟩ | ⟨-, -, hf⟩ | ⟨-, -, hf⟩ <;> rw [hf] at hstep
  · rcases s.fetchEntryRecord_cases with ⟨e, -, h⟩ | ⟨-, -, h⟩ | ⟨e, k, -, -, -, -, h⟩ | ⟨-, -, h⟩ <;>
      rw [h] at hstep <;> cases hstep
    · exact absurd hok (State.not_endsOk_raise _ e 0)
    · exact ⟨s.probed _ 1, rfl, rfl⟩
    · exact absurd hok (State.not_endsOk_raise _ e 0)
    · exact absurd hok (State.not_endsOk_of_phase hphase (by decide))
  · rcases s.fetchEntryAtCap_cases with ⟨e, -, h⟩ | ⟨-, -, h⟩ | ⟨-, -, h⟩ <;> rw [h] at hstep <;> cases hstep
    · exact absurd hok (State.not_endsOk_raise _ e 0)
    · exact ⟨s.probed _ 1, rfl, rfl⟩
    · exact absurd hok (State.not_endsOk_raise _ .formatError 1)
  · cases hstep
    exact ⟨s, rfl, rfl⟩

/-- The two places where KDB.DECODE responds OK after its start. -/
theorem endsOk_cases (hidle : s.phase ≠ .idle) (hcmd : s.phase ≠ .cmd) (hok : t.EndsOk) :
    (s.phase = .entlist ∧ s.store.ecnt.toNat = 0 ∧ t.store = s.store ∧ t.status = Status.okay) ∨
    (s.phase = .dec ∧ s.store.ecnt.toNat ≤ s.par.eidx.toNat + 1 ∧ t.store = s.withPayload.store ∧
      t.status = Status.okay) := by
  cases hphase : s.phase with
  | idle => exact absurd hphase hidle
  | cmd => exact absurd hphase hcmd
  | hdr => exact absurd hok (not_endsOk_step_hdr hreset hstep hphase)
  | blklist => exact absurd hok (not_endsOk_step_blklist hreset hstep hphase)
  | data =>
    rw [step_of_quiet s _ (s.fetch_data hreset hphase)] at hstep
    cases hstep
    exact absurd hok (s.not_endsOk_gather hphase)
  | entlist =>
    obtain ⟨u, hstore, rfl⟩ := endsOk_step_entlist hreset hstep hphase hok
    obtain ⟨hnone, hend⟩ := u.endEntryList_of_endsOk hok
    rw [hend]
    exact .inl ⟨rfl, hstore ▸ hnone, hstore, rfl⟩
  | dec =>
    rw [step_of_quiet s _ (s.fetch_dec hreset hphase), s.decipher_eq] at hstep
    cases hstep
    obtain ⟨hlast, hend⟩ := s.withPayload.nextEntry_of_endsOk hok
    rw [hend]
    exact .inr ⟨rfl, hlast, rfl, rfl⟩

end Steps

/-! ## The last entry -/

/-- With the payload of the last entry in place every entry is resolved: those before it were, and none is after. -/
theorem State.AtEntry.resolved_withPayload {s : State} (hat : s.AtEntry)
    (hlen : s.store.ent.length = s.store.ecnt.toNat) (hlast : s.store.ecnt.toNat ≤ s.par.eidx.toNat + 1)
    (i : Nat) (e : Entry) (he : s.withPayload.store.ent[i]? = some e) : e.resolved = true := by
  have hhere := hat.index
  have hi : i < s.store.ent.length := s.length_withPayload ▸ (List.getElem?_eq_some_iff.mp he).1
  rcases eq_or_ne i s.par.eidx.toNat with rfl | hne
  · rw [s.getElem?_withPayload_here _ (List.getElem?_eq_getElem hi)] at he
    cases he
    rfl
  · rw [s.getElem?_withPayload_other i hne] at he
    exact hat.before i e he (by omega)

/-- Settles O56: no entry at the end of an empty list, and every entry resolved after the last one. -/
theorem decodeOkResolvesEveryEntry : Obligations.DecodeOkResolvesEveryEntry := by
  intro s t hinv hreset hidle hcmd hstep htphase hterr
  have hlen := hinv.store.count
  have hprogress := hinv.progress
  rcases endsOk_cases hreset hstep hidle hcmd ⟨htphase, hterr⟩ with
    ⟨hphase, hnone, hstore, hstatus⟩ | ⟨hphase, hlast, hstore, hstatus⟩ <;>
    rw [State.Progress, hphase] at hprogress
  · obtain ⟨hhdrv, -⟩ := hprogress
    have hnil : s.store.ent = [] := List.length_eq_zero_iff.mp (hlen.trans hnone)
    rw [hstore]
    exact ⟨hhdrv, hstatus, hlen, fun i e he => by simp [hnil] at he⟩
  · obtain ⟨hat, -⟩ := hprogress
    rw [hstore]
    exact ⟨hat.header, hstatus, s.length_withPayload.trans hlen, hat.resolved_withPayload hlen hlast⟩

end Sys2Proof.Machine
end

section
/-! O37. The response OK writes the status group `Status.okay`; what R178 says of it by number is the three words of
R40, R41 and R42 at that group. -/

namespace Sys2Proof.Machine

/-- R40 with each field shifted into place: ERR from bit 4, HDRV at bit 1, BUSY at bit 0. -/
theorem State.statusWord_eq (s : State) :
    s.statusWord = (s.status.err.code.setWidth 32 <<< 4) ||| ((BitVec.ofBool s.store.hdrv).setWidth 32 <<< 1) |||
      (BitVec.ofBool s.status.busy).setWidth 32 := by
  unfold State.statusWord
  generalize s.status.err.code = err
  cases s.store.hdrv <;> cases s.status.busy <;> revert err <;> decide

section Okay
variable {s : State} (hok : s.status = Status.okay)
include hok

/-- R40 after OK: HDRV alone is left. -/
theorem State.statusWord_of_okay : s.statusWord = (BitVec.ofBool s.store.hdrv).setWidth 32 <<< 1 := by
  have herr : s.status.err.code = 0 := by rw [hok]; rfl
  have hbusy : s.status.busy = false := by rw [hok]; rfl
  rw [s.statusWord_eq, herr, hbusy]
  simp

/-- R41 after OK: no SUB, and IDLE, whose code is 0. -/
theorem State.errinfoWord_of_okay : s.errinfoWord = 0 := by
  rw [State.errinfoWord, hok]
  rfl

/-- R42 after OK: neither index. -/
theorem State.erridxWord_of_okay : s.erridxWord = 0 := by
  rw [State.erridxWord, hok]
  rfl

end Okay

/-- Settles O37: the three words at the status group that OK writes; the rest are the fields OK writes or keeps. -/
theorem respondOkClearsTheStatusGroup : Obligations.RespondOkClearsTheStatusGroup := by
  intro s out idx t
  have hok : t.status = Status.okay := s.respondOk_status out idx
  refine ⟨?status, ?errinfo, ?erridx, s.respondOk_phase out idx, s.respondOk_delivery out idx,
    s.respondOk_store out idx, s.respondOk_cfg out idx, s.respondOk_ports out idx, s.respondOk_waiting out idx⟩
  case status => exact congrArg some (State.statusWord_of_okay hok)
  case errinfo => exact congrArg some (State.errinfoWord_of_okay hok)
  case erridx => exact congrArg some (State.erridxWord_of_okay hok)

end Sys2Proof.Machine
end

section
/-! O46 and O47. A step with reset asserted leaves a quiescent block, whatever ran; and a quiescent block accepts the
command presented to it in one step and gives it its meaning in the next. -/

namespace Sys2Proof.Machine

/-! ## Reset -/

/-- The next step takes the reset, in every phase (R200). -/
theorem step_assertReset (s : State) : step s.assertReset = .next s.applyReset :=
  step_of_quiet _ _ (s.assertReset.fetch_reset s.assertReset_resetIn)

theorem State.applyReset_quiescent (s : State) : s.applyReset.Quiescent :=
  ⟨s.applyReset_phase, rfl, s.applyReset_waiting, s.applyReset_resetIn⟩

/-- `State.reset` is what a reset leaves at the default configuration. -/
theorem State.reset_quiescent : State.reset.Quiescent :=
  State.reset.applyReset_quiescent

theorem State.readEntry_eq_none_of_ecnt {s : State} (h : s.store.ecnt.toNat = 0) (i : Nat) : s.readEntry i = none :=
  if_neg (h ▸ Nat.not_lt_zero i)

/-! ## A command from a quiescent block -/

theorem State.present_of_none {s : State} (h : s.waiting = none) (p : Ports) :
    s.present p = { s with waiting := some p } := by
  unfold State.present
  rw [h]

/-- Acceptance (R205): an idle block with BUSY 0 takes the command waiting at its port. -/
theorem step_accept {s : State} {p : Ports} (hreset : s.resetIn = false) (hphase : s.phase = .idle)
    (hbusy : s.status.busy = false) (hwait : s.waiting = some p) : step s = .next (s.accept p) := by
  rw [step_of_quiet s _ (s.fetch_idle hreset hphase), State.idleStep, hbusy, hwait]

section Quiescent

variable {s : State} (hq : s.Quiescent)
include hq

/-- The port is free and BUSY is 0, so the command presented is the one accepted. -/
theorem State.Quiescent.step_present (p : Ports) : step (s.present p) = .next (s.accept p) := by
  rw [s.present_of_none hq.waiting]
  exact step_accept (s := { s with waiting := some p }) hq.resetIn hq.phase hq.busy rfl

/-- Accepted, then executed: two steps take a presented command to the outcome of its meaning. -/
theorem State.Quiescent.run_present (p : Ports) {t : State}
    (h : exec (decodeCommand p.cmd) (s.accept p) = .next t) : Host.Core.run core 2 (s.present p) = .next t := by
  have hexec : step (s.accept p) = .next t :=
    (step_of_run _ _ _ ((s.accept p).fetch_cmd hq.resetIn (s.accept_phase p))).trans h
  rw [run_succ_of_step 1 (hq.step_present p), run_succ_of_step 0 hexec]
  rfl

end Quiescent

/-- Settles O46: the step taken is `applyReset`, which leaves a quiescent block, and such a block accepts. -/
theorem resetAppliesAtAnyTime : Obligations.ResetAppliesAtAnyTime := by
  intro s p
  have haccept : step (s.applyReset.present p) = .next (s.applyReset.accept p) :=
    s.applyReset_quiescent.step_present p
  exact ⟨s.applyReset, step_assertReset s, s.applyReset_phase, s.applyReset_status, rfl, rfl, s.applyReset_delivery,
    s.applyReset_resetIn, s.applyReset_cfg, State.readEntry_eq_none_of_ecnt rfl,
    s.applyReset.accept p, haccept, State.accept_phase _ p, rfl, fun _ => State.accept_ports _ p⟩

/-! ## The commands after reset -/

/-- No entry has meaning while ECNT is 0, so none is named. -/
theorem Store.firstNamed_eq_none_of_ecnt {st : Store} (h : st.ecnt.toNat = 0) : st.firstNamed = none := by
  rw [Store.firstNamed, Store.entries, h]
  rfl

/-- XOR.APPLY on operands handed over whole (R121). -/
theorem exec_xorApply_of_whole (s : State) (hd : s.ports.dlen.getLsbD 31 = false) (hk : s.ports.klen = s.ports.dlen)
    (hdata : s.ports.dataIn.length = s.ports.dlen.toNat) (hkey : s.ports.ksIn.length = s.ports.klen.toNat) :
    exec .xorApply s = .next (s.respondOk (xorBytes s.ports.dataIn s.ports.ksIn) none) := by
  have hsigns : (lengthNegative s.ports.dlen || lengthNegative s.ports.klen) = false :=
    Bool.or_eq_false_iff.mpr ⟨hd, hk ▸ hd⟩
  have hdop : s.dataOperand = s.ports.dataIn := portBytes_whole _ _ _ hdata
  have hkop : s.keyOperand = s.ports.ksIn := portBytes_whole _ _ _ hkey
  rw [exec, execXorApply, if_neg (ne_true_of_eq_false hsigns), if_neg (not_not_intro hk.symm), hdop, hkop]

/-- A number below 2^31 is no negative length (R11). -/
theorem getLsbD_top_ofNat {n : Nat} (h : n < 2 ^ 31) : (BitVec.ofNat 32 n).getLsbD 31 = false := by
  rw [BitVec.getLsbD_ofNat, Nat.testBit_lt_two_pow h, Bool.and_false]

/-- Settles O47: reset leaves a quiescent block with ECNT 0, and each command is run on it to its outcome. -/
theorem commandsAfterReset : Obligations.CommandsAfterReset := by
  have hq : State.reset.Quiescent := State.reset_quiescent
  refine ⟨?find, ?gen, ?xor⟩
  case find =>
    have hnone : (State.reset.accept HostCommand.kdbFind.ports).store.firstNamed = none :=
      Store.firstNamed_eq_none_of_ecnt rfl
    exact ⟨_, hq.run_present _ (exec_kdbFind_none _ hnone), State.raise_delivery _ _ _, rfl⟩
  case gen =>
    intro len seed hlen
    exact ⟨_, hq.run_present _ (exec_ksGen_of_nonneg _ hlen), State.respondOk_delivery _ _ _⟩
  case xor =>
    intro data ks hsame hshort
    have hdata : data.length = (BitVec.ofNat 32 data.length).toNat := by
      rw [BitVec.toNat_ofNat, Nat.mod_eq_of_lt (hshort.trans (by decide))]
    have hks : BitVec.ofNat 32 ks.length = BitVec.ofNat 32 data.length := by rw [hsame]
    have hkey : ks.length = (BitVec.ofNat 32 ks.length).toNat := hsame ▸ hdata
    exact ⟨_, hq.run_present _ (exec_xorApply_of_whole _ (getLsbD_top_ofNat hshort) hks hdata hkey),
      State.respondOk_delivery _ _ _⟩

end Sys2Proof.Machine
end

section
/-! O2 and O3. Decoding and encoding are inverse to each other: record by record, a well-formed instruction is read back
from its bytes, and the bytes read as one are its encoding. -/

namespace Sys2Proof

/-! ## The sentinel among the fields of a record (R85) -/

theorem isSentinel_eq_false_iff (q : List Byte) (h : 4 ≤ q.length) :
    isSentinel q = false ↔ q.take 4 ≠ [0xFF, 0xFF, 0xFF, 0xFF] := by
  rw [← Bool.not_eq_true, isSentinel_iff q h]

/-- The names an ENT can have are those of 16 bytes that are no sentinel (R77). -/
theorem nameExpressible_iff (name : List Byte) :
    nameExpressible name = true ↔ name.length = 16 ∧ isSentinel name = false := by
  rw [nameExpressible, Bool.and_eq_true, beq_iff_eq, bne_iff_ne]
  exact and_congr_right fun hlen => (isSentinel_eq_false_iff name (by omega)).symm

theorem le16_bytesOf16_self (v : Half) : le16 (bytesOf16 v) = v := le16_bytesOf16 v []

theorem le32_bytesOf32_self (v : Word) : le32 (bytesOf32 v) = v := le32_bytesOf32 v []

theorem bytesOf16_inj {v w : Half} : bytesOf16 v = bytesOf16 w ↔ v = w :=
  ⟨fun h => by rw [← le16_bytesOf16_self v, h, le16_bytesOf16_self], congrArg _⟩

theorem take_bytesOf32 (v : Word) : (bytesOf32 v).take 2 = bytesOf16 (v.setWidth 16) := by
  simp only [bytesOf32, bytesOf16, List.take_succ_cons, List.take_zero, List.cons.injEq, and_true]
  constructor <;> ext i hi <;> simp <;> omega

/-- A block record is the sentinel at one pair of fields only. -/
theorem isSentinel_block (size : Half) (dataoff : Word) :
    isSentinel (bytesOf16 size ++ bytesOf32 dataoff) = !blockExpressible size dataoff := by
  have htake : (bytesOf16 size ++ bytesOf32 dataoff).take 4 = bytesOf16 size ++ bytesOf16 (dataoff.setWidth 16) := by
    rw [← take_bytesOf32]
    rfl
  have hsent : ([0xFF, 0xFF, 0xFF, 0xFF] : List Byte) = bytesOf16 0xFFFF ++ bytesOf16 0xFFFF := by decide
  rw [blockExpressible, Bool.not_not, Bool.eq_iff_iff, isSentinel_iff _ (by simp), htake, hsent, Bool.and_eq_true,
    beq_iff_eq, beq_iff_eq, ← bytesOf16_inj, ← bytesOf16_inj]
  exact ⟨fun h => List.append_inj h rfl, fun ⟨h, h'⟩ => by rw [h, h']⟩

/-! ## Decoding what was encoded -/

theorem illegalCode_iff (op : Byte) :
    illegalCode op = true ↔ op ≠ 0x01 ∧ op ≠ 0x02 ∧ op ≠ 0x03 ∧ op ≠ 0x04 := by
  simp only [illegalCode, Bool.and_eq_true, bne_iff_ne, and_assoc]

/-- A code that none of the four commands has decodes to CMD.ILLEGAL (R73). -/
theorem decodeCommand_of_illegalCode (op : Byte) (h : illegalCode op = true) : decodeCommand op = .cmdIllegal op := by
  obtain ⟨h1, h2, h3, h4⟩ := (illegalCode_iff op).mp h
  exact Machine.decodeCommand_of_illegal op h1 h2 h3 h4

theorem decode_command_cons (op : Byte) (rest : List Byte) :
    decode .command (op :: rest) = .ok (decodeCommand op, rest) := rfl

theorem decode_header_magic (off rest : List Byte) (h : off.length = 4) :
    decode .header (Config.magic ++ off ++ rest) = .ok (.hdr (le32 off), rest) := by
  obtain ⟨a, b, c, d, rfl⟩ := List.length_eq_four.mp h
  rfl

theorem decode_entryList_sentinel (probe rest : List Byte) (h : probe.length = 4) (hs : isSentinel probe = true) :
    decode .entryList (probe ++ rest) = .ok (.entEnd, rest) := by
  have hs' : isSentinel (probe ++ rest) = true := by
    rw [← isSentinel_take _ 4 (Nat.le_refl 4), ← h, List.take_left, hs]
  have hlen : ¬ (probe ++ rest).length < 4 := by simp; omega
  rw [decode, if_neg hlen, if_pos hs', List.take_left' h, List.drop_left' h, decodeEntryRecord, if_pos hs]

theorem decode_entryList_entry (name off rest : List Byte) (hn : name.length = 16) (ho : off.length = 4)
    (hs : isSentinel name = false) :
    decode .entryList (name ++ off ++ rest) = .ok (.ent name (le32 off), rest) := by
  have hlen : (name ++ off).length = 20 := by simp [hn, ho]
  have hs20 : isSentinel (name ++ off) = false := by
    rw [← isSentinel_take _ 16 (by decide), List.take_left' hn, hs]
  have hs' : isSentinel (name ++ off ++ rest) = false := by
    rw [← isSentinel_take _ 20 (by decide), List.take_left' hlen, hs20]
  have hl4 : ¬ (name ++ off ++ rest).length < 4 := by simp; omega
  have hl20 : ¬ (name ++ off ++ rest).length < 20 := by simp; omega
  rw [decode, if_neg hl4, if_neg (ne_true_of_eq_false hs'), if_neg hl20, List.take_left' hlen, List.drop_left' hlen,
    decodeEntryRecord, if_neg (ne_true_of_eq_false hs20), List.take_left' hn, List.drop_left' hn]

theorem decode_blockList_six (q rest : List Byte) (h : q.length = 6) :
    decode .blockList (q ++ rest) = .ok (decodeBlockRecord q, rest) := by
  have hlen : ¬ (q ++ rest).length < 6 := by simp; omega
  rw [decode, if_neg hlen, List.take_left' h, List.drop_left' h]

theorem decodeBlockRecord_encode_blkEnd (ignored : Half) :
    decodeBlockRecord (encode (.blkEnd ignored)) = .blkEnd ignored := by
  have hs : isSentinel (bytesOf32 Config.sentinel ++ bytesOf16 ignored) = true := by
    rw [isSentinel, le32_bytesOf32, beq_self_eq_true]
  rw [encode, decodeBlockRecord, if_pos hs, List.drop_left' (length_bytesOf32 _), le16_bytesOf16_self]

theorem decodeBlockRecord_encode_blk (size : Half) (dataoff : Word) (h : blockExpressible size dataoff = true) :
    decodeBlockRecord (encode (.blk size dataoff)) = .blk size dataoff := by
  have hs : isSentinel (bytesOf16 size ++ bytesOf32 dataoff) = false := by rw [isSentinel_block, h]; rfl
  rw [encode, decodeBlockRecord, if_neg (ne_true_of_eq_false hs), List.drop_left' (length_bytesOf16 _),
    le32_bytesOf32_self, le16_bytesOf16]

/-- Settles O2: at each position the encoding is taken apart at the record's length. -/
theorem encodingRoundTrip : Obligations.EncodingRoundTrip := by
  intro i rest hwf
  cases i with
  | ksGen | xorApply | kdbDecode | kdbFind => rfl
  | cmdIllegal op => exact (decode_command_cons op rest).trans (by rw [decodeCommand_of_illegalCode op hwf])
  | hdr eloff => exact (decode_header_magic (bytesOf32 eloff) rest rfl).trans (by rw [le32_bytesOf32_self])
  | entEnd => exact decode_entryList_sentinel _ rest rfl rfl
  | ent name blkoff =>
    obtain ⟨hlen, hs⟩ := (nameExpressible_iff name).mp hwf
    exact (decode_entryList_entry name (bytesOf32 blkoff) rest hlen rfl hs).trans (by rw [le32_bytesOf32_self])
  | blkEnd ignored =>
    exact (decode_blockList_six _ rest rfl).trans (by rw [decodeBlockRecord_encode_blkEnd])
  | blk size dataoff =>
    exact (decode_blockList_six _ rest rfl).trans (by rw [decodeBlockRecord_encode_blk size dataoff hwf])

/-! ## Encoding what was decoded -/

/-- What a decoded instruction has to be for its bytes to be no others (O3). -/
def Instr.Encodes (i : Instr) (p : Position) (q : List Byte) : Prop :=
  encode i = q ∧ i.wf = true ∧ i.position = p

theorem decodeCommand_encodes (op : Byte) : (decodeCommand op).Encodes .command [op] := by
  unfold decodeCommand
  split_ifs with h1 h2 h3 h4
  · exact ⟨by rw [h1]; rfl, rfl, rfl⟩
  · exact ⟨by rw [h2]; rfl, rfl, rfl⟩
  · exact ⟨by rw [h3]; rfl, rfl, rfl⟩
  · exact ⟨by rw [h4]; rfl, rfl, rfl⟩
  · exact ⟨rfl, (illegalCode_iff op).mpr ⟨h1, h2, h3, h4⟩, rfl⟩

theorem decodeHeaderRecord_encodes (q : List Byte) (hlen : q.length = 10) (hm : q.take 6 = Config.magic) :
    (decodeHeaderRecord q).Encodes .header q := by
  refine ⟨?_, rfl, rfl⟩
  rw [decodeHeaderRecord, encode, bytesOf32_le32 _ (by simp [hlen]), ← hm, List.take_append_drop]

theorem bytesOf32_sentinel (q : List Byte) (hlen : q.length = 4) (hs : isSentinel q = true) :
    bytesOf32 Config.sentinel = q := by
  rw [isSentinel, beq_iff_eq] at hs
  rw [← hs, bytesOf32_le32 q hlen]

theorem entEnd_encodes (q : List Byte) (hlen : q.length = 4) (hs : isSentinel q = true) :
    (decodeEntryRecord q).Encodes .entryList q := by
  rw [decodeEntryRecord, if_pos hs]
  exact ⟨bytesOf32_sentinel q hlen hs, rfl, rfl⟩

theorem ent_encodes (q : List Byte) (hlen : q.length = 20) (hs : isSentinel q = false) :
    (decodeEntryRecord q).Encodes .entryList q := by
  rw [decodeEntryRecord, if_neg (ne_true_of_eq_false hs)]
  refine ⟨?_, (nameExpressible_iff _).mpr ⟨by simp [hlen], ?_⟩, rfl⟩
  · rw [encode, bytesOf32_le32 _ (by simp [hlen]), List.take_append_drop]
  · rw [isSentinel_take q 16 (by decide), hs]

/-- The six bytes at a block-list position: every one of them is kept, the ignored ones too. -/
theorem decodeBlockRecord_encodes (q : List Byte) (hlen : q.length = 6) :
    (decodeBlockRecord q).Encodes .blockList q := by
  cases hs : isSentinel q with
  | true =>
    rw [decodeBlockRecord, if_pos hs]
    refine ⟨?_, rfl, rfl⟩
    rw [encode, bytesOf32_sentinel (q.take 4) (by simp [hlen]) (by rw [isSentinel_take q 4 (Nat.le_refl 4), hs]),
      bytesOf16_le16 _ (by simp [hlen]), List.take_append_drop]
  | false =>
    have hbytes : bytesOf16 (le16 q) ++ bytesOf32 (le32 (q.drop 2)) = q := by
      rw [← le16_take q 2 (Nat.le_refl 2), bytesOf16_le16 _ (by simp [hlen]), bytesOf32_le32 _ (by simp [hlen]),
        List.take_append_drop]
    rw [decodeBlockRecord, if_neg (ne_true_of_eq_false hs)]
    refine ⟨hbytes, ?_, rfl⟩
    have hexp := isSentinel_block (le16 q) (le32 (q.drop 2))
    rw [hbytes, hs, eq_comm, Bool.not_eq_false'] at hexp
    exact hexp

/-- A first part that encodes an instruction, and what is left. -/
theorem Instr.Encodes.append_drop {i : Instr} {p : Position} {q : List Byte} {n : Nat}
    (h : i.Encodes p (q.take n)) : q = encode i ++ q.drop n ∧ i.wf = true ∧ i.position = p := by
  obtain ⟨henc, hwf, hpos⟩ := h
  exact ⟨by rw [henc, List.take_append_drop], hwf, hpos⟩

/-- Settles O3: each answer of the decoder is a record of the bytes taken, and the rest is what it drops. -/
theorem decodedBytesAreTheEncoding : Obligations.DecodedBytesAreTheEncoding := by
  intro p q rest i h
  cases p with
  | command =>
    cases q with
    | nil => cases h
    | cons op q =>
      cases h
      exact Instr.Encodes.append_drop (q := op :: q) (n := 1) (decodeCommand_encodes op)
  | header =>
    rw [decode] at h
    split_ifs at h with h6 hm h10
    cases h
    refine (decodeHeaderRecord_encodes _ (by simp; omega) ?_).append_drop
    rw [List.take_take]
    exact not_not.mp hm
  | entryList =>
    rw [decode] at h
    split_ifs at h with h4 hs h20 <;> cases h
    · exact (entEnd_encodes _ (by simp; omega) (by rw [isSentinel_take q 4 (Nat.le_refl 4), hs])).append_drop
    · rw [Bool.not_eq_true] at hs
      exact (ent_encodes _ (by simp; omega) (by rw [isSentinel_take q 20 (by decide), hs])).append_drop
  | blockList =>
    rw [decode] at h
    split_ifs at h with h6
    cases h
    exact (decodeBlockRecord_encodes _ (by simp; omega)).append_drop

end Sys2Proof
end

section
/-! O4. A row of the opcode table compares the first bytes with fixed ones: its mask keeps whole bytes. So the rows of a
position match as its decoder branches, and priority orders the two that can match at once. -/

namespace Sys2Proof

/-! ## Masks and patterns (R75) -/

theorem wordOfBytes_take (q : List Byte) (n : Nat) : wordOfBytes (q.take n) = wordOfBytes q % 256 ^ n := by
  induction n generalizing q with
  | zero => simp [wordOfBytes, Nat.mod_one]
  | succ n ih =>
    cases q with
    | nil => simp [wordOfBytes]
    | cons b q =>
      have hb : b.toNat < 256 := b.isLt
      rw [List.take_succ_cons, wordOfBytes, wordOfBytes, ih, Nat.pow_succ, Nat.mul_comm (256 ^ n) 256, Nat.mod_mul]
      congr 1
      · omega
      · congr 2; omega

theorem wordOfBytes_inj {a b : List Byte} (hlen : a.length = b.length) (h : wordOfBytes a = wordOfBytes b) : a = b := by
  induction a generalizing b with
  | nil => exact (List.length_eq_zero_iff.mp hlen.symm).symm
  | cons x a ih =>
    cases b with
    | nil => cases hlen
    | cons y b =>
      have hx : x.toNat < 256 := x.isLt
      have hy : y.toNat < 256 := y.isLt
      rw [wordOfBytes, wordOfBytes] at h
      have hxy : x = y := BitVec.eq_of_toNat_eq (by omega)
      rw [hxy, ih (Nat.succ.inj hlen) (by omega)]

/-- A mask of `n` whole bytes compares the first `n` bytes with those of the pattern. -/
theorem wordOfBytes_and_mask_iff (q c : List Byte) (k : Nat) (hk : c.length ≤ k) (hq : k ≤ q.length) :
    wordOfBytes (q.take k) &&& (2 ^ (8 * c.length) - 1) = wordOfBytes c ↔ q.take c.length = c := by
  have hmask : wordOfBytes (q.take k) &&& (2 ^ (8 * c.length) - 1) = wordOfBytes (q.take c.length) := by
    rw [Nat.and_two_pow_sub_one_eq_mod, Nat.pow_mul, show 2 ^ 8 = 256 from rfl, ← wordOfBytes_take, List.take_take,
      Nat.min_eq_left hk]
  rw [hmask]
  exact ⟨wordOfBytes_inj (by simp; omega), congrArg _⟩

/-- The row of a kind of record with `n` bytes, whose mask and pattern compare the first of them with the bytes `c`. -/
def comparingRow (name : String) (p : Position) (n : Nat) (c : List Byte) (prio : Nat) : TableRow :=
  ⟨name, p, 8 * n, wordOfBytes c, 2 ^ (8 * c.length) - 1, prio⟩

theorem comparingRow_matchesAt (name : String) (p : Position) (n prio : Nat) (c q : List Byte) (hc : c.length ≤ n) :
    (comparingRow name p n c prio).matchesAt p q = decide (n ≤ q.length ∧ q.take c.length = c) := by
  have hlen : 8 * n ≤ 8 * q.length ↔ n ≤ q.length := by omega
  rw [Bool.eq_iff_iff, decide_eq_true_eq]
  simp only [comparingRow, TableRow.matchesAt, Bool.and_eq_true, beq_iff_eq, decide_eq_true_eq, hlen, true_and,
    Nat.mul_div_cancel_left n (show 0 < 8 by decide)]
  exact and_congr_right fun hq => wordOfBytes_and_mask_iff q c n hc hq

/-! ## The rows of a position -/

/-- The rows at the other positions do not match. -/
theorem selectRow_eq (p : Position) (q : List Byte) :
    selectRow p q = selectFrom (opcodeTable.filter (·.position == p)) p q := by
  rw [selectRow, selectFrom, selectFrom, List.filter_filter]
  congr 2
  funext r
  rw [TableRow.matchesAt]
  cases r.position == p <;> simp

theorem foldl_triedFirst_some (rows : List TableRow) (r : TableRow) (h : ∀ r' ∈ rows, r.priority ≤ r'.priority) :
    rows.foldl TableRow.triedFirst (some r) = some r := by
  induction rows with
  | nil => rfl
  | cons x rows ih =>
    obtain ⟨hx, hrows⟩ := List.forall_mem_cons.mp h
    rw [List.foldl_cons, TableRow.triedFirst, if_neg hx.not_gt, ih hrows]

/-- A row of least priority number is chosen where it matches, and is no matter where it does not (R82). -/
theorem selectFrom_cons (r : TableRow) (rows : List TableRow) (h : ∀ r' ∈ rows, r.priority ≤ r'.priority)
    (p : Position) (q : List Byte) :
    selectFrom (r :: rows) p q = if r.matchesAt p q then some r else selectFrom rows p q := by
  rw [selectFrom, List.filter_cons]
  split
  · exact foldl_triedFirst_some _ r fun r' hr' => h r' (List.mem_filter.mp hr').1
  · rfl

theorem selectFrom_of_pairwise (rows : List TableRow) (h : rows.Pairwise fun r r' => r.priority ≤ r'.priority)
    (p : Position) (q : List Byte) : selectFrom rows p q = rows.find? (TableRow.matchesAt p q) := by
  induction h with
  | nil => rfl
  | cons hr _ ih =>
    rw [selectFrom_cons _ _ hr, ih, List.find?_cons]
    cases TableRow.matchesAt p q _ <;> rfl

/-- The rows of a position stand in the table with priority numbers that do not fall. -/
theorem selectRow_eq_find (p : Position) (q : List Byte) :
    selectRow p q = (opcodeTable.filter (·.position == p)).find? (TableRow.matchesAt p q) := by
  rw [selectRow_eq, selectFrom_of_pairwise]
  cases p <;> decide

/-- The name of the first row of those that matches. -/
def firstName (rows : List TableRow) (p : Position) (q : List Byte) : Option String :=
  (rows.find? (TableRow.matchesAt p q)).map TableRow.mnemonic

theorem firstName_nil (p : Position) (q : List Byte) : firstName [] p q = none := rfl

theorem firstName_cons (name : String) (p : Position) (n prio : Nat) (c q : List Byte) (rows : List TableRow)
    (hc : c.length ≤ n) :
    firstName (comparingRow name p n c prio :: rows) p q =
      if n ≤ q.length ∧ q.take c.length = c then some name else firstName rows p q := by
  rw [firstName, List.find?_cons, comparingRow_matchesAt name p n prio c q hc]
  split_ifs with h
  · rw [decide_eq_true h]
    rfl
  · rw [decide_eq_false h]
    rfl

theorem mnemonic_selectRow (p : Position) (q : List Byte) :
    (selectRow p q).map TableRow.mnemonic = firstName (opcodeTable.filter (·.position == p)) p q := by
  rw [selectRow_eq_find, firstName]

/-! ## The row chosen, by position -/

theorem mnemonic_selectRow_command (op : Byte) (q : List Byte) :
    (selectRow .command (op :: q)).map TableRow.mnemonic = some (decodeCommand op).mnemonic := by
  have hrows : opcodeTable.filter (·.position == .command) =
      [comparingRow "KS.GEN" .command 1 [0x01] 0, comparingRow "XOR.APPLY" .command 1 [0x02] 0,
        comparingRow "KDB.DECODE" .command 1 [0x03] 0, comparingRow "KDB.FIND" .command 1 [0x04] 0,
        comparingRow "CMD.ILLEGAL" .command 1 [] 1] := by decide
  have hcode (c : Byte) : 1 ≤ (op :: q).length ∧ (op :: q).take [c].length = [c] ↔ op = c := by simp
  have hany : 1 ≤ (op :: q).length ∧ (op :: q).take ([] : List Byte).length = [] := by simp
  rw [mnemonic_selectRow, hrows, decodeCommand]
  simp only [firstName_cons _ _ 1 _ [_] _ _ (Nat.le_refl 1), firstName_cons _ _ 1 _ [] _ _ (Nat.zero_le 1), hcode,
    if_pos hany]
  split_ifs <;> rfl

theorem mnemonic_selectRow_header (q : List Byte) :
    (selectRow .header q).map TableRow.mnemonic = if 10 ≤ q.length ∧ q.take 6 = Config.magic then some "HDR" else none := by
  have hrows : opcodeTable.filter (·.position == .header) = [comparingRow "HDR" .header 10 Config.magic 0] := by decide
  rw [mnemonic_selectRow, hrows]
  exact firstName_cons "HDR" .header 10 0 Config.magic q [] (by decide)

theorem mnemonic_selectRow_entryList (q : List Byte) :
    (selectRow .entryList q).map TableRow.mnemonic =
      if 4 ≤ q.length ∧ isSentinel q = true then some "ENT.END" else if 20 ≤ q.length then some "ENT" else none := by
  have hrows : opcodeTable.filter (·.position == .entryList) =
      [comparingRow "ENT.END" .entryList 4 [0xFF, 0xFF, 0xFF, 0xFF] 0, comparingRow "ENT" .entryList 20 [] 1] := by
    decide
  have hsent : 4 ≤ q.length ∧ q.take 4 = [0xFF, 0xFF, 0xFF, 0xFF] ↔ 4 ≤ q.length ∧ isSentinel q = true :=
    and_congr_right fun h => (isSentinel_iff q h).symm
  rw [mnemonic_selectRow, hrows, firstName_cons _ _ _ _ _ _ _ (by decide), firstName_cons _ _ _ _ _ _ _ (by decide)]
  exact ite_congr (propext hsent) (fun _ => rfl) fun _ => ite_congr (propext (and_iff_left rfl)) (fun _ => rfl) fun _ => rfl

theorem mnemonic_selectRow_blockList (q : List Byte) :
    (selectRow .blockList q).map TableRow.mnemonic =
      if 6 ≤ q.length ∧ isSentinel q = true then some "BLK.END" else if 6 ≤ q.length then some "BLK" else none := by
  have hrows : opcodeTable.filter (·.position == .blockList) =
      [comparingRow "BLK.END" .blockList 6 [0xFF, 0xFF, 0xFF, 0xFF] 0, comparingRow "BLK" .blockList 6 [] 1] := by
    decide
  have hsent : 6 ≤ q.length ∧ q.take 4 = [0xFF, 0xFF, 0xFF, 0xFF] ↔ 6 ≤ q.length ∧ isSentinel q = true :=
    and_congr_right fun h => (isSentinel_iff q (by omega)).symm
  rw [mnemonic_selectRow, hrows, firstName_cons _ _ _ _ _ _ _ (by decide), firstName_cons _ _ _ _ _ _ _ (by decide)]
  exact ite_congr (propext hsent) (fun _ => rfl) fun _ => ite_congr (propext (and_iff_left rfl)) (fun _ => rfl) fun _ => rfl

/-- Settles O4: at each position the rows branch as the decoder does. -/
theorem decoderFollowsTheTable : Obligations.DecoderFollowsTheTable := by
  intro p q
  cases p with
  | command =>
    cases q with
    | nil => decide
    | cons op q => exact mnemonic_selectRow_command op q
  | header =>
    rw [mnemonic_selectRow_header, decode]
    split_ifs with hrow h6 hm h10 h6 hm h10
    · omega
    · exact absurd hrow.2 hm
    · omega
    · rfl
    · rfl
    · rfl
    · rfl
    · exact absurd ⟨not_lt.mp h10, not_not.mp hm⟩ hrow
  | entryList =>
    rw [mnemonic_selectRow_entryList, decode]
    by_cases h4 : q.length < 4
    · rw [if_pos h4, if_neg (fun h => h4.not_ge h.1), if_neg (by omega)]
    rw [if_neg h4]
    by_cases hs : isSentinel q = true
    · have hs' : isSentinel (q.take 4) = true := by rw [isSentinel_take q 4 (Nat.le_refl 4), hs]
      rw [if_pos hs, if_pos ⟨not_lt.mp h4, hs⟩, decodeEntryRecord, if_pos hs']
      rfl
    rw [if_neg hs, if_neg (fun h => hs h.2)]
    by_cases h20 : q.length < 20
    · rw [if_pos h20, if_neg h20.not_ge]
    have hs' : ¬ isSentinel (q.take 20) = true := by rwa [isSentinel_take q 20 (by decide)]
    rw [if_neg h20, if_pos (not_lt.mp h20), decodeEntryRecord, if_neg hs']
    rfl
  | blockList =>
    rw [mnemonic_selectRow_blockList, decode]
    by_cases h6 : q.length < 6
    · rw [if_pos h6, if_neg (fun h => h6.not_ge h.1), if_neg h6.not_ge]
    rw [if_neg h6, if_pos (not_lt.mp h6), decodeBlockRecord, isSentinel_take q 6 (by decide)]
    by_cases hs : isSentinel q = true
    · rw [if_pos ⟨not_lt.mp h6, hs⟩, if_pos hs]
      rfl
    · rw [if_neg (fun h => hs h.2), if_neg hs]
      rfl

end Sys2Proof
end

section
/-! What a step can be, said once for the claims about all steps: a reset, an idle step, a command's meaning, or one of
the moves by which KDB.DECODE advances after its start. -/

namespace Sys2Proof.Machine

/-! ## Parts of the bytes read -/

theorem Source.take_bytes (src : Source) (a n k : Nat) (h : k ≤ n) : (src.bytes a n).take k = src.bytes a k :=
  Memory.take_readBytes src.mem a n k h

theorem Source.drop_bytes (src : Source) (a n k : Nat) (h : k ≤ n) :
    (src.bytes a n).drop k = src.bytes (a + k) (n - k) :=
  Memory.drop_readBytes src.mem a n k h

/-- The fields of the six bytes at a block-list position (R79). -/
theorem Source.blockFields (src : Source) (a : Nat) :
    le16 (src.bytes a 6) = le16 (src.bytes a 2) ∧ le32 ((src.bytes a 6).drop 2) = le32 (src.bytes (a + 2) 4) :=
  ⟨by rw [← le16_take _ 2 (Nat.le_refl 2), src.take_bytes a 6 2 (by decide)],
    congrArg le32 (src.drop_bytes a 6 2 (by decide))⟩

/-! ## The moves of KDB.DECODE -/

theorem State.probed_nil (s : State) (k : Nat) : s.addReads k = s.probed [] k := rfl

theorem State.probed_none (s : State) : s = s.probed [] 0 := rfl

/-- The most reads the next step can make (R60, R132, R137, R140, R142, R146, R147). -/
def State.readRoom (s : State) : Nat :=
  match s.phase with
  | .hdr => 2
  | .entlist => if s.store.ecnt.toNat < s.cfg.entryCap.toNat then 3 else 1
  | .blklist => 1
  | .data => if s.dataBlock = none then 0 else 1
  | .idle => 0
  | .cmd => 0
  | .dec => 0

/-- HDR.eloff and HDRV set and the cursor at the entry list (R133, R134). -/
def State.enterList (s : State) (eloff : Word) : State :=
  { s with
    store := { s.store with hdrv := true, eloff := eloff }
    phase := .entlist
    par := { s.par with cur := eloff.setWidth 33 } }

/-- The moves of KDB.DECODE after its start, by the phase each is made in. -/
inductive State.Advances (s : State) : State → Prop
  | readFailed (p : List Byte) (k : Nat) (e : Err) (he : ReadErr e) (hp : p.length ≤ 6) (hk : k ≤ s.readRoom) :
    s.Advances ((s.probed p k).raise e 0)
  | badMagic (hphase : s.phase = .hdr) (hm : s.ports.src.bytes 0 6 ≠ Config.magic) :
    s.Advances ((s.addReads 1).raise .formatError 0)
  | header (hphase : s.phase = .hdr) :
    s.Advances ((s.addReads 2).enterList (le32 (s.ports.src.bytes 6 4)))
  | entry (hphase : s.phase = .entlist) (hcap : s.store.ecnt.toNat < s.cfg.entryCap.toNat)
      (hl : s.cursor + 20 ≤ s.ports.src.len.val) (hs : isSentinel (s.ports.src.bytes s.cursor 4) = false) :
    s.Advances ((s.probed (s.ports.src.bytes s.cursor 4) 3).commitEntry (s.ports.src.bytes s.cursor 16)
      (le32 (s.ports.src.bytes (s.cursor + 16) 4)))
  | entriesOver (hphase : s.phase = .entlist) (hstrict : s.cfg.strictCap = true)
      (hcap : s.cfg.entryCap.toNat ≤ s.store.ecnt.toNat) (hl : s.cursor + 4 ≤ s.ports.src.len.val)
      (hs : isSentinel (s.ports.src.bytes s.cursor 4) = false) :
    s.Advances ((s.probed (s.ports.src.bytes s.cursor 4) 1).raise .formatError 1)
  | firstEntry (hphase : s.phase = .entlist) (p : List Byte) (k : Nat) (hp : p.length ≤ 6) (hk : k ≤ 1)
      (hsome : 0 < s.store.ecnt.toNat) :
    s.Advances ((s.probed p k).startEntry 0)
  | noEntry (hphase : s.phase = .entlist) (p : List Byte) (k : Nat) (hp : p.length ≤ 6) (hk : k ≤ 1)
      (hnone : s.store.ecnt.toNat = 0) :
    s.Advances ((s.probed p k).respondOk [] none)
  | block (hphase : s.phase = .blklist) (hcap : s.par.bcnt.toNat < s.cfg.blockCap.toNat)
      (hl : s.cursor + 6 ≤ s.ports.src.len.val) (hs : isSentinel (s.ports.src.bytes s.cursor 6) = false) :
    s.Advances ((s.probed (s.ports.src.bytes s.cursor 6) 1).commitBlock (le16 (s.ports.src.bytes s.cursor 2))
      (le32 (s.ports.src.bytes (s.cursor + 2) 4)))
  | blocksOver (hphase : s.phase = .blklist) (hstrict : s.cfg.strictCap = true)
      (hcap : s.cfg.blockCap.toNat ≤ s.par.bcnt.toNat) (hl : s.cursor + 6 ≤ s.ports.src.len.val)
      (hs : isSentinel (s.ports.src.bytes s.cursor 6) = false) :
    s.Advances ((s.probed (s.ports.src.bytes s.cursor 6) 1).raise .formatError 2)
  | blocksEnd (hphase : s.phase = .blklist) (p : List Byte) (k : Nat) (hp : p.length ≤ 6) (hk : k ≤ 1) :
    s.Advances (s.probed p k).endBlockList
  | gathered (hphase : s.phase = .data) (b : Block) (hb : s.dataBlock = some b) (k : Nat) (hk : k ≤ 1) :
    s.Advances ((s.addReads k).appendData (s.ports.src.bytes b.dataoff.toNat b.size.toNat) b.size)
  | gatheredAll (hphase : s.phase = .data) (hb : s.dataBlock = none) : s.Advances { s with phase := .dec }
  | nextEntry (hphase : s.phase = .dec) (hmore : s.par.eidx.toNat + 1 < s.store.ecnt.toNat) :
    s.Advances (s.withPayload.startEntry (s.par.eidx + 1))
  | lastEntry (hphase : s.phase = .dec) (hlast : s.store.ecnt.toNat ≤ s.par.eidx.toNat + 1) :
    s.Advances (s.withPayload.respondOk [] none)

/-! ## A step of KDB.DECODE after its start is one of them -/

theorem State.readSrc_bytes_eq {s u : State} {addr n : Nat} {q : List Byte} (h : s.readSrc addr n = .bytes q u) :
    q = s.ports.src.bytes addr n ∧ ∃ k ≤ 1, u = s.addReads k := by
  rcases s.readSrc_cases addr n with ⟨rfl, hr⟩ | ⟨-, -, -, hr⟩ | ⟨-, -, -, hr⟩ | ⟨-, -, hr⟩ <;> rw [hr] at h <;> cases h
  · exact ⟨rfl, 0, Nat.zero_le 1, rfl⟩
  · exact ⟨rfl, 1, Nat.le_refl 1, rfl⟩

theorem State.readSrc_raised_eq {s u : State} {addr n : Nat} (h : s.readSrc addr n = .raised u) :
    ∃ e, ReadErr e ∧ u = (s.addReads 1).raise e 0 := by
  rcases s.readSrc_cases addr n with ⟨-, hr⟩ | ⟨-, -, -, hr⟩ | ⟨-, -, -, hr⟩ | ⟨-, -, hr⟩ <;> rw [hr] at h <;> cases h
  · exact ⟨_, .inl rfl, rfl⟩
  · exact ⟨_, .inr rfl, rfl⟩

theorem State.Advances.entriesEnd {s : State} (hphase : s.phase = .entlist) (p : List Byte) (k : Nat)
    (hp : p.length ≤ 6) (hk : k ≤ 1) : s.Advances (s.probed p k).endEntryList := by
  rcases (s.probed p k).endEntryList_cases with ⟨hsome, h⟩ | ⟨hnone, h⟩ <;> rw [h]
  · exact .firstEntry hphase p k hp hk hsome
  · exact .noEntry hphase p k hp hk hnone

theorem State.Advances.deciphered {s : State} (hphase : s.phase = .dec) : s.Advances s.decipher := by
  rw [s.decipher_eq]
  rcases s.withPayload.nextEntry_cases with ⟨hmore, h⟩ | ⟨hlast, h⟩ <;> rw [h]
  · exact .nextEntry hphase hmore
  · exact .lastEntry hphase hlast

section Steps

variable {s t : State} (hreset : s.resetIn = false) (hstep : step s = .next t)
include hreset hstep

theorem advances_of_step_hdr (hphase : s.phase = .hdr) : s.Advances t := by
  rw [step, s.fetch_hdr hreset hphase] at hstep
  rcases s.fetchHeader_cases with ⟨e, k, he, hk, h⟩ | ⟨-, hm, h⟩ | ⟨-, -, h⟩ <;> rw [h] at hstep <;> cases hstep
  · exact .readFailed [] k e he (by simp) (by simp only [State.readRoom, hphase]; omega)
  · exact .badMagic hphase hm
  · exact .header hphase

theorem advances_of_step_entlist (hphase : s.phase = .entlist) : s.Advances t := by
  have hlen : (s.ports.src.bytes s.cursor 4).length ≤ 6 := by simp
  have hroom : s.readRoom = if s.store.ecnt.toNat < s.cfg.entryCap.toNat then 3 else 1 := by
    simp only [State.readRoom, hphase]
  rw [step, s.fetch_entlist hreset hphase] at hstep
  rcases s.fetchEntry_cases with ⟨hcap, hf⟩ | ⟨hcap, hstrict, hf⟩ | ⟨-, -, hf⟩ <;> rw [hf] at hstep
  · rw [if_pos hcap] at hroom
    rcases s.fetchEntryRecord_cases with ⟨e, he, h⟩ | ⟨-, -, h⟩ | ⟨e, k, he, hk, -, -, h⟩ | ⟨hl, hs, h⟩ <;>
      rw [h] at hstep <;> cases hstep
    · exact .readFailed [] 1 e he (Nat.zero_le 6) (by omega)
    · exact State.Advances.entriesEnd hphase _ 1 hlen (Nat.le_refl 1)
    · exact .readFailed _ k e he hlen (by omega)
    · exact .entry hphase hcap hl hs
  · rw [if_neg hcap.not_gt] at hroom
    rcases s.fetchEntryAtCap_cases with ⟨e, he, h⟩ | ⟨-, -, h⟩ | ⟨hl, hs, h⟩ <;> rw [h] at hstep <;> cases hstep
    · exact .readFailed [] 1 e he (Nat.zero_le 6) hroom.ge
    · exact State.Advances.entriesEnd hphase _ 1 hlen (Nat.le_refl 1)
    · exact .entriesOver hphase hstrict hcap hl hs
  · cases hstep
    exact State.Advances.entriesEnd hphase [] 0 (Nat.zero_le 6) (Nat.zero_le 1)

theorem advances_of_step_blklist (hphase : s.phase = .blklist) : s.Advances t := by
  have hlen : (s.ports.src.bytes s.cursor 6).length ≤ 6 := by simp
  have hroom : s.readRoom = 1 := by simp only [State.readRoom, hphase]
  rw [step, s.fetch_blklist hreset hphase] at hstep
  rcases s.fetchBlock_cases with ⟨hcap, hf⟩ | ⟨hcap, hstrict, hf⟩ | ⟨-, -, hf⟩ <;> rw [hf] at hstep
  · rcases s.fetchBlockRecord_cases with ⟨e, he, h⟩ | ⟨-, -, h⟩ | ⟨hl, hs, h⟩ <;> rw [h] at hstep <;> cases hstep
    · exact .readFailed [] 1 e he (Nat.zero_le 6) hroom.ge
    · exact .blocksEnd hphase _ 1 hlen (Nat.le_refl 1)
    · obtain ⟨hsize, hoff⟩ := s.ports.src.blockFields s.cursor
      rw [hsize, hoff]
      exact .block hphase hcap hl hs
  · rcases s.fetchBlockAtCap_cases with ⟨e, he, h⟩ | ⟨-, -, h⟩ | ⟨hl, hs, h⟩ <;> rw [h] at hstep <;> cases hstep
    · exact .readFailed [] 1 e he (Nat.zero_le 6) hroom.ge
    · exact .blocksEnd hphase _ 1 hlen (Nat.le_refl 1)
    · exact .blocksOver hphase hstrict hcap hl hs
  · cases hstep
    exact .blocksEnd hphase [] 0 (Nat.zero_le 6) (Nat.zero_le 1)

theorem advances_of_step_data (hphase : s.phase = .data) : s.Advances t := by
  rw [step_of_quiet s _ (s.fetch_data hreset hphase)] at hstep
  cases hstep
  rcases s.gather_cases with ⟨hb, h⟩ | ⟨b, q, u, hb, hread, h⟩ | ⟨b, u, hb, hread, h⟩ <;> rw [h]
  · exact .gatheredAll hphase hb
  · obtain ⟨rfl, k, hk, rfl⟩ := State.readSrc_bytes_eq hread
    exact .gathered hphase b hb k hk
  · obtain ⟨e, he, rfl⟩ := State.readSrc_raised_eq hread
    have hroom : s.readRoom = 1 := by simp [State.readRoom, hphase, hb]
    exact .readFailed [] 1 e he (Nat.zero_le 6) hroom.ge

theorem advances_of_step (hidle : s.phase ≠ .idle) (hcmd : s.phase ≠ .cmd) : s.Advances t := by
  cases hphase : s.phase with
  | idle => exact absurd hphase hidle
  | cmd => exact absurd hphase hcmd
  | hdr => exact advances_of_step_hdr hreset hstep hphase
  | entlist => exact advances_of_step_entlist hreset hstep hphase
  | blklist => exact advances_of_step_blklist hreset hstep hphase
  | data => exact advances_of_step_data hreset hstep hphase
  | dec =>
    rw [step_of_quiet s _ (s.fetch_dec hreset hphase)] at hstep
    cases hstep
    exact .deciphered hphase

end Steps

/-! ## The commands -/

/-- A response: OK with results, or an error other than FormatError, which KDB.DECODE alone raises (R171). -/
inductive State.Responds (s : State) : State → Prop
  | ok (out : List Byte) (idx : Option Half) : s.Responds (s.respondOk out idx)
  | error (e : Err) (he : e ≠ .formatError) : s.Responds (s.raise e 0)

/-- KSG's registers written, its counters at rest (R22). -/
def State.withSeed (s : State) (S : Word) : State :=
  { s with ksg := { S := S, bitcnt := 0, kcnt := 0 } }

theorem execXorApply_responds (s : State) : ∃ t, exec .xorApply s = .next t ∧ s.Responds t := by
  rw [exec, execXorApply]
  split_ifs
  · exact ⟨_, rfl, .error _ (by decide)⟩
  · exact ⟨_, rfl, .error _ (by decide)⟩
  · exact ⟨_, rfl, .ok _ _⟩

theorem execKdbFind_responds (s : State) : ∃ t, exec .kdbFind s = .next t ∧ s.Responds t := by
  rw [exec, execKdbFind]
  cases s.store.firstNamed with
  | none => exact ⟨_, rfl, .error _ (by decide)⟩
  | some i =>
    simp only
    split_ifs
    · exact ⟨_, rfl, .ok _ _⟩
    · exact ⟨_, rfl, .error _ (by decide)⟩

theorem execKsGen_responds (s : State) :
    ∃ t, exec .ksGen s = .next t ∧ (s.Responds t ∨ ∃ S out, t = (s.withSeed S).respondOk out none) := by
  cases h : s.ports.len.getLsbD 31 with
  | true => exact ⟨_, exec_ksGen_of_negative s h, .inl (.error _ (by decide))⟩
  | false => exact ⟨_, exec_ksGen_of_nonneg s h, .inr ⟨_, _, rfl⟩⟩

/-- The store emptied and phase HDR begun (R131). -/
def State.startDecode (s : State) : State :=
  { s with
    store := { s.store with hdrv := false, ecnt := 0, ent := [] }
    par := { s.par with reads := 0 }
    phase := .hdr }

theorem execKdbDecode_cases (s : State) :
    (s.ports.src.avail.holds 0 = true ∧ exec .kdbDecode s = .next s.startDecode) ∨
    (s.ports.src.avail.holds 0 = false ∧ exec .kdbDecode s = .next (s.raise .sourceUnavailable 0)) := by
  cases h : s.ports.src.avail.holds 0 with
  | true => exact .inl ⟨rfl, (kdbDecodeStarts s).1 h⟩
  | false => exact .inr ⟨rfl, if_pos h⟩

/-- What the step after an acceptance does (R184): the command responds, KS.GEN with KSG's registers written, or
KDB.DECODE starts. -/
inductive State.Commences (s : State) : State → Prop
  | responds {t : State} (h : s.Responds t) : s.Commences t
  | generates (S : Word) (out : List Byte) : s.Commences ((s.withSeed S).respondOk out none)
  | starts : s.Commences s.startDecode

theorem exec_decodeCommand_commences (op : Byte) (s : State) :
    ∃ t, exec (decodeCommand op) s = .next t ∧ s.Commences t := by
  unfold decodeCommand
  split_ifs
  · obtain ⟨t, h, hr | ⟨S, out, rfl⟩⟩ := execKsGen_responds s
    · exact ⟨t, h, .responds hr⟩
    · exact ⟨_, h, .generates S out⟩
  · obtain ⟨t, h, hr⟩ := execXorApply_responds s
    exact ⟨t, h, .responds hr⟩
  · rcases execKdbDecode_cases s with ⟨-, h⟩ | ⟨-, h⟩
    · exact ⟨_, h, .starts⟩
    · exact ⟨_, h, .responds (.error _ (by decide))⟩
  · obtain ⟨t, h, hr⟩ := execKdbFind_responds s
    exact ⟨t, h, .responds hr⟩
  · exact ⟨_, rfl, .responds (.error .illegalCommand (by decide))⟩

/-! ## Every step -/

theorem exec_answers (i : Instr) (s : State) : ∃ t, exec i s = .next t := by
  cases i with
  | ksGen => exact (execKsGen_responds s).imp fun _ h => h.1
  | xorApply => exact (execXorApply_responds s).imp fun _ h => h.1
  | kdbDecode => rcases execKdbDecode_cases s with ⟨-, h⟩ | ⟨-, h⟩ <;> exact ⟨_, h⟩
  | kdbFind => exact (execKdbFind_responds s).imp fun _ h => h.1
  | cmdIllegal op => exact ⟨_, rfl⟩
  | hdr eloff => exact ⟨_, rfl⟩
  | entEnd => exact ⟨_, rfl⟩
  | ent name blkoff => exact ⟨_, rfl⟩
  | blkEnd ignored => exact ⟨_, rfl⟩
  | blk size dataoff => exact ⟨_, rfl⟩

/-- Every step of the block: a reset, an idle step, a command's first step, or a move of KDB.DECODE. -/
inductive State.Steps (s : State) : State → Prop
  | reset (hreset : s.resetIn = true) : s.Steps s.applyReset
  | idle (hreset : s.resetIn = false) (hphase : s.phase = .idle) : s.Steps s.idleStep
  | command (hreset : s.resetIn = false) (hphase : s.phase = .cmd) {t : State} (h : s.Commences t) : s.Steps t
  | advance (hreset : s.resetIn = false) (hidle : s.phase ≠ .idle) (hcmd : s.phase ≠ .cmd) {t : State}
      (h : s.Advances t) : s.Steps t

theorem steps_of_step {s t : State} (hstep : step s = .next t) : s.Steps t := by
  cases hreset : s.resetIn with
  | true =>
    rw [step_of_quiet s _ (s.fetch_reset hreset)] at hstep
    cases hstep
    exact .reset hreset
  | false =>
    by_cases hidle : s.phase = .idle
    · rw [step_of_quiet s _ (s.fetch_idle hreset hidle)] at hstep
      cases hstep
      exact .idle hreset hidle
    by_cases hcmd : s.phase = .cmd
    · obtain ⟨u, hu, hcommences⟩ := exec_decodeCommand_commences s.ports.cmd s
      rw [step_of_run s _ _ (s.fetch_cmd hreset hcmd), hu] at hstep
      cases hstep
      exact .command hreset hcmd hcommences
    · exact .advance hreset hidle hcmd (advances_of_step hreset hstep hidle hcmd)

/-! ## How a step of a command in progress comes out -/

/-- The command goes on with its status group and ports as they were, or responds: OK, or an error raised on a state with
the same store, phase and KSG. -/
inductive State.ComesTo (s : State) : State → Prop
  | goesOn {t : State} (hphase : t.phase ≠ .idle) (hstatus : t.status = s.status) (hports : t.ports = s.ports)
      (hdelivery : t.delivery = s.delivery) : s.ComesTo t
  | completes (u : State) (out : List Byte) (idx : Option Half) : s.ComesTo (u.respondOk out idx)
  | fails (u : State) (e : Err) (sub : BitVec 2) (hstore : u.store = s.store) (hphase : u.phase = s.phase)
      (hksg : u.ksg = s.ksg) (hsub : sub ≠ 0 → e = .formatError ∧ sub ≠ 3) : s.ComesTo (u.raise e sub)

theorem State.Advances.comesTo {s t : State} (h : s.Advances t) (hidle : s.phase ≠ .idle) : s.ComesTo t := by
  cases h with
  | readFailed p k e => exact .fails _ e 0 rfl rfl rfl (absurd rfl)
  | badMagic => exact .fails _ .formatError 0 rfl rfl rfl (absurd rfl)
  | entriesOver => exact .fails _ .formatError 1 rfl rfl rfl fun _ => ⟨rfl, by decide⟩
  | blocksOver => exact .fails _ .formatError 2 rfl rfl rfl fun _ => ⟨rfl, by decide⟩
  | noEntry | lastEntry => exact .completes _ [] none
  | header | firstEntry | blocksEnd | gatheredAll | nextEntry => exact .goesOn nofun rfl rfl rfl
  | entry | block | gathered => exact .goesOn hidle rfl rfl rfl

theorem State.Commences.comesTo {s t : State} (h : s.Commences t) : s.ComesTo t := by
  cases h with
  | responds h =>
    cases h with
    | ok out idx => exact .completes s out idx
    | error e => exact .fails s e 0 rfl rfl rfl (absurd rfl)
  | generates S out => exact .completes _ out none
  | starts => exact .goesOn nofun rfl rfl rfl

theorem comesTo_of_step {s t : State} (hreset : s.resetIn = false) (hidle : s.phase ≠ .idle) (hstep : step s = .next t) :
    s.ComesTo t := by
  cases steps_of_step hstep with
  | reset h => exact absurd (hreset.symm.trans h) (by decide)
  | idle _ hphase => exact absurd hphase hidle
  | command _ _ h => exact h.comesTo
  | advance _ _ _ h => exact h.comesTo hidle

/-! ## What no step of a command changes -/

/-- The parameters, a waiting command and the reset event are no business of a command's step (R39, R205). -/
structure State.KeepsInputs (s t : State) : Prop where
  cfg : t.cfg = s.cfg
  waiting : t.waiting = s.waiting
  resetIn : t.resetIn = s.resetIn

theorem State.Advances.keepsInputs {s t : State} (h : s.Advances t) : s.KeepsInputs t := by
  cases h <;> exact ⟨rfl, rfl, rfl⟩

theorem State.Commences.keepsInputs {s t : State} (h : s.Commences t) : s.KeepsInputs t := by
  cases h with
  | responds h => cases h <;> exact ⟨rfl, rfl, rfl⟩
  | generates | starts => exact ⟨rfl, rfl, rfl⟩

theorem keepsInputs_of_step {s t : State} (hreset : s.resetIn = false) (hidle : s.phase ≠ .idle)
    (hstep : step s = .next t) : s.KeepsInputs t := by
  cases steps_of_step hstep with
  | reset h => exact absurd (hreset.symm.trans h) (by decide)
  | idle _ hphase => exact absurd hphase hidle
  | command _ _ h => exact h.keepsInputs
  | advance _ _ _ h => exact h.keepsInputs

/-- Settles O44: a step is an instruction's meaning or is complete by itself, and every meaning answers. -/
theorem everyStepAnswersANextState : Obligations.EveryStepAnswersANextState := by
  intro s
  unfold step
  cases s.fetch with
  | run i u => exact exec_answers i u
  | quiet u => exact ⟨u, rfl⟩

end Sys2Proof.Machine
end

section
/-! O52, the part that concerns KDB.DECODE: the result store and the registers the phase works with. It is an invariant of
its own, for O57 starts from registers that hold anything. -/

namespace Sys2Proof.Machine

/-! ## Entries -/

theorem freshEntry_inv (cfg : Configuration) (name : List Byte) (blkoff : Word) (h : nameExpressible name = true) :
    (freshEntry name blkoff).Inv cfg :=
  ⟨h, rfl, Nat.zero_le _, fun _ hb => (List.not_mem_nil hb).elim, fun hr => (Bool.noConfusion hr), fun _ => ⟨rfl, rfl⟩⟩

theorem freshEntry_untouched (name : List Byte) (blkoff : Word) : (freshEntry name blkoff).untouched := ⟨rfl, rfl⟩

/-- One more block below the cap (R143, R144). -/
theorem Entry.Inv.addBlock {cfg : Configuration} {e : Entry} (h : e.Inv cfg) (hr : e.resolved = false)
    (hcap : e.nblk.toNat < cfg.blockCap.toNat) (b : Block) (hb : blockExpressible b.size b.dataoff = true) :
    (e.addBlock b (e.nblk + 1)).Inv cfg := by
  have hcount : (e.nblk + 1).toNat = e.nblk.toNat + 1 := toNat_succ_of_lt hcap
  refine ⟨h.name, ?_, ?_, fun b' hb' => ?_, fun hres => absurd (hr.symm.trans hres) (by decide), fun _ => h.unresolved hr⟩
  · simp only [Entry.addBlock, List.length_append, List.length_singleton, hcount, h.count]
  · simp only [Entry.addBlock, hcount]
    omega
  · rcases List.mem_append.mp hb' with hb' | hb'
    · exact h.blocks b' hb'
    · rw [List.mem_singleton.mp hb']
      exact hb

/-- A payload as long as the blocks say (R149, R153). -/
theorem Entry.Inv.resolve {cfg : Configuration} {e : Entry} (h : e.Inv cfg) (payload : List Byte) (plen : Word)
    (hsize : plen.toNat = blocksSize e.blks) (hlen : payload.length = plen.toNat) :
    (e.resolve payload plen).Inv cfg :=
  ⟨h.name, h.count, h.cap, h.blocks, fun _ => ⟨hsize, hlen⟩, fun hres => Bool.noConfusion hres⟩

theorem Entry.Inv.blocksSize_take_lt {cfg : Configuration} {e : Entry} (h : e.Inv cfg) (n : Nat) :
    blocksSize (e.blks.take n) < 2 ^ 32 := by
  have hsum := blocksSize_le (e.blks.take n)
  have hlen : (e.blks.take n).length ≤ e.nblk.toNat := by rw [h.count]; exact List.length_take_le' n _
  have hnblk := e.nblk.isLt
  omega

/-! ## The store -/

/-- A store with one entry changed keeps its invariant where the entry changed does. -/
theorem Store.Inv.modify {cfg : Configuration} {st : Store} (h : st.Inv cfg) (i : Nat) (f : Entry → Entry)
    (hf : ∀ e, st.ent[i]? = some e → (f e).Inv cfg) : Store.Inv cfg { st with ent := st.ent.modify i f } := by
  refine ⟨(List.length_modify _ _ _).trans h.count, h.cap, fun e he => ?_, h.header⟩
  obtain ⟨j, hj⟩ := List.getElem?_of_mem he
  obtain ⟨e', he', rfl⟩ := Option.map_eq_some_iff.mp ((List.getElem?_modify _ _ _ _).symm.trans hj)
  split
  · next hij => exact hf e' (hij ▸ he')
  · exact h.entries e' (List.mem_of_getElem? he')

theorem Store.Inv.commit {cfg : Configuration} {st : Store} (h : st.Inv cfg) (hhdrv : st.hdrv = true)
    (hcap : st.ecnt.toNat < cfg.entryCap.toNat) (e : Entry) (he : e.Inv cfg) :
    Store.Inv cfg { st with ecnt := st.ecnt + 1, ent := st.ent ++ [e] } := by
  have hcount : (st.ecnt + 1).toNat = st.ecnt.toNat + 1 := toNat_succ_of_lt hcap
  refine ⟨?_, ?_, ?_, fun hh => absurd (hhdrv.symm.trans hh) (by decide)⟩
  · rw [List.length_append, hcount, h.count, List.length_singleton]
  · rw [hcount]
    exact hcap
  · intro e' he'
    rcases List.mem_append.mp he' with he' | he'
    · exact h.entries e' he'
    · rw [List.mem_singleton.mp he']
      exact he

/-! ## The invariant of a KDB.DECODE in progress -/

/-- The invariant of the store and of the registers the phase works with: CUR in the lists (R26), CBUF and TLEN from phase
DATA on (R29). -/
structure State.Walking (s : State) : Prop where
  store : s.store.Inv s.cfg
  cursor : s.phase = .entlist ∨ s.phase = .blklist → s.cursor ≤ 2 ^ 32
  tlen : s.phase = .data ∨ s.phase = .dec → s.par.tlen.toNat = s.par.cbuf.length
  progress : s.Progress

theorem State.Inv.walking {s : State} (h : s.Inv) : s.Walking :=
  ⟨h.store, fun _ => h.cursor, fun _ => h.tlen, h.progress⟩

theorem State.Walking.of_idle {s : State} (hphase : s.phase = .idle) (hstore : s.store.Inv s.cfg) : s.Walking :=
  ⟨hstore, by simp [hphase], by simp [hphase], by simp only [State.Progress, hphase]⟩

theorem State.Walking.startDecode (s : State) : s.startDecode.Walking :=
  ⟨⟨rfl, Nat.zero_le _, fun _ he => (List.not_mem_nil he).elim, fun _ => rfl⟩,
    fun h => (h.elim nofun nofun), fun h => (h.elim nofun nofun), rfl⟩

/-! ### The phases' progress, taken apart -/

section Progress

variable {s : State} (h : s.Progress)
include h

theorem State.Progress.hdr (hphase : s.phase = .hdr) : s.store.hdrv = false := by
  rwa [State.Progress, hphase] at h

theorem State.Progress.entlist (hphase : s.phase = .entlist) :
    s.store.hdrv = true ∧ ∀ e ∈ s.store.ent, e.untouched := by
  rwa [State.Progress, hphase] at h

theorem State.Progress.blklist (hphase : s.phase = .blklist) :
    s.AtEntry ∧ s.par.bcnt = (s.entryAt s.par.eidx.toNat).nblk := by
  rwa [State.Progress, hphase] at h

theorem State.Progress.data (hphase : s.phase = .data) :
    s.AtEntry ∧ s.par.didx.toNat ≤ (s.entryAt s.par.eidx.toNat).nblk.toNat ∧
      s.par.tlen.toNat = blocksSize ((s.entryAt s.par.eidx.toNat).blks.take s.par.didx.toNat) := by
  rwa [State.Progress, hphase] at h

theorem State.Progress.dec (hphase : s.phase = .dec) :
    s.AtEntry ∧ s.par.tlen.toNat = blocksSize (s.entryAt s.par.eidx.toNat).blks := by
  rwa [State.Progress, hphase] at h

end Progress

/-- There is an entry EIDX. -/
theorem State.AtEntry.getElem? {s : State} (h : s.AtEntry) (hstore : s.store.Inv s.cfg) :
    s.store.ent[s.par.eidx.toNat]? = some (s.entryAt s.par.eidx.toNat) := by
  have hlt : s.par.eidx.toNat < s.store.ent.length := hstore.count ▸ h.index
  rw [s.entryAt_of_getElem? _ _ (List.getElem?_eq_getElem hlt), List.getElem?_eq_getElem hlt]

theorem State.AtEntry.inv {s : State} (h : s.AtEntry) (hstore : s.store.Inv s.cfg) :
    (s.entryAt s.par.eidx.toNat).Inv s.cfg :=
  hstore.entries _ (List.mem_of_getElem? (h.getElem? hstore))

theorem State.AtEntry.congr {s t : State} (h : s.AtEntry) (hstore : t.store = s.store)
    (hidx : t.par.eidx = s.par.eidx) : t.AtEntry := by
  have hat : t.entryAt t.par.eidx.toNat = s.entryAt s.par.eidx.toNat := by
    rw [hidx]; exact State.entryAt_congr t s (congrArg Store.ent hstore) _
  refine ⟨hstore ▸ h.header, ?_, ?_, hat ▸ h.here, ?_⟩ <;> rw [hstore, hidx]
  · exact h.index
  · exact h.before
  · exact h.after

/-- At the first of some entries that no phase has reached. -/
theorem State.AtEntry.first {s : State} (hstore : s.store.Inv s.cfg) (hhdrv : s.store.hdrv = true)
    (huntouched : ∀ e ∈ s.store.ent, e.untouched) (hsome : 0 < s.store.ecnt.toNat) : (s.startEntry 0).AtEntry := by
  have hlt : 0 < s.store.ent.length := hstore.count ▸ hsome
  have hat : (s.startEntry 0).entryAt 0 = s.store.ent[0] :=
    State.entryAt_of_getElem? _ _ _ (List.getElem?_eq_getElem hlt)
  refine ⟨hhdrv, hsome, fun i e _ hi => absurd hi (Nat.not_lt_zero i), ?_, fun i e he _ => ?_⟩
  · exact hat ▸ (huntouched _ (List.getElem_mem hlt)).1
  · exact huntouched e (List.mem_of_getElem? he)

/-! ### What the records read are (R85) -/

theorem isSentinel_bytes_eq (src : Source) (a n : Nat) (h : 4 ≤ n) :
    isSentinel (src.bytes a n) = isSentinel (src.bytes a 4) := by
  rw [Bool.eq_iff_iff, isSentinel_bytes src a n h, isSentinel_bytes src a 4 (Nat.le_refl 4)]

theorem nameExpressible_bytes (src : Source) (a : Nat) (h : isSentinel (src.bytes a 4) = false) :
    nameExpressible (src.bytes a 16) = true :=
  (nameExpressible_iff _).mpr ⟨src.length_bytes a 16, (isSentinel_bytes_eq src a 16 (by decide)).trans h⟩

theorem blockExpressible_bytes (src : Source) (a : Nat) (h : isSentinel (src.bytes a 6) = false) :
    blockExpressible (le16 (src.bytes a 2)) (le32 (src.bytes (a + 2) 4)) = true := by
  have hsplit : bytesOf16 (le16 (src.bytes a 2)) ++ bytesOf32 (le32 (src.bytes (a + 2) 4)) = src.bytes a 6 := by
    rw [bytesOf16_le16 _ (src.length_bytes a 2), bytesOf32_le32 _ (src.length_bytes (a + 2) 4)]
    exact (Memory.readBytes_add src.mem a 2 4).symm
  have hexp := isSentinel_block (le16 (src.bytes a 2)) (le32 (src.bytes (a + 2) 4))
  rw [hsplit, h, eq_comm, Bool.not_eq_false'] at hexp
  exact hexp

/-! ### The moves keep it -/

theorem State.entryAt_commitBlock (s : State) (e : Entry) (he : s.store.ent[s.par.eidx.toNat]? = some e) (size : Half)
    (dataoff : Word) :
    (s.commitBlock size dataoff).entryAt s.par.eidx.toNat = e.addBlock ⟨size, dataoff⟩ (s.par.bcnt + 1) := by
  refine State.entryAt_of_getElem? _ _ _ ((s.getElem?_modifyEntry _ _ _).trans ?_)
  rw [if_pos rfl, he]
  rfl

/-- Every block record of an entry counts (R34). -/
theorem Entry.Inv.take_blks {cfg : Configuration} {e : Entry} (h : e.Inv cfg) : e.blks.take e.nblk.toNat = e.blks :=
  List.take_of_length_le h.count.ge

theorem State.AtEntry.dataBlock_eq {s : State} (h : s.AtEntry) (hstore : s.store.Inv s.cfg) :
    s.dataBlock = (s.entryAt s.par.eidx.toNat).blks[s.par.didx.toNat]? := by
  rw [State.dataBlock, (h.inv hstore).take_blks]

section Moves

variable {s : State} (h : s.Walking)
include h

theorem State.Walking.probed (p : List Byte) (k : Nat) : (s.probed p k).Walking := by
  refine ⟨h.store, h.cursor, h.tlen, ?_⟩
  have hprogress := h.progress
  unfold State.Progress at hprogress ⊢
  rw [State.probed_phase]
  cases hphase : s.phase <;> simp only [hphase] at hprogress ⊢
  case hdr | entlist => exact hprogress
  case blklist | data | dec => exact ⟨hprogress.1.congr rfl rfl, hprogress.2⟩

/-- There is no entry before the header (R31). -/
theorem State.Walking.enterList (hphase : s.phase = .hdr) (eloff : Word) : (s.enterList eloff).Walking := by
  have hecnt : s.store.ecnt = 0 := h.store.header (h.progress.hdr hphase)
  have hnil : s.store.ent = [] := List.length_eq_zero_iff.mp (h.store.count.trans (by rw [hecnt]; rfl))
  have hcur : (eloff.setWidth 33 : Cursor).toNat ≤ 2 ^ 32 := by
    rw [BitVec.toNat_setWidth_of_le (by decide)]
    exact eloff.isLt.le
  refine ⟨⟨h.store.count, h.store.cap, h.store.entries, nofun⟩, fun _ => hcur, fun hp => (hp.elim nofun nofun), rfl, ?_⟩
  intro e he
  exact (List.not_mem_nil (hnil ▸ he)).elim

theorem State.Walking.commitEntry (hphase : s.phase = .entlist) (hcap : s.store.ecnt.toNat < s.cfg.entryCap.toNat)
    (hcur : s.cursor + 20 ≤ 2 ^ 32) (name : List Byte) (blkoff : Word) (hname : nameExpressible name = true) :
    (s.commitEntry name blkoff).Walking := by
  obtain ⟨hhdrv, huntouched⟩ := h.progress.entlist hphase
  refine ⟨h.store.commit hhdrv hcap _ (freshEntry_inv _ name blkoff hname), fun _ => ?_, ?_, ?_⟩
  · exact (toNat_cursor_add_of_le (c := s.par.cur) (k := 20) hcur).trans_le hcur
  · simp [hphase]
  · simp only [State.Progress, State.commitEntry_phase, hphase]
    refine ⟨hhdrv, fun e he => ?_⟩
    rcases List.mem_append.mp he with he | he
    · exact huntouched e he
    · rw [List.mem_singleton.mp he]
      exact freshEntry_untouched name blkoff

theorem State.Walking.startFirst (hphase : s.phase = .entlist) (hsome : 0 < s.store.ecnt.toNat) :
    (s.startEntry 0).Walking := by
  obtain ⟨hhdrv, huntouched⟩ := h.progress.entlist hphase
  have hat := State.AtEntry.first h.store hhdrv huntouched hsome
  refine ⟨h.store, fun _ => ?_, fun hp => (hp.elim nofun nofun), hat, ?_⟩
  · rw [State.cursor, State.startEntry_par, BitVec.toNat_setWidth_of_le (by decide)]
    exact (BitVec.isLt _).le
  · have hmem := List.mem_of_getElem? (hat.getElem? h.store)
    exact (huntouched _ hmem).2.symm

theorem State.Walking.commitBlock (hphase : s.phase = .blklist) (hcap : s.par.bcnt.toNat < s.cfg.blockCap.toNat)
    (hcur : s.cursor + 6 ≤ 2 ^ 32) (size : Half) (dataoff : Word) (hb : blockExpressible size dataoff = true) :
    (s.commitBlock size dataoff).Walking := by
  obtain ⟨hat, hbcnt⟩ := h.progress.blklist hphase
  have he := hat.getElem? h.store
  have hhere := s.entryAt_commitBlock _ he size dataoff
  have hkeep (i : Nat) (hi : i ≠ s.par.eidx.toNat) :
      (s.commitBlock size dataoff).store.ent[i]? = s.store.ent[i]? :=
    (s.getElem?_modifyEntry _ _ _).trans (if_neg hi)
  refine ⟨h.store.modify _ _ fun e' he' => ?_, fun _ => ?_, ?_, ?_⟩
  · obtain rfl : s.entryAt s.par.eidx.toNat = e' := Option.some.inj (he.symm.trans he')
    rw [hbcnt]
    exact (hat.inv h.store).addBlock hat.here (hbcnt ▸ hcap) _ hb
  · exact (toNat_cursor_add_of_le (c := s.par.cur) (k := 6) hcur).trans_le hcur
  · simp [hphase]
  · simp only [State.Progress, State.commitBlock_phase, hphase]
    refine ⟨⟨hat.header, hat.index, fun i e hi hlt => ?_, ?_, fun i e hi hlt => ?_⟩, ?_⟩
    · exact hat.before i e (hkeep i (Nat.ne_of_lt hlt) ▸ hi) hlt
    · exact (congrArg Entry.resolved hhere).trans hat.here
    · exact hat.after i e (hkeep i (Nat.ne_of_gt hlt) ▸ hi) hlt
    · exact (congrArg Entry.nblk hhere).symm

theorem State.Walking.endBlockList (hphase : s.phase = .blklist) : s.endBlockList.Walking := by
  obtain ⟨hat, -⟩ := h.progress.blklist hphase
  exact ⟨h.store, fun hp => (hp.elim nofun nofun), fun _ => rfl, hat.congr rfl rfl, Nat.zero_le _, rfl⟩

/-- The block whose data come next is one of entry EIDX. -/
theorem State.Walking.didx_lt (hphase : s.phase = .data) {b : Block} (hb : s.dataBlock = some b) :
    s.par.didx.toNat < (s.entryAt s.par.eidx.toNat).nblk.toNat := by
  obtain ⟨hat, -⟩ := h.progress.data hphase
  rw [hat.dataBlock_eq h.store] at hb
  exact (hat.inv h.store).count ▸ (List.getElem?_eq_some_iff.mp hb).1

theorem State.Walking.toNat_didx_succ (hphase : s.phase = .data) {b : Block} (hb : s.dataBlock = some b) :
    (s.par.didx + 1).toNat = s.par.didx.toNat + 1 :=
  toNat_succ_of_lt (h.didx_lt hphase hb)

/-- TLEN is a sum of sizes of blocks of one entry, which 32 bits hold (R29, R148). -/
theorem State.Walking.toNat_tlen_add (hphase : s.phase = .data) {b : Block} (hb : s.dataBlock = some b) :
    (s.par.tlen + b.size.setWidth 32).toNat = s.par.tlen.toNat + b.size.toNat := by
  obtain ⟨hat, -, hsize⟩ := h.progress.data hphase
  rw [hat.dataBlock_eq h.store] at hb
  have hsum := blocksSize_take_succ _ _ _ hb
  have hfits := (hat.inv h.store).blocksSize_take_lt (s.par.didx.toNat + 1)
  have hwide : (b.size.setWidth 32).toNat = b.size.toNat := BitVec.toNat_setWidth_of_le (by decide)
  rw [BitVec.toNat_add_of_lt (by omega), hwide]

theorem State.Walking.appendData (hphase : s.phase = .data) (b : Block) (hb : s.dataBlock = some b) (q : List Byte)
    (hq : q.length = b.size.toNat) : (s.appendData q b.size).Walking := by
  have htlen := h.toNat_tlen_add hphase hb
  have hnext := h.toNat_didx_succ hphase hb
  obtain ⟨hat, -, hsize⟩ := h.progress.data hphase
  refine ⟨h.store, by simp [hphase], fun _ => ?_, ?_⟩
  · rw [State.appendData_par, htlen, List.length_append, hq, h.tlen (.inl hphase)]
  · simp only [State.Progress, State.appendData_phase, hphase]
    refine ⟨hat.congr rfl rfl, hnext.trans_le (h.didx_lt hphase hb), htlen.trans ?_⟩
    rw [hat.dataBlock_eq h.store] at hb
    rw [hsize, ← blocksSize_take_succ _ _ _ hb, ← hnext]
    rfl

/-- No block is left: the blocks seen are all. -/
theorem State.Walking.gatheredAll (hphase : s.phase = .data) (hb : s.dataBlock = none) :
    State.Walking { s with phase := .dec } := by
  obtain ⟨hat, hdidx, hsize⟩ := h.progress.data hphase
  rw [hat.dataBlock_eq h.store, List.getElem?_eq_none_iff] at hb
  rw [List.take_of_length_le hb] at hsize
  exact ⟨h.store, fun hp => (hp.elim nofun nofun), fun _ => h.tlen (.inl hphase), hat.congr rfl rfl, hsize⟩

/-- The payload is as long as CBUF, and TLEN says so. -/
theorem State.Walking.withPayload_store (hphase : s.phase = .dec) : s.withPayload.store.Inv s.cfg := by
  obtain ⟨hat, hsize⟩ := h.progress.dec hphase
  have htlen := h.tlen (.inr hphase)
  refine h.store.modify _ _ fun e he => ?_
  obtain rfl : s.entryAt s.par.eidx.toNat = e := Option.some.inj ((hat.getElem? h.store).symm.trans he)
  refine (hat.inv h.store).resolve _ _ hsize ?_
  rw [length_xorBytes _ _ (by rw [length_keystream, htlen]), htlen]

/-- The entry after one that is resolved (R150). -/
theorem State.Walking.startNext (hphase : s.phase = .dec) (hmore : s.par.eidx.toNat + 1 < s.store.ecnt.toNat) :
    (s.withPayload.startEntry (s.par.eidx + 1)).Walking := by
  obtain ⟨hat, -⟩ := h.progress.dec hphase
  have he := hat.getElem? h.store
  have hnext : (s.par.eidx + 1).toNat = s.par.eidx.toNat + 1 := toNat_succ_of_lt (cap := s.store.ecnt) (by omega)
  have hlt : (s.par.eidx + 1).toNat < s.store.ent.length := by rw [hnext, h.store.count]; exact hmore
  have hentry : s.withPayload.store.ent[(s.par.eidx + 1).toNat]? = some s.store.ent[(s.par.eidx + 1).toNat] := by
    rw [s.getElem?_withPayload_other _ (by omega), List.getElem?_eq_getElem hlt]
  have huntouched : (s.withPayload.entryAt (s.par.eidx + 1).toNat).untouched := by
    rw [State.entryAt_of_getElem? _ _ _ hentry]
    exact hat.after _ _ (List.getElem?_eq_getElem hlt) (by omega)
  refine ⟨h.withPayload_store hphase, fun _ => ?_, fun hp => (hp.elim nofun nofun), ⟨hat.header, ?_, ?_, ?_, ?_⟩, ?_⟩
  · rw [State.cursor, State.startEntry_par, BitVec.toNat_setWidth_of_le (by decide)]
    exact (BitVec.isLt _).le
  · exact hnext.trans_lt hmore
  · intro i e hi hlt
    replace hlt : i < (s.par.eidx + 1).toNat := hlt
    rcases eq_or_ne i s.par.eidx.toNat with rfl | hne
    · obtain rfl := Option.some.inj ((s.getElem?_withPayload_here _ he).symm.trans hi)
      rfl
    · exact hat.before i e ((s.getElem?_withPayload_other i hne).symm.trans hi) (by omega)
  · exact huntouched.1
  · intro i e hi hlt
    replace hlt : (s.par.eidx + 1).toNat < i := hlt
    exact hat.after i e ((s.getElem?_withPayload_other i (by omega)).symm.trans hi) (by omega)
  · exact huntouched.2.symm

/-- Every move of KDB.DECODE keeps the invariant of its progress. -/
theorem State.Walking.advances {t : State} (hmove : s.Advances t) : t.Walking := by
  have hlen := s.ports.src.len.isLt
  cases hmove with
  | readFailed p k e => exact .of_idle rfl h.store
  | badMagic => exact .of_idle rfl h.store
  | header hphase => exact (h.probed [] 2).enterList hphase _
  | entry hphase hcap hl hs =>
    exact (h.probed _ 3).commitEntry hphase hcap (show s.cursor + 20 ≤ 2 ^ 32 by omega) _ _
      (nameExpressible_bytes _ _ hs)
  | entriesOver => exact .of_idle rfl h.store
  | firstEntry hphase p k hp hk hsome => exact (h.probed p k).startFirst hphase hsome
  | noEntry => exact .of_idle rfl h.store
  | block hphase hcap hl hs =>
    exact (h.probed _ 1).commitBlock hphase hcap (show s.cursor + 6 ≤ 2 ^ 32 by omega) _ _
      (blockExpressible_bytes _ _ hs)
  | blocksOver => exact .of_idle rfl h.store
  | blocksEnd hphase p k => exact (h.probed p k).endBlockList hphase
  | gathered hphase b hb k =>
    exact (h.probed [] k).appendData hphase b hb _ (Source.length_bytes _ _ _)
  | gatheredAll hphase hb => exact h.gatheredAll hphase hb
  | nextEntry hphase hmore => exact h.startNext hphase hmore
  | lastEntry hphase => exact .of_idle rfl (h.withPayload_store hphase)

end Moves

end Sys2Proof.Machine
end

section
/-! O51 and O52. The invariant of the block: a reset establishes it, and every step keeps it. What a command leaves on the
ports and in the status group follows from how its step comes out; the store and the registers from the moves. -/

namespace Sys2Proof.Machine

/-! ## Reset -/

theorem Store.Inv.reset (cfg : Configuration) : Store.reset.Inv cfg :=
  ⟨rfl, Nat.zero_le _, fun _ he => (List.not_mem_nil he).elim, fun _ => rfl⟩

/-- A status group of zeros (R178, R201). -/
theorem Status.okay_inv : Status.okay.Inv :=
  ⟨fun _ => ⟨rfl, rfl, rfl, rfl⟩, fun h => absurd rfl h, nofun⟩

theorem Ports.empty_wf : Ports.empty.src.wf = true := rfl

theorem State.applyReset_inv (s : State) : s.applyReset.Inv :=
  ⟨.reset s.cfg, Status.okay_inv, ⟨nofun, absurd rfl⟩, rfl, rfl, Nat.zero_le _, ⟨rfl, rfl⟩, Ports.empty_wf, nofun,
    fun _ => rfl, fun _ => rfl, trivial⟩

/-- Settles O51: `State.reset` is what a reset leaves at the default configuration. -/
theorem invariantHoldsAtReset : Obligations.InvariantHoldsAtReset :=
  State.reset.applyReset_inv

/-! ## The idle step -/

theorem State.Inv.delivered {s : State} (h : s.Inv) (hphase : s.phase = .idle) : s.delivered.Inv :=
  ⟨h.store, h.status, h.busy, h.tlen, h.probe, h.cursor, h.counters, h.source, h.waiting, h.ports,
    fun hne => absurd hphase hne, (State.Walking.of_idle (s := s.delivered) hphase h.store).progress⟩

theorem State.Inv.accept {s : State} (h : s.Inv) {p : Ports} (hp : s.waiting = some p) : (s.accept p).Inv :=
  ⟨h.store, ⟨h.status.okay, h.status.sub, h.status.phase⟩, ⟨fun _ => nofun, fun _ => rfl⟩, h.tlen, h.probe, h.cursor,
    h.counters, h.waiting p hp, nofun, nofun, fun _ => rfl, trivial⟩

theorem State.Inv.idleStep {s : State} (h : s.Inv) (hphase : s.phase = .idle) : s.idleStep.Inv := by
  rcases s.idleStep_cases with ⟨p, -, hp, hi⟩ | ⟨-, hi⟩ <;> rw [hi]
  · exact h.accept hp
  · exact h.delivered hphase

/-! ## Ports and status group of a command -/

/-- The part of the invariant that how a command's step comes out decides. -/
structure State.Housekeeping (s : State) : Prop where
  status : s.status.Inv
  busy : s.status.busy = true ↔ s.phase ≠ .idle
  source : s.ports.src.wf = true
  ports : s.phase = .idle → s.ports = Ports.empty
  delivery : s.phase ≠ .idle → s.delivery = none

theorem State.ComesTo.housekeeping {s t : State} (h : s.ComesTo t) (hinv : s.Inv) (hidle : s.phase ≠ .idle) :
    t.Housekeeping := by
  cases h with
  | goesOn hphase hstatus hports hdelivery =>
    refine ⟨hstatus ▸ hinv.status, ?_, hports ▸ hinv.source, fun h => absurd h hphase, fun _ => ?_⟩
    · rw [hstatus]
      exact ⟨fun _ => hphase, fun _ => hinv.busy.mpr hidle⟩
    · rw [hdelivery, hinv.delivery hidle]
  | completes u out idx =>
    exact ⟨Status.okay_inv, ⟨nofun, absurd rfl⟩, Ports.empty_wf, fun _ => rfl, absurd rfl⟩
  | fails u e sub hstore hphase hksg hsub =>
    refine ⟨⟨nofun, fun h => ?_, fun _ _ => ?_⟩, ⟨nofun, absurd rfl⟩, Ports.empty_wf, fun _ => rfl, absurd rfl⟩
    · obtain ⟨rfl, hne⟩ := hsub h
      exact ⟨rfl, hne⟩
    · exact (congrArg (· ≠ Phase.idle) hphase).mpr hidle

/-! ## PAR's and KSG's registers -/

/-- What the invariant says of the registers in every phase. -/
structure State.RegistersInv (s : State) : Prop where
  tlen : s.par.tlen.toNat = s.par.cbuf.length
  probe : s.par.probe.length = 6
  cursor : s.cursor ≤ 2 ^ 32
  counters : s.ksg.bitcnt = 0 ∧ s.ksg.kcnt = 0

theorem State.Inv.registers {s : State} (h : s.Inv) : s.RegistersInv := ⟨h.tlen, h.probe, h.cursor, h.counters⟩

theorem State.Inv.of_parts {t : State} (hw : t.Walking) (hh : t.Housekeeping) (hr : t.RegistersInv)
    (hwaiting : ∀ p, t.waiting = some p → p.src.wf = true) : t.Inv :=
  ⟨hw.store, hh.status, hh.busy, hr.tlen, hr.probe, hr.cursor, hr.counters, hh.source, hwaiting, hh.ports, hh.delivery,
    hw.progress⟩

/-- A probe of up to six bytes leaves six in PROBE (R27). -/
theorem State.length_probe_probed (s : State) (h : s.par.probe.length = 6) (p : List Byte) (k : Nat) (hp : p.length ≤ 6) :
    (s.probed p k).par.probe.length = 6 := by
  simp only [State.probed_par, List.length_append, List.length_drop]
  omega

theorem State.Advances.probe {s t : State} (h : s.Advances t) (hprobe : s.par.probe.length = 6) :
    t.par.probe.length = 6 := by
  cases h with
  | readFailed p k _ _ hp => exact s.length_probe_probed hprobe p k hp
  | firstEntry _ p k hp | noEntry _ p k hp | blocksEnd _ p k hp => exact s.length_probe_probed hprobe p k hp
  | entry => exact s.length_probe_probed hprobe _ 3 (by simp)
  | entriesOver | block | blocksOver => exact s.length_probe_probed hprobe _ 1 (by simp)
  | badMagic | header | gathered | gatheredAll | nextEntry | lastEntry => exact hprobe

/-- CUR is written in the lists only, and on the way into them. -/
theorem State.Advances.cur {s t : State} (h : s.Advances t) :
    (t.phase = .entlist ∨ t.phase = .blklist) ∨ t.par.cur = s.par.cur := by
  cases h with
  | header => exact .inl (.inl rfl)
  | entry hphase => exact .inl (.inl hphase)
  | firstEntry | nextEntry => exact .inl (.inr rfl)
  | block hphase => exact .inl (.inr hphase)
  | _ => exact .inr rfl

/-- CBUF and TLEN are written in phase DATA only, and on the way into it. -/
theorem State.Advances.cbuf {s t : State} (h : s.Advances t) :
    (t.phase = .data ∨ t.phase = .dec) ∨ t.par.tlen = s.par.tlen ∧ t.par.cbuf = s.par.cbuf := by
  cases h with
  | blocksEnd => exact .inl (.inl rfl)
  | gathered hphase => exact .inl (.inl hphase)
  | _ => exact .inr ⟨rfl, rfl⟩

theorem State.Advances.counters {s t : State} (h : s.Advances t) (hc : s.ksg.bitcnt = 0 ∧ s.ksg.kcnt = 0) :
    t.ksg.bitcnt = 0 ∧ t.ksg.kcnt = 0 := by
  cases h with
  | nextEntry | lastEntry => exact ⟨rfl, rfl⟩
  | _ => exact hc

theorem State.Advances.registers {s t : State} (h : s.Advances t) (hr : s.RegistersInv) (hw : t.Walking) :
    t.RegistersInv := by
  refine ⟨?_, h.probe hr.probe, ?_, h.counters hr.counters⟩
  · rcases h.cbuf with hphase | ⟨htlen, hcbuf⟩
    · exact hw.tlen hphase
    · rw [htlen, hcbuf]
      exact hr.tlen
  · rcases h.cur with hphase | hcur
    · exact hw.cursor hphase
    · rw [State.cursor, hcur]
      exact hr.cursor

theorem State.Commences.walking {s t : State} (h : s.Commences t) (hstore : s.store.Inv s.cfg) : t.Walking := by
  cases h with
  | responds h => cases h <;> exact .of_idle rfl hstore
  | generates S out => exact .of_idle rfl hstore
  | starts => exact .startDecode s

theorem State.Commences.registers {s t : State} (h : s.Commences t) (hr : s.RegistersInv) : t.RegistersInv := by
  cases h with
  | responds h => cases h <;> exact ⟨hr.tlen, hr.probe, hr.cursor, hr.counters⟩
  | generates S out => exact ⟨hr.tlen, hr.probe, hr.cursor, rfl, rfl⟩
  | starts => exact ⟨hr.tlen, hr.probe, hr.cursor, hr.counters⟩

/-! ## Every step -/

theorem State.Inv.steps {s t : State} (h : s.Inv) (hstep : s.Steps t) : t.Inv := by
  cases hstep with
  | reset => exact s.applyReset_inv
  | idle _ hphase => exact h.idleStep hphase
  | command _ hphase hc =>
    have hidle : s.phase ≠ .idle := by simp [hphase]
    exact .of_parts (hc.walking h.store) (hc.comesTo.housekeeping h hidle) (hc.registers h.registers)
      (hc.keepsInputs.waiting ▸ h.waiting)
  | advance _ hidle _ hm =>
    have hw := h.walking.advances hm
    exact .of_parts hw ((hm.comesTo hidle).housekeeping h hidle) (hm.registers h.registers hw)
      (hm.keepsInputs.waiting ▸ h.waiting)

/-- Settles O52: each kind of step keeps it. -/
theorem everyStepKeepsTheInvariant : Obligations.EveryStepKeepsTheInvariant :=
  fun _ _ hinv hstep => hinv.steps (steps_of_step hstep)

end Sys2Proof.Machine
end

section
/-! O53. The reads of one KDB.DECODE (R157): each step has room under the bound for the reads it can make, so the bound of
the phase it comes to holds again. -/

namespace Sys2Proof.Machine

/-- The greatest number of reads that one entry's lists and data take. -/
def entryReads (cfg : Configuration) : Nat :=
  cfg.blockCap.toNat + 1 + cfg.blockCap.toNat

/-- An entry's reads fit behind those of the entries before it. -/
theorem mul_entryReads_le {n cap : Nat} (cfg : Configuration) (h : n < cap) :
    n * entryReads cfg + entryReads cfg ≤ cap * entryReads cfg := by
  rw [← Nat.succ_mul]
  exact Nat.mul_le_mul_right _ h

theorem decodeReads_eq (cfg : Configuration) :
    decodeReads cfg = 3 + 3 * cfg.entryCap.toNat + cfg.entryCap.toNat * entryReads cfg := by
  rw [decodeReads, entryReads]
  omega

theorem State.Walking.eidx_lt {s : State} (h : s.Walking) (hat : s.AtEntry) :
    s.par.eidx.toNat < s.cfg.entryCap.toNat :=
  hat.index.trans_le h.store.cap

theorem State.Walking.nblk_le {s : State} (h : s.Walking) (hat : s.AtEntry) :
    (s.entryAt s.par.eidx.toNat).nblk.toNat ≤ s.cfg.blockCap.toNat :=
  (hat.inv h.store).cap

/-! ### The bounds by phase, taken apart -/

section Bounds

variable {s : State} (h : s.ReadsBounded)
include h

theorem State.ReadsBounded.hdr (hphase : s.phase = .hdr) : s.par.reads = 0 := by
  rwa [State.ReadsBounded, hphase] at h

theorem State.ReadsBounded.entlist (hphase : s.phase = .entlist) : s.par.reads ≤ 2 + 3 * s.store.ecnt.toNat := by
  rwa [State.ReadsBounded, hphase] at h

theorem State.ReadsBounded.blklist (hphase : s.phase = .blklist) :
    s.par.reads ≤ 3 + 3 * s.cfg.entryCap.toNat + s.par.eidx.toNat * entryReads s.cfg + s.par.bcnt.toNat := by
  rwa [State.ReadsBounded, hphase] at h

theorem State.ReadsBounded.data (hphase : s.phase = .data) :
    s.par.reads ≤ 3 + 3 * s.cfg.entryCap.toNat + s.par.eidx.toNat * entryReads s.cfg +
      (s.cfg.blockCap.toNat + 1) + s.par.didx.toNat := by
  rwa [State.ReadsBounded, hphase] at h

theorem State.ReadsBounded.dec (hphase : s.phase = .dec) :
    s.par.reads ≤ 3 + 3 * s.cfg.entryCap.toNat + (s.par.eidx.toNat + 1) * entryReads s.cfg := by
  rwa [State.ReadsBounded, hphase] at h

end Bounds

/-- In every phase the bound leaves room for the reads of the next step. -/
theorem State.ReadsBounded.room {s : State} (h : s.ReadsBounded) (hw : s.Walking) :
    s.par.reads + s.readRoom ≤ decodeReads s.cfg := by
  have hcap := hw.store.cap
  cases hphase : s.phase with
  | idle | cmd => simpa only [State.ReadsBounded, State.readRoom, hphase, Nat.add_zero] using h
  | hdr =>
    have hreads := h.hdr hphase
    simp only [State.readRoom, hphase, decodeReads_eq]
    omega
  | entlist =>
    have hreads := h.entlist hphase
    simp only [State.readRoom, hphase, decodeReads_eq]
    split <;> omega
  | blklist =>
    obtain ⟨hat, hbcnt⟩ := hw.progress.blklist hphase
    have hreads := h.blklist hphase
    have hnblk := hbcnt ▸ hw.nblk_le hat
    have hmul := mul_entryReads_le s.cfg (hw.eidx_lt hat)
    simp only [State.readRoom, hphase, decodeReads_eq]
    rw [entryReads] at *
    omega
  | data =>
    obtain ⟨hat, hdidx, -⟩ := hw.progress.data hphase
    have hreads := h.data hphase
    have hnblk := hw.nblk_le hat
    have hmul := mul_entryReads_le s.cfg (hw.eidx_lt hat)
    have hroom : s.par.didx.toNat + s.readRoom ≤ s.cfg.blockCap.toNat := by
      simp only [State.readRoom, hphase]
      split
      · omega
      · next hsome =>
        obtain ⟨b, hb⟩ := Option.ne_none_iff_exists'.mp hsome
        have := hw.didx_lt hphase hb
        omega
    rw [decodeReads_eq]
    rw [entryReads] at *
    omega
  | dec =>
    obtain ⟨hat, -⟩ := hw.progress.dec hphase
    have hreads := h.dec hphase
    have hmul := mul_entryReads_le s.cfg (hw.eidx_lt hat)
    rw [Nat.add_one_mul s.par.eidx.toNat] at hreads
    simp only [State.readRoom, hphase, decodeReads_eq]
    omega

/-- A list's next probe has room. -/
theorem State.one_le_readRoom {s : State} (h : s.phase = .entlist ∨ s.phase = .blklist) : 1 ≤ s.readRoom := by
  rcases h with h | h <;> simp only [State.readRoom, h]
  · split <;> decide
  · exact Nat.le_refl 1

theorem State.ReadsBounded.advances {s t : State} (h : s.ReadsBounded) (hw : s.Walking) (hmove : s.Advances t) :
    t.ReadsBounded := by
  have hroom := h.room hw
  cases hmove with
  | readFailed p k _ _ _ hk => exact (Nat.add_le_add_left hk _).trans hroom
  | badMagic hphase =>
    have h1 : s.readRoom = 2 := by simp only [State.readRoom, hphase]
    exact (show s.par.reads + 1 ≤ decodeReads s.cfg by omega)
  | entriesOver hphase =>
    have h1 := State.one_le_readRoom (.inl hphase)
    exact (show s.par.reads + 1 ≤ decodeReads s.cfg by omega)
  | noEntry hphase p k _ hk =>
    have h1 := State.one_le_readRoom (.inl hphase)
    exact (show s.par.reads + k ≤ decodeReads s.cfg by omega)
  | blocksOver hphase =>
    have h1 := State.one_le_readRoom (.inr hphase)
    exact (show s.par.reads + 1 ≤ decodeReads s.cfg by omega)
  | lastEntry => exact (Nat.le_add_right _ _).trans hroom
  | header hphase =>
    have hreads := h.hdr hphase
    exact (show s.par.reads + 2 ≤ 2 + 3 * s.store.ecnt.toNat by omega)
  | entry hphase hcap =>
    have hreads := h.entlist hphase
    have hcount : (s.store.ecnt + 1).toNat = s.store.ecnt.toNat + 1 := toNat_succ_of_lt hcap
    simp only [State.ReadsBounded, State.commitEntry_phase, State.probed_phase, hphase, State.commitEntry_par,
      State.probed_par, State.commitEntry_store, State.probed_store, hcount]
    omega
  | firstEntry hphase p k _ hk =>
    have hreads := h.entlist hphase
    have hcap := hw.store.cap
    simp only [State.ReadsBounded, State.startEntry_phase, State.startEntry_par, State.probed_par, State.startEntry_cfg,
      State.probed_cfg]
    omega
  | block hphase hcap =>
    have hreads := h.blklist hphase
    have hcount : (s.par.bcnt + 1).toNat = s.par.bcnt.toNat + 1 := toNat_succ_of_lt hcap
    simp only [State.ReadsBounded, State.commitBlock_phase, State.probed_phase, hphase, State.commitBlock_par,
      State.probed_par, State.commitBlock_cfg, State.probed_cfg, hcount]
    rw [entryReads] at hreads
    omega
  | blocksEnd hphase p k _ hk =>
    obtain ⟨hat, hbcnt⟩ := hw.progress.blklist hphase
    have hreads := h.blklist hphase
    have hnblk := hbcnt ▸ hw.nblk_le hat
    simp only [State.ReadsBounded, State.endBlockList_phase, State.endBlockList_par, State.probed_par,
      State.endBlockList_cfg, State.probed_cfg]
    rw [entryReads] at hreads
    omega
  | gathered hphase b hb k hk =>
    have hreads := h.data hphase
    have hnext := hw.toNat_didx_succ hphase hb
    simp only [State.ReadsBounded, State.appendData_phase, State.addReads_phase, hphase, State.appendData_par,
      State.addReads_par, State.appendData_cfg, State.addReads_cfg, hnext]
    rw [entryReads] at hreads
    omega
  | gatheredAll hphase =>
    obtain ⟨hat, hdidx, -⟩ := hw.progress.data hphase
    have hreads := h.data hphase
    have hnblk := hw.nblk_le hat
    simp only [State.ReadsBounded, Nat.add_one_mul]
    rw [entryReads] at hreads
    omega
  | nextEntry hphase hmore =>
    have hreads := h.dec hphase
    have hnext : (s.par.eidx + 1).toNat = s.par.eidx.toNat + 1 := toNat_succ_of_lt (cap := s.store.ecnt) (by omega)
    have hidx : (s.withPayload.startEntry (s.par.eidx + 1)).par.eidx.toNat = s.par.eidx.toNat + 1 := hnext
    rw [State.ReadsBounded, State.startEntry_phase]
    simp only [hidx]
    exact hreads

/-- A command's first step makes no read. -/
theorem State.ReadsBounded.commences {s t : State} (h : s.ReadsBounded) (hphase : s.phase = .cmd) (hc : s.Commences t) :
    t.ReadsBounded := by
  have hreads : s.par.reads ≤ decodeReads s.cfg := by simpa only [State.ReadsBounded, hphase] using h
  cases hc with
  | responds hr => cases hr <;> exact hreads
  | generates S out => exact hreads
  | starts => exact rfl

theorem State.ReadsBounded.idleStep {s : State} (h : s.ReadsBounded) (hphase : s.phase = .idle) :
    s.idleStep.ReadsBounded := by
  have hreads : s.par.reads ≤ decodeReads s.cfg := by simpa only [State.ReadsBounded, hphase] using h
  rcases s.idleStep_cases with ⟨p, -, -, hi⟩ | ⟨-, hi⟩ <;> rw [hi]
  · exact hreads
  · simpa only [State.ReadsBounded, State.delivered_phase, State.delivered_par, State.delivered_cfg, hphase] using hreads

/-- Settles O53: each kind of step keeps the bound of its phase, and every phase's bound is below the greatest number. -/
theorem readsStayBounded : Obligations.ReadsStayBounded := by
  intro s t hinv hreads hstep
  have hsteps := steps_of_step hstep
  have ht : t.ReadsBounded := by
    cases hsteps with
    | reset => exact Nat.zero_le _
    | idle _ hphase => exact hreads.idleStep hphase
    | command _ hphase hc => exact hreads.commences hphase hc
    | advance _ _ _ hm => exact hreads.advances hinv.walking hm
  exact ⟨ht, (Nat.le_add_right _ _).trans (ht.room (hinv.steps hsteps).walking)⟩

end Sys2Proof.Machine
end

section
/-! O55. The records of the store are those of SRC: a record is committed from the bytes at CUR, and CUR stands where the
format places the next record (R62). -/

namespace Sys2Proof.Machine

/-- The name, the offset and the block records of an entry are what a source holds for the entry record at `a`. -/
def Entry.Mirrors (e : Entry) (src : Source) (a : Nat) : Prop :=
  e.name = src.bytes a 16 ∧ e.blkoff = le32 (src.bytes (a + 16) 4) ∧
    ∀ j b, e.blks[j]? = some b →
      b.size = le16 (src.bytes (e.blkoff.toNat + 6 * j) 2) ∧
      b.dataoff = le32 (src.bytes (e.blkoff.toNat + 6 * j + 2) 4)

/-- Every entry of a store is the one at its place (R62). -/
def Store.Mirrors (st : Store) (src : Source) : Prop :=
  ∀ (i : Nat) (e : Entry), st.ent[i]? = some e → e.Mirrors src (st.eloff.toNat + 20 * i)

theorem State.mirrorsSource_iff (s : State) (src : Source) :
    s.MirrorsSource src ↔ s.store.Mirrors src ∧
      (s.phase = .entlist → s.cursor = s.store.eloff.toNat + 20 * s.store.ecnt.toNat) ∧
      (s.phase = .blklist → s.cursor = (s.entryAt s.par.eidx.toNat).blkoff.toNat + 6 * s.par.bcnt.toNat) :=
  Iff.rfl

theorem freshEntry_mirrors (src : Source) (a : Nat) :
    (freshEntry (src.bytes a 16) (le32 (src.bytes (a + 16) 4))).Mirrors src a :=
  ⟨rfl, rfl, nofun⟩

/-- The next block record, from the place it has (R143, R144). -/
theorem Entry.Mirrors.addBlock {e : Entry} {src : Source} {a c : Nat} (h : e.Mirrors src a)
    (hc : c = e.blkoff.toNat + 6 * e.blks.length) (n : Half) :
    (e.addBlock ⟨le16 (src.bytes c 2), le32 (src.bytes (c + 2) 4)⟩ n).Mirrors src a := by
  obtain ⟨hname, hoff, hblks⟩ := h
  refine ⟨hname, hoff, fun j b hb => ?_⟩
  rcases lt_trichotomy j e.blks.length with hj | rfl | hj
  · exact hblks j b ((List.getElem?_append_left hj).symm.trans hb)
  · obtain rfl := Option.some.inj (List.getElem?_concat_length.symm.trans hb)
    rw [hc]
    exact ⟨rfl, rfl⟩
  · rw [show (e.addBlock _ n).blks[j]? = none from List.getElem?_eq_none (by simp [Entry.addBlock]; omega)] at hb
    cases hb

theorem Store.Mirrors.modify {st : Store} {src : Source} (h : st.Mirrors src) (i : Nat) (f : Entry → Entry)
    (hf : ∀ e, st.ent[i]? = some e → ∀ a, e.Mirrors src a → (f e).Mirrors src a) :
    Store.Mirrors { st with ent := st.ent.modify i f } src := by
  intro j e he
  obtain ⟨e', he', rfl⟩ := Option.map_eq_some_iff.mp ((List.getElem?_modify _ _ _ _).symm.trans he)
  split
  · next hij => exact hf e' (hij ▸ he') _ (h j e' he')
  · exact h j e' he'

section Moves

variable {s : State} (hw : s.Walking) {src : Source} (h : s.MirrorsSource src)

include h in
theorem State.MirrorsSource.of_store {t : State} (hstore : t.store = s.store) (hel : t.phase ≠ .entlist)
    (hbl : t.phase ≠ .blklist) : t.MirrorsSource src :=
  ⟨hstore ▸ h.1, fun hp => absurd hp hel, fun hp => absurd hp hbl⟩

include hw in
/-- There is no entry yet, and CUR is at the first place. -/
theorem State.MirrorsSource.enterList (hphase : s.phase = .hdr) (eloff : Word) :
    (s.enterList eloff).MirrorsSource src := by
  have hecnt : s.store.ecnt = 0 := hw.store.header (hw.progress.hdr hphase)
  have hnil : s.store.ent = [] := List.length_eq_zero_iff.mp (hw.store.count.trans (by rw [hecnt]; rfl))
  refine ⟨fun i e he => ?_, fun _ => ?_, nofun⟩
  · simp [State.enterList, hnil] at he
  · simp only [State.enterList, hecnt]
    exact BitVec.toNat_setWidth_of_le (by decide)

include hw h in
theorem State.MirrorsSource.commitEntry (hphase : s.phase = .entlist)
    (hcap : s.store.ecnt.toNat < s.cfg.entryCap.toNat) (hcur : s.cursor + 20 ≤ 2 ^ 32) :
    (s.commitEntry (src.bytes s.cursor 16) (le32 (src.bytes (s.cursor + 16) 4))).MirrorsSource src := by
  obtain ⟨hstore, hplace, -⟩ := (s.mirrorsSource_iff src).mp h
  have hat := hplace hphase
  have hcount : (s.store.ecnt + 1).toNat = s.store.ecnt.toNat + 1 := toNat_succ_of_lt hcap
  have hnext : (s.par.cur + 20).toNat = s.cursor + 20 := toNat_cursor_add_of_le hcur
  refine ⟨fun i e he => ?_, fun _ => ?_, by simp [hphase]⟩
  · replace he : (s.store.ent ++ [freshEntry _ _])[i]? = some e := he
    rcases lt_trichotomy i s.store.ent.length with hi | rfl | hi
    · exact hstore i e ((List.getElem?_append_left hi).symm.trans he)
    · obtain rfl := Option.some.inj (List.getElem?_concat_length.symm.trans he)
      rw [show s.cursor = s.store.eloff.toNat + 20 * s.store.ent.length by rw [hat, hw.store.count]]
      exact freshEntry_mirrors src _
    · rw [List.getElem?_eq_none (by simp; omega)] at he
      cases he
  · calc (s.par.cur + 20).toNat = s.store.eloff.toNat + 20 * (s.store.ecnt.toNat + 1) := by omega
      _ = s.store.eloff.toNat + 20 * (s.store.ecnt + 1).toNat := by rw [hcount]

include h in
/-- The seek to an entry's first block record (R141). -/
theorem State.MirrorsSource.startEntry (i : Half) : (s.startEntry i).MirrorsSource src :=
  ⟨h.1, nofun, fun _ => BitVec.toNat_setWidth_of_le (by decide)⟩

include hw h in
theorem State.MirrorsSource.commitBlock (hphase : s.phase = .blklist)
    (hcap : s.par.bcnt.toNat < s.cfg.blockCap.toNat) (hcur : s.cursor + 6 ≤ 2 ^ 32) :
    (s.commitBlock (le16 (src.bytes s.cursor 2)) (le32 (src.bytes (s.cursor + 2) 4))).MirrorsSource src := by
  obtain ⟨hat, hbcnt⟩ := hw.progress.blklist hphase
  obtain ⟨hstore, -, hplace⟩ := (s.mirrorsSource_iff src).mp h
  have he := hat.getElem? hw.store
  have hlen : (s.entryAt s.par.eidx.toNat).blks.length = s.par.bcnt.toNat := by rw [hbcnt, (hat.inv hw.store).count]
  have hcount : (s.par.bcnt + 1).toNat = s.par.bcnt.toNat + 1 := toNat_succ_of_lt hcap
  have hnext : (s.par.cur + 6).toNat = s.cursor + 6 := toNat_cursor_add_of_le hcur
  refine ⟨hstore.modify _ _ fun e' he' a ha => ?_, by simp [hphase], fun _ => ?_⟩
  · obtain rfl := Option.some.inj (he.symm.trans he')
    exact ha.addBlock (hlen ▸ hplace hphase) _
  · have hhere := congrArg Entry.blkoff
      (s.entryAt_commitBlock _ he (le16 (src.bytes s.cursor 2)) (le32 (src.bytes (s.cursor + 2) 4)))
    have hoff := congrArg BitVec.toNat hhere
    have hcursor := hplace hphase
    calc (s.par.cur + 6).toNat = (s.entryAt s.par.eidx.toNat).blkoff.toNat + 6 * (s.par.bcnt + 1).toNat := by omega
      _ = _ := congrArg (· + _) hoff.symm

include h in
/-- A payload is no record. -/
theorem State.MirrorsSource.withPayload : s.withPayload.store.Mirrors src :=
  Store.Mirrors.modify h.1 _ _ fun _ _ _ ha => ha

include hw h in
theorem State.MirrorsSource.advances (hsrc : s.ports.src = src) {t : State} (hmove : s.Advances t) :
    t.MirrorsSource src := by
  have hlen := s.ports.src.len.isLt
  subst hsrc
  cases hmove with
  | readFailed | badMagic | entriesOver | noEntry | blocksOver => exact h.of_store rfl nofun nofun
  | blocksEnd => exact h.of_store rfl nofun nofun
  | gatheredAll => exact h.of_store rfl nofun nofun
  | gathered hphase => exact h.of_store rfl (by simp [hphase]) (by simp [hphase])
  | header hphase => exact .enterList (hw.probed [] 2) hphase _
  | entry hphase hcap hl =>
    exact State.MirrorsSource.commitEntry (hw.probed _ 3) (s := s.probed _ 3) h hphase hcap
      (show s.cursor + 20 ≤ 2 ^ 32 by omega)
  | firstEntry hphase p k => exact State.MirrorsSource.startEntry (s := s.probed p k) h 0
  | block hphase hcap hl =>
    exact State.MirrorsSource.commitBlock (hw.probed _ 1) (s := s.probed _ 1) h hphase hcap
      (show s.cursor + 6 ≤ 2 ^ 32 by omega)
  | nextEntry hphase =>
    have hpaid : s.withPayload.MirrorsSource s.ports.src :=
      ⟨h.withPayload, by simp [State.withPayload, hphase], by simp [State.withPayload, hphase]⟩
    exact hpaid.startEntry _
  | lastEntry => exact ⟨h.withPayload, nofun, nofun⟩

end Moves

/-- Settles O55: each move keeps it, and a move that does not respond keeps the ports. -/
theorem storeMirrorsTheSource : Obligations.StoreMirrorsTheSource := by
  intro s t hinv hreset hidle hcmd hmirrors hstep
  have hmove := advances_of_step hreset hstep hidle hcmd
  refine ⟨hmirrors.advances hinv.walking rfl hmove, fun hrun => ?_⟩
  cases hmove.comesTo hidle with
  | goesOn _ _ hports _ => exact hports
  | completes | fails => exact absurd rfl hrun

end Sys2Proof.Machine
end

section
/-! O40 to O43, O48 to O50 and O60. What instructions and steps leave unchanged, and what a response leaves, read off from
how a step comes out. -/

namespace Sys2Proof.Machine

/-! ## Responses -/

/-- What every response leaves: no command in progress, a delivery, nothing on the ports (R44, R178, R180). -/
structure State.Responded (t : State) : Prop where
  phase : t.phase = .idle
  delivery : t.delivery ≠ none
  ports : t.ports = Ports.empty

theorem State.responded_respondOk (s : State) (out : List Byte) (idx : Option Half) : (s.respondOk out idx).Responded :=
  ⟨rfl, nofun, rfl⟩

theorem State.responded_raise (s : State) (e : Err) (sub : BitVec 2) : (s.raise e sub).Responded :=
  ⟨rfl, nofun, rfl⟩

theorem State.Responds.responded {s t : State} (h : s.Responds t) : t.Responded := by
  cases h with
  | ok out idx => exact s.responded_respondOk out idx
  | error e => exact s.responded_raise e 0

/-- What a command that responds leaves of the state: everything but the response (R187). -/
structure State.KeepsUnits (s t : State) : Prop extends s.KeepsInputs t where
  store : t.store = s.store
  par : t.par = s.par

theorem State.Responds.keepsUnits {s t : State} (h : s.Responds t) : s.KeepsUnits t ∧ t.ksg = s.ksg := by
  cases h <;> exact ⟨⟨⟨rfl, rfl, rfl⟩, rfl, rfl⟩, rfl⟩

/-- A command other than KDB.DECODE responds; KS.GEN alone writes KSG's registers first. -/
theorem exec_other_responds {i : Instr} {s t : State}
    (hi : i = .ksGen ∨ i = .xorApply ∨ i = .kdbFind ∨ ∃ op, i = .cmdIllegal op) (h : exec i s = .next t) :
    s.Responds t ∨ i = .ksGen ∧ ∃ S out, t = (s.withSeed S).respondOk out none := by
  rcases hi with rfl | rfl | rfl | ⟨op, rfl⟩
  · obtain ⟨u, hu, hr⟩ := execKsGen_responds s
    cases hu.symm.trans h
    exact hr.imp_right fun hS => ⟨rfl, hS⟩
  · obtain ⟨u, hu, hr⟩ := execXorApply_responds s
    cases hu.symm.trans h
    exact .inl hr
  · obtain ⟨u, hu, hr⟩ := execKdbFind_responds s
    cases hu.symm.trans h
    exact .inl hr
  · cases h
    exact .inl (.error .illegalCommand (by decide))

/-- Settles O42: a response writes the status group, the phase, the ports and the delivery, and no more. -/
theorem otherCommandsLeaveTheStore : Obligations.OtherCommandsLeaveTheStore := by
  intro i s t hi h
  rcases exec_other_responds hi h with hr | ⟨rfl, S, out, rfl⟩
  · obtain ⟨hkeeps, hksg⟩ := hr.keepsUnits
    obtain ⟨hphase, hdelivery, hports⟩ := hr.responded
    exact ⟨hkeeps.store, hkeeps.par, hkeeps.cfg, hkeeps.waiting, hkeeps.resetIn, fun _ => hksg, hphase, hdelivery, hports⟩
  · obtain ⟨hphase, hdelivery, hports⟩ := (s.withSeed S).responded_respondOk out none
    exact ⟨rfl, rfl, rfl, rfl, rfl, absurd rfl, hphase, hdelivery, hports⟩

/-! ## SRC and the other operands -/

/-- An instruction leaves the ports alone or responds. -/
theorem exec_ports {i : Instr} {s t : State} (h : exec i s = .next t) : t.ports = s.ports ∨ t.Responded := by
  cases i with
  | ksGen =>
    rcases exec_other_responds (.inl rfl) h with hr | ⟨-, S, out, rfl⟩
    · exact .inr hr.responded
    · exact .inr (State.responded_respondOk _ _ _)
  | xorApply =>
    obtain ⟨u, hu, hr⟩ := execXorApply_responds s
    cases hu.symm.trans h
    exact .inr hr.responded
  | kdbDecode =>
    rcases execKdbDecode_cases s with ⟨-, hu⟩ | ⟨-, hu⟩ <;> cases hu.symm.trans h
    · exact .inl rfl
    · exact .inr (s.responded_raise _ _)
  | kdbFind =>
    obtain ⟨u, hu, hr⟩ := execKdbFind_responds s
    cases hu.symm.trans h
    exact .inr hr.responded
  | cmdIllegal op =>
    cases h
    exact .inr (s.responded_raise _ _)
  | entEnd =>
    cases h
    rcases s.endEntryList_cases with ⟨-, he⟩ | ⟨-, he⟩ <;> rw [he]
    · exact .inl rfl
    · exact .inr (s.responded_respondOk _ _)
  | hdr | ent | blkEnd | blk =>
    cases h
    exact .inl rfl

/-- Settles O41: instructions and steps either leave the ports alone or respond. -/
theorem sourceIsNeverWritten : Obligations.SourceIsNeverWritten := by
  constructor
  · intro i s t h
    rcases exec_ports h with hports | ⟨hphase, hdelivery, hports⟩
    · exact .inl ⟨hports, by rw [hports], fun a => by rw [hports]⟩
    · exact .inr ⟨hphase, hdelivery, hports⟩
  · intro s t hreset hidle h
    cases comesTo_of_step hreset hidle h with
    | goesOn hphase _ hports _ => exact ⟨fun _ => ⟨hports, fun a => by rw [hports]⟩, fun ht => absurd ht hphase⟩
    | completes | fails => exact ⟨absurd rfl, fun _ => ⟨nofun, rfl⟩⟩

/-! ## The records -/

/-- Settles O43: each of the five, by the fields it writes. -/
theorem recordFrames : Obligations.RecordFrames := by
  rintro i s t h (rfl | ⟨o, rfl⟩ | ⟨n, o, rfl⟩ | ⟨z, o, rfl⟩ | ⟨g, rfl⟩)
  · rcases execKdbDecode_cases s with ⟨hav, hu⟩ | ⟨hav, hu⟩ <;> cases hu.symm.trans h
    · exact ⟨rfl, rfl, rfl, rfl, fun _ => ⟨rfl, rfl, rfl, fun _ => rfl⟩,
        fun _ hno => absurd (hav.symm.trans hno) (by decide), absurd rfl, absurd rfl, by simp⟩
    · exact ⟨rfl, rfl, rfl, rfl, fun hyes => by simp [hav] at hyes, fun _ _ => ⟨rfl, nofun, rfl, rfl⟩, absurd rfl,
        absurd rfl, by simp⟩
  · cases h
    exact ⟨rfl, rfl, rfl, rfl, fun _ => ⟨rfl, rfl, rfl, fun _ => rfl⟩, nofun, fun _ hne => absurd rfl (hne o),
      fun _ _ => ⟨rfl, fun _ _ => rfl⟩, fun _ => rfl⟩
  · cases h
    exact ⟨rfl, rfl, rfl, rfl, fun _ => ⟨rfl, rfl, rfl, fun _ => rfl⟩, nofun, fun _ _ => ⟨rfl, rfl⟩,
      fun _ hne => absurd rfl (hne n o), by simp⟩
  · cases h
    exact ⟨rfl, rfl, rfl, rfl, fun _ => ⟨rfl, rfl, rfl, fun _ => rfl⟩, nofun, fun _ _ => ⟨rfl, rfl⟩,
      fun _ _ => ⟨rfl, fun j hj => (s.getElem?_modifyEntry _ _ _).trans (if_neg hj)⟩, by simp⟩
  · cases h
    exact ⟨rfl, rfl, rfl, rfl, fun _ => ⟨rfl, rfl, rfl, fun _ => rfl⟩, nofun, fun _ _ => ⟨rfl, rfl⟩,
      fun _ _ => ⟨rfl, fun _ _ => rfl⟩, fun _ => rfl⟩

/-! ## Parameters, acceptance, errors -/

/-- Settles O40: a reset keeps the parameters, and so does every other kind of step. -/
theorem configurationIsImmutable : Obligations.ConfigurationIsImmutable := by
  intro s t h
  cases steps_of_step h with
  | reset => rfl
  | idle => rcases s.idleStep_cases with ⟨p, -, -, hi⟩ | ⟨-, hi⟩ <;> rw [hi] <;> rfl
  | command _ _ hc => exact hc.keepsInputs.cfg
  | advance _ _ _ hm => exact hm.keepsInputs.cfg

/-- Settles O48: the idle step accepts, and no other looks at the waiting command. -/
theorem oneCommandAtATime : Obligations.OneCommandAtATime := by
  intro s p hreset hwait
  refine ⟨fun hphase hbusy => step_accept hreset hphase hbusy hwait, fun hidle t h => ?_⟩
  refine ⟨(keepsInputs_of_step hreset hidle h).waiting.trans hwait, fun hrun => ?_⟩
  cases comesTo_of_step hreset hidle h with
  | goesOn _ _ hports _ => exact hports
  | completes | fails => exact absurd rfl hrun

/-- Settles O49: an error is raised on the state as the step found it but for PAR's registers. -/
theorem errorsArePreciseAndKeepTheStore : Obligations.ErrorsArePreciseAndKeepTheStore := by
  intro s t e hreset hidle h hphase herr
  cases comesTo_of_step hreset hidle h with
  | goesOn hne => exact absurd hphase hne
  | completes => cases herr
  | fails u e' sub hstore hu hksg =>
    cases herr
    exact ⟨hstore, hu, rfl, hksg, rfl⟩

theorem ReadErr.ne_formatError {e : Err} (h : ReadErr e) : e ≠ .formatError := by
  rcases h with rfl | rfl <;> decide

theorem bytes_ne_sentinel {src : Source} {a n : Nat} (hn : 4 ≤ n) (h : isSentinel (src.bytes a n) = false) :
    src.bytes a 4 ≠ [0xFF, 0xFF, 0xFF, 0xFF] :=
  mt (isSentinel_bytes src a n hn).mpr (ne_true_of_eq_false h)

/-- Settles O50: three moves raise FormatError; a failing read raises another error, and so does a command's first step. -/
theorem formatErrorCauses : Obligations.FormatErrorCauses := by
  intro s t hinv hreset hidle h hphase herr
  cases steps_of_step h with
  | reset hr => exact absurd (hreset.symm.trans hr) (by decide)
  | idle _ hp => exact absurd hp hidle
  | command _ _ hc =>
    cases hc with
    | responds hr =>
      cases hr with
      | ok => cases herr
      | error e he => exact absurd (Response.error.inj herr) he
    | generates => cases herr
    | starts => cases hphase
  | advance _ _ _ hm =>
    cases hm with
    | readFailed p k e he => exact absurd (Response.error.inj herr) he.ne_formatError
    | badMagic hp hmagic =>
      have hhdrv := hinv.progress.hdr hp
      exact .inl ⟨hp, hmagic, rfl, hhdrv, hinv.store.header hhdrv⟩
    | entriesOver hp hstrict hcap hl hs =>
      exact .inr (.inl ⟨hp, hstrict, hcap, hl, bytes_ne_sentinel (Nat.le_refl 4) hs, rfl⟩)
    | blocksOver hp hstrict hcap hl hs =>
      exact .inr (.inr ⟨hp, hstrict, hcap, hl, bytes_ne_sentinel (by decide) hs, rfl⟩)
    | noEntry | lastEntry => cases herr
    | header | firstEntry | blocksEnd | gatheredAll | nextEntry => cases hphase
    | entry | block | gathered => exact absurd hphase hidle

/-- Settles O60: the two responses by their fields; the idle step; and a reset, after which the port is free. -/
theorem responsesKeepAndResetDrops : Obligations.ResponsesKeepAndResetDrops := by
  refine ⟨?_, ?_, fun s hreset hphase hwait => ?_, fun s p => ?_⟩
  · rintro s out idx t rfl
    exact ⟨rfl, rfl⟩
  · rintro s e sub t rfl
    exact ⟨rfl, rfl⟩
  · rcases s.idleStep_cases with ⟨p, -, hp, -⟩ | ⟨-, hi⟩
    · cases hwait.symm.trans hp
    · exact step_of_quiet s _ ((s.fetch_idle hreset hphase).trans (congrArg _ hi))
  · exact ⟨_, step_assertReset s, rfl, rfl, _, s.applyReset_quiescent.step_present p, rfl⟩

end Sys2Proof.Machine
end

section
/-! O54. Every step of a command in progress brings its response nearer: the steps still to come are counted by phase, and
each move takes one off at least. -/

namespace Sys2Proof.Machine

/-- The greatest number of steps that one entry takes: its blocks, their data, each end, and the decipher pass. -/
def entrySteps (cfg : Configuration) : Nat :=
  2 * cfg.blockCap.toNat + 3

/-- The greatest number of steps for the entries after EIDX. -/
def State.laterSteps (s : State) : Nat :=
  (s.store.ecnt.toNat - s.par.eidx.toNat - 1) * entrySteps s.cfg

/-- The greatest number of steps from a state of a command in progress to the response, by phase. -/
def State.stepsLeft (s : State) : Nat :=
  match s.phase with
  | .idle => 0
  | .cmd => decodeSteps s.cfg
  | .hdr => decodeSteps s.cfg - 1
  | .entlist =>
    s.cfg.entryCap.toNat - s.store.ecnt.toNat + 1 + s.cfg.entryCap.toNat * entrySteps s.cfg
  | .blklist => s.laterSteps + (s.cfg.blockCap.toNat - s.par.bcnt.toNat) + s.cfg.blockCap.toNat + 3
  | .data => s.laterSteps + ((s.entryAt s.par.eidx.toNat).nblk.toNat - s.par.didx.toNat) + 2
  | .dec => s.laterSteps + 1

theorem decodeSteps_eq (cfg : Configuration) :
    decodeSteps cfg = cfg.entryCap.toNat + 3 + cfg.entryCap.toNat * entrySteps cfg := by
  rw [decodeSteps, entrySteps]
  omega

/-- An entry begun takes its own steps and those of the entries after it. -/
theorem State.stepsLeft_startEntry (s : State) (i : Half) :
    (s.startEntry i).stepsLeft = (s.store.ecnt.toNat - i.toNat - 1) * entrySteps s.cfg + entrySteps s.cfg := by
  have hbcnt : (s.startEntry i).par.bcnt.toNat = 0 := rfl
  have hlater : (s.startEntry i).laterSteps = (s.store.ecnt.toNat - i.toNat - 1) * entrySteps s.cfg := rfl
  simp only [State.stepsLeft, State.startEntry_phase, hlater, hbcnt, State.startEntry_cfg]
  rw [entrySteps]
  omega

/-- With one entry fewer to come, one entry's steps fewer. -/
theorem mul_entrySteps_succ {n : Nat} (cfg : Configuration) (h : 0 < n) :
    (n - 1) * entrySteps cfg + entrySteps cfg = n * entrySteps cfg := by
  obtain ⟨m, rfl⟩ := Nat.exists_eq_succ_of_ne_zero h.ne'
  exact (Nat.succ_mul m _).symm

/-- A move responds or leaves fewer steps. -/
theorem State.Advances.stepsLeft_lt {s t : State} (h : s.Advances t) (hw : s.Walking) :
    t.phase = .idle ∨ t.stepsLeft < s.stepsLeft := by
  cases h with
  | readFailed | badMagic | entriesOver | noEntry | blocksOver | lastEntry => exact .inl rfl
  | header hphase =>
    right
    simp only [State.stepsLeft, State.enterList, State.addReads_cfg, State.addReads_store, hphase, decodeSteps_eq]
    omega
  | entry hphase hcap =>
    right
    have hcount : (s.store.ecnt + 1).toNat = s.store.ecnt.toNat + 1 := toNat_succ_of_lt hcap
    simp only [State.stepsLeft, State.commitEntry_phase, State.probed_phase, State.commitEntry_cfg, State.probed_cfg,
      State.commitEntry_store, State.probed_store, hphase, hcount]
    omega
  | firstEntry hphase p k _ _ hsome =>
    right
    have hcap : s.store.ecnt.toNat * entrySteps s.cfg ≤ s.cfg.entryCap.toNat * entrySteps s.cfg :=
      Nat.mul_le_mul_right _ hw.store.cap
    calc ((s.probed p k).startEntry 0).stepsLeft = s.store.ecnt.toNat * entrySteps s.cfg :=
          ((s.probed p k).stepsLeft_startEntry 0).trans (mul_entrySteps_succ s.cfg hsome)
      _ < s.stepsLeft := by
          simp only [State.stepsLeft, hphase]
          omega
  | block hphase hcap =>
    right
    have hcount : (s.par.bcnt + 1).toNat = s.par.bcnt.toNat + 1 := toNat_succ_of_lt hcap
    simp only [State.stepsLeft, State.laterSteps, State.commitBlock_phase, State.probed_phase, State.commitBlock_cfg,
      State.probed_cfg, State.commitBlock_store, State.probed_store, State.commitBlock_par, State.probed_par, hphase,
      hcount]
    omega
  | blocksEnd hphase p k =>
    right
    obtain ⟨hat, hbcnt⟩ := hw.progress.blklist hphase
    have hnblk := hw.nblk_le hat
    have hsame : (s.probed p k).endBlockList.entryAt s.par.eidx.toNat = s.entryAt s.par.eidx.toNat := rfl
    have hlater : (s.probed p k).endBlockList.laterSteps = s.laterSteps := rfl
    simp only [State.stepsLeft, State.endBlockList_phase, hlater, State.endBlockList_par, State.probed_par, hsame, hphase,
      hbcnt]
    omega
  | gathered hphase b hb k =>
    right
    have hlt := hw.didx_lt hphase hb
    have hcount := hw.toNat_didx_succ hphase hb
    set t := (s.addReads k).appendData (s.ports.src.bytes b.dataoff.toNat b.size.toNat) b.size
    have hsame : t.entryAt t.par.eidx.toNat = s.entryAt s.par.eidx.toNat := rfl
    have hlater : t.laterSteps = s.laterSteps := rfl
    have hdidx : t.par.didx.toNat = s.par.didx.toNat + 1 := hcount
    simp only [State.stepsLeft, show t.phase = .data from hphase, hlater, hsame, hdidx, hphase]
    omega
  | gatheredAll hphase =>
    right
    have hlater : State.laterSteps { s with phase := .dec } = s.laterSteps := rfl
    simp only [State.stepsLeft, hlater, hphase]
    omega
  | nextEntry hphase hmore =>
    right
    have hidx : (s.par.eidx + 1).toNat = s.par.eidx.toNat + 1 := toNat_succ_of_lt (cap := s.store.ecnt) (by omega)
    have hmult : s.laterSteps = (s.store.ecnt.toNat - (s.par.eidx.toNat + 1)) * entrySteps s.cfg := by
      rw [State.laterSteps, Nat.sub_sub]
    calc (s.withPayload.startEntry (s.par.eidx + 1)).stepsLeft
        = (s.store.ecnt.toNat - (s.par.eidx.toNat + 1) - 1) * entrySteps s.cfg + entrySteps s.cfg :=
          hidx ▸ s.withPayload.stepsLeft_startEntry (s.par.eidx + 1)
      _ = s.laterSteps := (mul_entrySteps_succ s.cfg (Nat.sub_pos_of_lt hmore)).trans hmult.symm
      _ < s.stepsLeft := by
          simp only [State.stepsLeft, hphase]
          omega

/-! ## Runs to the response -/

theorem State.Advances.phase_ne_cmd {s t : State} (h : s.Advances t) : t.phase ≠ .cmd := by
  cases h with
  | entry hphase | block hphase | gathered hphase => exact (congrArg (· ≠ Phase.cmd) hphase).mpr nofun
  | _ => exact nofun

theorem State.ComesTo.responded {s t : State} (h : s.ComesTo t) (hidle : t.phase = .idle) :
    t.Responded ∧ t.status.busy = false := by
  cases h with
  | goesOn hne => exact absurd hidle hne
  | completes u out idx => exact ⟨u.responded_respondOk out idx, rfl⟩
  | fails u e sub => exact ⟨u.responded_raise e sub, rfl⟩

theorem State.stepsLeft_pos {s : State} (hidle : s.phase ≠ .idle) : 0 < s.stepsLeft := by
  cases hphase : s.phase with
  | idle => exact absurd hphase hidle
  | _ =>
    simp only [State.stepsLeft, hphase, decodeSteps_eq]
    omega

/-- A property that the moves of KDB.DECODE keep holds at its response, which comes within the steps left. -/
theorem run_to_response (P : State → Prop)
    (hP : ∀ s t : State, s.Walking → s.resetIn = false → s.phase ≠ .idle → s.Advances t → step s = .next t → P s → P t)
    (n : Nat) {s : State} (hw : s.Walking) (hreset : s.resetIn = false) (hidle : s.phase ≠ .idle)
    (hcmd : s.phase ≠ .cmd) (hs : P s) (hn : s.stepsLeft ≤ n) :
    ∃ k t, k ≤ n ∧ Host.Core.run core k s = .next t ∧ t.Responded ∧ t.status.busy = false ∧ P t := by
  induction n generalizing s with
  | zero => exact absurd hn (s.stepsLeft_pos hidle).not_ge
  | succ n ih =>
    obtain ⟨u, hstep⟩ := everyStepAnswersANextState s
    have hmove := advances_of_step hreset hstep hidle hcmd
    have hu := hP s u hw hreset hidle hmove hstep hs
    by_cases hend : u.phase = .idle
    · obtain ⟨hresponded, hbusy⟩ := (hmove.comesTo hidle).responded hend
      exact ⟨1, u, Nat.succ_pos n, run_succ_of_step 0 hstep, hresponded, hbusy, hu⟩
    · have hfewer := (hmove.stepsLeft_lt hw).resolve_left hend
      obtain ⟨k, t, hk, hrun, ht⟩ :=
        ih (hw.advances hmove) (hmove.keepsInputs.resetIn.trans hreset) hend hmove.phase_ne_cmd hu (by omega)
      exact ⟨k + 1, t, Nat.succ_le_succ hk, (run_succ_of_step k hstep).trans hrun, ht⟩

/-- The entries from EIDX on are no more than the cap admits. -/
theorem State.Walking.laterSteps_le {s : State} (h : s.Walking) (hat : s.AtEntry) :
    s.laterSteps + entrySteps s.cfg ≤ s.cfg.entryCap.toNat * entrySteps s.cfg := by
  have hindex := hat.index
  have hcap := h.store.cap
  rw [State.laterSteps, mul_entrySteps_succ s.cfg (by omega)]
  exact Nat.mul_le_mul_right _ (by omega)

theorem State.Walking.stepsLeft_le {s : State} (h : s.Walking) : s.stepsLeft ≤ decodeSteps s.cfg := by
  rw [decodeSteps_eq]
  cases hphase : s.phase with
  | idle | cmd | hdr | entlist =>
    simp only [State.stepsLeft, hphase, decodeSteps_eq]
    omega
  | blklist =>
    obtain ⟨hat, -⟩ := h.progress.blklist hphase
    have hlater := h.laterSteps_le hat
    simp only [State.stepsLeft, hphase]
    rw [entrySteps] at *
    omega
  | data =>
    obtain ⟨hat, -⟩ := h.progress.data hphase
    have hlater := h.laterSteps_le hat
    have hnblk := h.nblk_le hat
    simp only [State.stepsLeft, hphase]
    rw [entrySteps] at *
    omega
  | dec =>
    obtain ⟨hat, -⟩ := h.progress.dec hphase
    have hlater := h.laterSteps_le hat
    simp only [State.stepsLeft, hphase]
    omega

/-- The response of a KDB.DECODE that has started. -/
theorem State.Walking.run_to_response {s : State} (hw : s.Walking) (hreset : s.resetIn = false) (hidle : s.phase ≠ .idle)
    (hcmd : s.phase ≠ .cmd) :
    ∃ k t, k ≤ s.stepsLeft ∧ Host.Core.run core k s = .next t ∧ t.phase = .idle ∧ t.status.busy = false ∧
      t.delivery ≠ none := by
  obtain ⟨k, t, hk, hrun, hresp, hbusy, -⟩ :=
    Machine.run_to_response (fun _ => True) (fun _ _ _ _ _ _ _ _ => trivial) _ hw hreset hidle hcmd trivial
      (Nat.le_refl _)
  exact ⟨k, t, hk, hrun, hresp.phase, hbusy, hresp.delivery⟩

/-- A command's first step responds, or it starts KDB.DECODE. -/
theorem State.Commences.responded_or_starts {s t : State} (h : s.Commences t) :
    (t.Responded ∧ t.status.busy = false) ∨ t = s.startDecode := by
  cases h with
  | responds h =>
    refine .inl ⟨h.responded, ?_⟩
    cases h <;> rfl
  | generates S out => exact .inl ⟨State.responded_respondOk _ out none, rfl⟩
  | starts => exact .inr rfl

/-- Settles O54: a command's first step responds or starts KDB.DECODE, whose moves come to a response. -/
theorem everyCommandTerminates : Obligations.EveryCommandTerminates := by
  intro s hinv hreset hidle
  by_cases hcmd : s.phase = .cmd
  · obtain ⟨u, hu, hcommences⟩ := exec_decodeCommand_commences s.ports.cmd s
    have hstep : step s = .next u := (step_of_run s _ _ (s.fetch_cmd hreset hcmd)).trans hu
    have hbound := decodeSteps_eq s.cfg
    rcases hcommences.responded_or_starts with ⟨hresp, hbusy⟩ | rfl
    · exact ⟨1, u, by omega, run_succ_of_step 0 hstep, hresp.phase, hbusy, hresp.delivery⟩
    · obtain ⟨k, t, hk, hrun, ht⟩ :=
        (State.Walking.startDecode s).run_to_response hreset nofun nofun
      have hk' : k ≤ decodeSteps s.cfg - 1 := hk
      exact ⟨k + 1, t, by omega, (run_succ_of_step k hstep).trans hrun, ht⟩
  · obtain ⟨k, t, hk, hrun, ht⟩ := hinv.walking.run_to_response hreset hidle hcmd
    exact ⟨k, t, hk.trans hinv.walking.stepsLeft_le, hrun, ht⟩

end Sys2Proof.Machine
end

section
/-! O57. The pseudocode from any state of a KDB.DECODE in progress: what its loops still make of the registers and the
store. Each move leaves it as it is, and the response is what it says. -/

namespace Sys2Proof.Machine

/-! ## The rest of R130 -/

/-- The rest of the loop over the entries from the end of an entry's data phase on. -/
def eachFromData (cfg : Configuration) (src : Source) (done rest : List Entry) (e : Entry) (d : Walk (List Byte)) :
    Walk (List Entry) :=
  match d.fail with
  | some f => ⟨done ++ e :: rest, d.reads, some f⟩
  | none =>
    walkEach cfg src rest (done ++ [e.resolve (cryptBytes d.val cfg.kdbSeed) (BitVec.ofNat 32 d.val.length)]) d.reads

/-- The rest of the loop over the entries from the end of an entry's block list on. -/
def eachFromBlocks (cfg : Configuration) (src : Source) (done rest : List Entry) (e : Entry) (w : Walk (List Block)) :
    Walk (List Entry) :=
  let e' := { e with blks := w.val, nblk := BitVec.ofNat 16 w.val.length }
  match w.fail with
  | some f => ⟨done ++ e' :: rest, w.reads, some f⟩
  | none => eachFromData cfg src done rest e' (walkData src (BitVec.ofNat 16 done.length) w.val 0 w.reads [])

/-- The rest of the command from the end of the entry list on. -/
def afterEntries (cfg : Configuration) (src : Source) (w : Walk (List Entry)) : Walk (List Entry) :=
  match w.fail with
  | some f => ⟨w.val, w.reads, some f⟩
  | none => walkEach cfg src w.val [] w.reads

/-- What a walk over the entries means for the command whose header is read. -/
def Decoded.ofWalk (eloff : Word) (x : Walk (List Entry)) : Decoded :=
  ⟨true, eloff, x.val, x.reads, x.fail⟩

theorem eachFromBlocks_ended (cfg : Configuration) (src : Source) (done rest : List Entry) (e : Entry)
    (blks : List Block) (reads : Nat) :
    eachFromBlocks cfg src done rest e ⟨blks, reads, none⟩ =
      eachFromData cfg src done rest { e with blks := blks, nblk := BitVec.ofNat 16 blks.length }
        (walkData src (BitVec.ofNat 16 done.length) blks 0 reads []) := rfl

theorem walkEach_nil (cfg : Configuration) (src : Source) (done : List Entry) (reads : Nat) :
    walkEach cfg src [] done reads = ⟨done, reads, none⟩ := rfl

theorem walkEach_cons (cfg : Configuration) (src : Source) (e : Entry) (rest done : List Entry) (reads : Nat) :
    walkEach cfg src (e :: rest) done reads =
      eachFromBlocks cfg src done rest e
        (walkBlocks src cfg.strictCap (BitVec.ofNat 16 done.length) cfg.blockCap.toNat e.blkoff.toNat reads []) := by
  rw [walkEach]
  generalize walkBlocks src cfg.strictCap (BitVec.ofNat 16 done.length) cfg.blockCap.toNat e.blkoff.toNat reads [] = w
  obtain ⟨blks, reads', fail⟩ := w
  cases fail with
  | some f => rfl
  | none =>
    rw [eachFromBlocks_ended]
    dsimp only
    generalize walkData src (BitVec.ofNat 16 done.length) blks 0 reads' [] = d
    obtain ⟨data, reads'', fail'⟩ := d
    cases fail' <;> rfl

/-- The pseudocode after a header that is read whole (R133, R134). -/
theorem decodeContainer_of_header {cfg : Configuration} {src : Source} {off : List Byte}
    (hm : memRead src 1 0 6 = .ok Config.magic) (ho : memRead src 2 6 4 = .ok off) :
    decodeContainer cfg src = Decoded.ofWalk (le32 off)
      (afterEntries cfg src (walkEntries src cfg.strictCap cfg.entryCap.toNat (le32 off).toNat 2 [])) := by
  rw [decodeContainer, hm]
  simp only [ho, afterEntries, Decoded.ofWalk]
  cases (walkEntries src cfg.strictCap cfg.entryCap.toNat (le32 off).toNat 2 []).fail <;> rfl

/-! ## What a state stands for -/

/-- What the store and the reads made so far are as the pseudocode's result, with the raise that ended it. -/
def State.result (s : State) (fail : Option Failure) : Decoded :=
  ⟨s.store.hdrv, if s.store.hdrv then s.store.eloff else 0, s.store.ent, s.par.reads, fail⟩

/-- What a raise in a state records. -/
def State.failure (s : State) (e : Err) (sub : BitVec 2) : Failure :=
  ⟨e, s.phase, sub, s.errIndices.1, s.errIndices.2⟩

/-- The entries that are done and those still to come, on either side of entry EIDX. -/
def State.done (s : State) : List Entry := s.store.ent.take s.par.eidx.toNat
def State.rest (s : State) : List Entry := s.store.ent.drop (s.par.eidx.toNat + 1)

/-- Entry EIDX. -/
def State.entry (s : State) : Entry := s.entryAt s.par.eidx.toNat

/-- The walk over the entries that the pseudocode makes from a state of the phases after the header. -/
def State.walk (s : State) : Walk (List Entry) :=
  match s.phase with
  | .entlist =>
    afterEntries s.cfg s.ports.src
      (walkEntries s.ports.src s.cfg.strictCap (s.cfg.entryCap.toNat - s.store.ecnt.toNat) s.cursor s.par.reads
        s.store.ent)
  | .blklist =>
    eachFromBlocks s.cfg s.ports.src s.done s.rest s.entry
      (walkBlocks s.ports.src s.cfg.strictCap s.par.eidx (s.cfg.blockCap.toNat - s.par.bcnt.toNat) s.cursor s.par.reads
        s.entry.blks)
  | .data =>
    eachFromData s.cfg s.ports.src s.done s.rest s.entry
      (walkData s.ports.src s.par.eidx (s.entry.blks.drop s.par.didx.toNat) s.par.didx.toNat s.par.reads s.par.cbuf)
  | .dec =>
    walkEach s.cfg s.ports.src s.rest
      (s.done ++ [s.entry.resolve (cryptBytes s.par.cbuf s.cfg.kdbSeed) (BitVec.ofNat 32 s.par.cbuf.length)])
      s.par.reads
  | .idle => ⟨[], 0, none⟩
  | .cmd => ⟨[], 0, none⟩
  | .hdr => ⟨[], 0, none⟩

/-- A state of KDB.DECODE after its start stands for the result that the pseudocode makes from it; a response for what
it has left. -/
def State.StandsFor (s : State) (d : Decoded) : Prop :=
  match s.phase with
  | .idle =>
    d = s.result d.fail ∧ s.status = d.status ∧ s.delivery = some { resp := d.status.err, out := [], idx := none }
  | .cmd => False
  | .hdr => s.par.reads = 0 ∧ d = decodeContainer s.cfg s.ports.src
  | .entlist => d = Decoded.ofWalk s.store.eloff s.walk
  | .blklist => d = Decoded.ofWalk s.store.eloff s.walk
  | .data => d = Decoded.ofWalk s.store.eloff s.walk
  | .dec => d = Decoded.ofWalk s.store.eloff s.walk

theorem State.standsFor_raise (s : State) (e : Err) (sub : BitVec 2) :
    (s.raise e sub).StandsFor (s.result (some (s.failure e sub))) :=
  ⟨rfl, rfl, rfl⟩

theorem State.standsFor_respondOk (s : State) : (s.respondOk [] none).StandsFor (s.result none) :=
  ⟨rfl, rfl, rfl⟩

theorem State.result_of_header {s : State} (h : s.store.hdrv = true) (fail : Option Failure) :
    s.result fail = Decoded.ofWalk s.store.eloff ⟨s.store.ent, s.par.reads, fail⟩ := by
  rw [State.result, if_pos h, h, Decoded.ofWalk]

/-! ## Reads -/

theorem State.readSrc_of_ok {s : State} {addr n : Nat} {q : List Byte} (hn : 0 < n)
    (h : memRead s.ports.src (s.par.reads + 1) addr n = .ok q) : s.readSrc addr n = .bytes q (s.addReads 1) := by
  rw [State.readSrc, h, s.countRead_pos n hn]

theorem State.readSrc_of_error {s : State} {addr n : Nat} {e : Err} (hn : 0 < n)
    (h : memRead s.ports.src (s.par.reads + 1) addr n = .error e) :
    s.readSrc addr n = .raised ((s.addReads 1).raise e 0) := by
  rw [State.readSrc, h, s.countRead_pos n hn]

/-! ## Phase HDR -/

/-- A state and the next one stand for the same result. -/
def State.StepsFor (s : State) (d : Decoded) : Prop :=
  ∃ t, step s = .next t ∧ t.StandsFor d

theorem State.StepsFor.quiet {s t : State} {d : Decoded} (hf : s.fetch = .quiet t) (h : t.StandsFor d) : s.StepsFor d :=
  ⟨t, step_of_quiet s t hf, h⟩

theorem State.StepsFor.run {s u t : State} {i : Instr} {d : Decoded} (hf : s.fetch = .run i u) (he : exec i u = .next t)
    (h : t.StandsFor d) : s.StepsFor d :=
  ⟨t, (step_of_run s u i hf).trans he, h⟩

theorem stepsFor_hdr {s : State} (hw : s.Walking) (hreset : s.resetIn = false) (hphase : s.phase = .hdr)
    (hreads : s.par.reads = 0) : s.StepsFor (decodeContainer s.cfg s.ports.src) := by
  have hhdrv := hw.progress.hdr hphase
  have hecnt : s.store.ecnt = 0 := hw.store.header hhdrv
  have hnil : s.store.ent = [] := List.length_eq_zero_iff.mp (hw.store.count.trans (by rw [hecnt]; rfl))
  have hfail (k : Nat) (e : Err) :
      ((s.addReads k).raise e 0).StandsFor ⟨false, 0, [], k, some ⟨e, .hdr, 0, 0, 0⟩⟩ := by
    have h := (s.addReads k).standsFor_raise e 0
    simpa [State.result, State.failure, State.errIndices, hhdrv, hnil, hreads, hphase] using h
  have hf := s.fetch_hdr hreset hphase
  rw [State.fetchHeader] at hf
  cases h6 : memRead s.ports.src 1 0 6 with
  | error e =>
    rw [State.readSrc_of_error (by decide) (by rw [hreads]; exact h6)] at hf
    exact .quiet hf (by rw [decodeContainer, h6]; exact hfail 1 e)
  | ok m =>
    rw [State.readSrc_of_ok (by decide) (by rw [hreads]; exact h6)] at hf
    by_cases hm : m = Config.magic
    · subst hm
      simp only [ne_eq, not_true_eq_false, if_false] at hf
      cases h4 : memRead s.ports.src 2 6 4 with
      | error e =>
        rw [State.readSrc_of_error (by decide) (by rw [State.addReads_par, hreads]; exact h4)] at hf
        exact .quiet hf (by rw [decodeContainer, h6]; simp only [h4]; exact hfail 2 e)
      | ok off =>
        rw [State.readSrc_of_ok (by decide) (by rw [State.addReads_par, hreads]; exact h4)] at hf
        refine .run (t := (s.addReads 2).enterList (le32 off)) hf rfl ?_
        have hcur : ((le32 off).setWidth 33 : Cursor).toNat = (le32 off).toNat := BitVec.toNat_setWidth_of_le (by decide)
        have hwalk : ((s.addReads 2).enterList (le32 off)).walk = afterEntries s.cfg s.ports.src
            (walkEntries s.ports.src s.cfg.strictCap (s.cfg.entryCap.toNat - s.store.ecnt.toNat)
              ((le32 off).setWidth 33 : Cursor).toNat (s.par.reads + 2) s.store.ent) := rfl
        rw [hcur, hecnt, hreads, hnil] at hwalk
        exact (decodeContainer_of_header h6 h4).trans (congrArg _ hwalk.symm)
    · simp only [ne_eq, hm, not_false_eq_true, if_true] at hf
      exact .quiet hf (by rw [decodeContainer, h6]; simp only [ne_eq, hm, not_false_eq_true, if_true]; exact hfail 1 _)

/-! ## The per-entry phases are come to (R150) -/

/-- On to entry `i`, or to completion behind the last: the rest of the loop over the entries. -/
theorem State.standsFor_each {s t : State} (i : Nat) (hhdrv : s.store.hdrv = true)
    (hlen : s.store.ent.length = s.store.ecnt.toNat) (hi : i ≤ s.store.ecnt.toNat)
    (huntouched : ∀ e, s.store.ent[i]? = some e → e.blks = [])
    (ht : t = if i < s.store.ecnt.toNat then s.startEntry (BitVec.ofNat 16 i) else s.respondOk [] none) :
    t.StandsFor
      (Decoded.ofWalk s.store.eloff
        (walkEach s.cfg s.ports.src (s.store.ent.drop i) (s.store.ent.take i) s.par.reads)) := by
  subst ht
  by_cases hlt : i < s.store.ecnt.toNat
  · have hlt' : i < s.store.ent.length := hlen ▸ hlt
    have hidx : (BitVec.ofNat 16 i).toNat = i := by
      have := s.store.ecnt.isLt
      rw [BitVec.toNat_ofNat, Nat.mod_eq_of_lt (by omega)]
    have he : s.store.ent[i]? = some s.store.ent[i] := List.getElem?_eq_getElem hlt'
    rw [if_pos hlt, List.drop_eq_getElem_cons hlt', walkEach_cons]
    set t := s.startEntry (BitVec.ofNat 16 i)
    have hentry : t.entry = s.store.ent[i] := State.entryAt_of_getElem? _ _ _ (by rw [← he]; exact congrArg _ hidx)
    have hcur : t.cursor = s.store.ent[i].blkoff.toNat := s.startEntry_cursor _ _ (hidx.symm ▸ he)
    have hdone : t.done = s.store.ent.take i := congrArg (s.store.ent.take ·) hidx
    have hrest : t.rest = s.store.ent.drop (i + 1) := congrArg (fun j => s.store.ent.drop (j + 1)) hidx
    have hlendone : (s.store.ent.take i).length = i := by simp; omega
    have hwalk : t.walk = eachFromBlocks s.cfg s.ports.src t.done t.rest t.entry
        (walkBlocks s.ports.src s.cfg.strictCap (BitVec.ofNat 16 i) (s.cfg.blockCap.toNat - 0) t.cursor s.par.reads
          t.entry.blks) := rfl
    rw [hdone, hrest, hentry, hcur, huntouched _ he, Nat.sub_zero] at hwalk
    rw [hlendone]
    exact congrArg _ hwalk.symm
  · rw [if_neg hlt, List.drop_eq_nil_of_le (by omega), List.take_of_length_le (by omega), walkEach_nil,
      ← State.result_of_header hhdrv]
    exact s.standsFor_respondOk

theorem Entry.untouched.blks {cfg : Configuration} {e : Entry} (h : e.untouched) (hinv : e.Inv cfg) : e.blks = [] := by
  obtain ⟨-, hnblk⟩ := h
  exact List.length_eq_zero_iff.mp (hinv.count.symm.trans (by rw [hnblk]; rfl))

/-- The end of the entry list (R136, R141). -/
theorem standsFor_endEntryList {s : State} (hw : s.Walking) (hphase : s.phase = .entlist) :
    s.endEntryList.StandsFor
      (Decoded.ofWalk s.store.eloff (afterEntries s.cfg s.ports.src ⟨s.store.ent, s.par.reads, none⟩)) := by
  obtain ⟨hhdrv, huntouched⟩ := hw.progress.entlist hphase
  exact s.standsFor_each 0 hhdrv hw.store.count (Nat.zero_le _)
    (fun e he => (huntouched e (List.mem_of_getElem? he)).blks (hw.store.entries e (List.mem_of_getElem? he))) rfl

/-! ## Phase ENTLIST -/

section EntryList

variable {s : State} (hw : s.Walking) (hphase : s.phase = .entlist)
include hw hphase

/-- An error in the entry list (R42). -/
theorem standsFor_entlist_raise (e : Err) (sub : BitVec 2) :
    (s.raise e sub).StandsFor (Decoded.ofWalk s.store.eloff (afterEntries s.cfg s.ports.src
      ⟨s.store.ent, s.par.reads, some ⟨e, .entlist, sub, BitVec.ofNat 16 s.store.ent.length, 0⟩⟩)) := by
  obtain ⟨hhdrv, -⟩ := hw.progress.entlist hphase
  have hidx : s.failure e sub = ⟨e, .entlist, sub, BitVec.ofNat 16 s.store.ent.length, 0⟩ := by
    simp [State.failure, State.errIndices, hphase, hw.store.count]
  have h := s.standsFor_raise e sub
  rw [State.result_of_header hhdrv, hidx] at h
  exact h

omit hw in
/-- A record of the entry list is committed, and the list goes on behind it (R137, R138). -/
theorem standsFor_commitEntry (hcap : s.store.ecnt.toNat < s.cfg.entryCap.toNat) (hcur : s.cursor + 20 ≤ 2 ^ 32)
    (name : List Byte) (blkoff : Word) :
    (s.commitEntry name blkoff).StandsFor (Decoded.ofWalk s.store.eloff (afterEntries s.cfg s.ports.src
      (walkEntries s.ports.src s.cfg.strictCap (s.cfg.entryCap.toNat - s.store.ecnt.toNat - 1) (s.cursor + 20)
        s.par.reads (s.store.ent ++ [freshEntry name blkoff])))) := by
  have hcount : (s.store.ecnt + 1).toNat = s.store.ecnt.toNat + 1 := toNat_succ_of_lt hcap
  have hnext : (s.par.cur + 20).toNat = s.cursor + 20 := toNat_cursor_add_of_le hcur
  have hwalk : (s.commitEntry name blkoff).walk = afterEntries s.cfg s.ports.src
      (walkEntries s.ports.src s.cfg.strictCap (s.cfg.entryCap.toNat - (s.store.ecnt + 1).toNat) (s.par.cur + 20).toNat
        s.par.reads (s.store.ent ++ [freshEntry name blkoff])) := by
    simp only [State.walk, State.commitEntry_phase, hphase]
    rfl
  rw [hcount, hnext, Nat.sub_add_eq] at hwalk
  simp only [State.StandsFor, State.commitEntry_phase, hphase, hwalk]
  rfl

variable (hreset : s.resetIn = false)
include hreset

/-- Below the cap (R135 to R138). -/
theorem stepsFor_entryRecord (hcap : s.store.ecnt.toNat < s.cfg.entryCap.toNat) :
    s.StepsFor (Decoded.ofWalk s.store.eloff s.walk) := by
  have hlen := s.ports.src.len.isLt
  have hf := (s.fetch_entlist hreset hphase).trans (if_pos hcap)
  obtain ⟨n, hn⟩ : ∃ n, s.cfg.entryCap.toNat - s.store.ecnt.toNat = n + 1 := ⟨_, (Nat.sub_add_cancel (by omega)).symm⟩
  simp only [State.walk, hphase, hn, walkEntries]
  rw [State.fetchEntryRecord] at hf
  cases h4 : memRead s.ports.src (s.par.reads + 1) s.cursor 4 with
  | error e =>
    rw [State.readSrc_of_error (by decide) h4] at hf
    exact .quiet hf (standsFor_entlist_raise (hw.probed [] 1) hphase e 0)
  | ok probe =>
    rw [State.readSrc_of_ok (by decide) h4] at hf
    simp only [State.addReads_setProbe] at hf ⊢
    by_cases hs : isSentinel probe = true
    · rw [if_pos hs] at hf
      rw [if_pos hs]
      exact .run hf (exec_entryRecord_sentinel probe hs _) (standsFor_endEntryList (hw.probed probe 1) hphase)
    rw [if_neg hs] at hf
    rw [if_neg hs]
    cases h12 : memRead s.ports.src (s.par.reads + 2) (s.cursor + 4) 12 with
    | error e =>
      rw [State.readSrc_of_error (by decide) h12, State.probed_addReads] at hf
      exact .quiet hf (standsFor_entlist_raise (hw.probed probe 2) hphase e 0)
    | ok more =>
      rw [State.readSrc_of_ok (by decide) h12, State.probed_addReads] at hf
      simp only at hf ⊢
      cases h16 : memRead s.ports.src (s.par.reads + 3) (s.cursor + 16) 4 with
      | error e =>
        rw [State.readSrc_of_error (by decide) h16, State.probed_addReads] at hf
        exact .quiet hf (standsFor_entlist_raise (hw.probed probe 3) hphase e 0)
      | ok off =>
        rw [State.readSrc_of_ok (by decide) h16, State.probed_addReads] at hf
        obtain ⟨rfl, -⟩ := memRead_ok _ _ _ _ _ h4
        obtain ⟨rfl, -⟩ := memRead_ok _ _ _ _ _ h12
        obtain ⟨rfl, hin⟩ := memRead_ok _ _ _ _ _ h16
        have hcur : s.cursor + 20 ≤ s.ports.src.len.val := (hin (by decide)).2
        have hrec := decodeEntryRecord_reads s.ports.src.mem s.cursor (Bool.not_eq_true _ ▸ hs)
        have hname : s.ports.src.bytes s.cursor 4 ++ s.ports.src.bytes (s.cursor + 4) 12 =
          s.ports.src.bytes s.cursor 16 := (Memory.readBytes_add s.ports.src.mem s.cursor 4 12).symm
        have hstands := standsFor_commitEntry (s := s.probed (s.ports.src.bytes s.cursor 4) 3) hphase hcap
          (show s.cursor + 20 ≤ 2 ^ 32 by omega) (s.ports.src.bytes s.cursor 16)
          (le32 (s.ports.src.bytes (s.cursor + 16) 4))
        refine .run hf (congrArg (exec · _) hrec) ?_
        rw [hname, show n = s.cfg.entryCap.toNat - s.store.ecnt.toNat - 1 by omega]
        exact hstands

/-- At the cap (R139, R140). -/
theorem stepsFor_entriesFull (hcap : s.cfg.entryCap.toNat ≤ s.store.ecnt.toNat) :
    s.StepsFor (Decoded.ofWalk s.store.eloff s.walk) := by
  have hf := (s.fetch_entlist hreset hphase).trans (s.fetchEntry_full hcap)
  simp only [State.walk, hphase, Nat.sub_eq_zero_of_le hcap, walkEntries]
  by_cases hstrict : s.cfg.strictCap = true
  · rw [if_pos hstrict, State.strictProbe] at hf
    rw [if_pos hstrict]
    cases h4 : memRead s.ports.src (s.par.reads + 1) s.cursor 4 with
    | error e =>
      rw [State.readSrc_of_error (by decide) h4] at hf
      exact .quiet hf (standsFor_entlist_raise (hw.probed [] 1) hphase e 0)
    | ok probe =>
      rw [State.readSrc_of_ok (by decide) h4] at hf
      simp only [State.addReads_setProbe] at hf ⊢
      by_cases hs : isSentinel probe = true
      · rw [if_pos hs] at hf
        rw [if_pos hs]
        exact .run hf (exec_entryRecord_sentinel probe hs _) (standsFor_endEntryList (hw.probed probe 1) hphase)
      · rw [if_neg hs] at hf
        rw [if_neg hs]
        exact .quiet hf (standsFor_entlist_raise (hw.probed probe 1) hphase .formatError 1)
  · rw [if_neg hstrict] at hf
    rw [if_neg hstrict]
    exact .quiet hf (standsFor_endEntryList hw hphase)

end EntryList

/-! ## Phase BLKLIST -/

section AtEntry

variable {s : State} (hw : s.Walking) (hat : s.AtEntry)
include hw hat

theorem State.AtEntry.length_done : s.done.length = s.par.eidx.toNat := by
  have hindex := hat.index
  have hcount := hw.store.count
  simp only [State.done, List.length_take]
  omega

theorem State.AtEntry.ofNat_length_done : BitVec.ofNat 16 s.done.length = s.par.eidx := by
  rw [hat.length_done hw, BitVec.ofNat_toNat, BitVec.setWidth_eq]

/-- Entry EIDX between the entries done and those to come. -/
theorem State.AtEntry.ent_eq : s.done ++ s.entry :: s.rest = s.store.ent := by
  have hlt : s.par.eidx.toNat < s.store.ent.length := hw.store.count ▸ hat.index
  have hentry : s.entry = s.store.ent[s.par.eidx.toNat] :=
    State.entryAt_of_getElem? _ _ _ (List.getElem?_eq_getElem hlt)
  rw [hentry, State.rest, ← List.drop_eq_getElem_cons hlt, State.done, List.take_append_drop]

/-- The number of block records that an entry holds is the one it says. -/
theorem State.AtEntry.nblk_eq : BitVec.ofNat 16 s.entry.blks.length = s.entry.nblk := by
  have hcount := (hat.inv hw.store).count
  rw [State.entry, ← hcount, BitVec.ofNat_toNat, BitVec.setWidth_eq]

/-- An error in a per-entry phase keeps the entries. -/
theorem State.AtEntry.standsFor_raise (e : Err) (sub : BitVec 2) :
    (s.raise e sub).StandsFor
      (Decoded.ofWalk s.store.eloff ⟨s.done ++ s.entry :: s.rest, s.par.reads, some (s.failure e sub)⟩) := by
  rw [hat.ent_eq hw, ← State.result_of_header hat.header]
  exact s.standsFor_raise e sub

end AtEntry

section BlockList

variable {s : State} (hw : s.Walking) (hphase : s.phase = .blklist)
include hw hphase

/-- An error in a block list (R42). -/
theorem standsFor_blklist_raise (e : Err) (sub : BitVec 2) :
    (s.raise e sub).StandsFor (Decoded.ofWalk s.store.eloff
      (eachFromBlocks s.cfg s.ports.src s.done s.rest s.entry
        ⟨s.entry.blks, s.par.reads, some ⟨e, .blklist, sub, s.par.eidx, BitVec.ofNat 16 s.entry.blks.length⟩⟩)) := by
  obtain ⟨hat, hbcnt⟩ := hw.progress.blklist hphase
  have hnblk := hat.nblk_eq hw
  have hfail : s.failure e sub = ⟨e, .blklist, sub, s.par.eidx, BitVec.ofNat 16 s.entry.blks.length⟩ := by
    simp only [State.failure, State.errIndices, hphase, hnblk]
    rw [hbcnt]
    rfl
  have h := hat.standsFor_raise hw e sub
  rw [hfail] at h
  rw [eachFromBlocks]
  simp only [hnblk] at h ⊢
  exact h

/-- The end of a block list (R142, R145, R147). -/
theorem standsFor_endBlockList :
    s.endBlockList.StandsFor (Decoded.ofWalk s.store.eloff
      (eachFromBlocks s.cfg s.ports.src s.done s.rest s.entry ⟨s.entry.blks, s.par.reads, none⟩)) := by
  obtain ⟨hat, hbcnt⟩ := hw.progress.blklist hphase
  rw [eachFromBlocks_ended, hat.nblk_eq hw, hat.ofNat_length_done hw]
  rfl

/-- A block record is committed, and the list goes on behind it (R143, R144). -/
theorem standsFor_commitBlock (hcap : s.par.bcnt.toNat < s.cfg.blockCap.toNat) (hcur : s.cursor + 6 ≤ 2 ^ 32)
    (size : Half) (dataoff : Word) :
    (s.commitBlock size dataoff).StandsFor (Decoded.ofWalk s.store.eloff
      (eachFromBlocks s.cfg s.ports.src s.done s.rest s.entry
        (walkBlocks s.ports.src s.cfg.strictCap s.par.eidx (s.cfg.blockCap.toNat - s.par.bcnt.toNat - 1) (s.cursor + 6)
          s.par.reads (s.entry.blks ++ [⟨size, dataoff⟩])))) := by
  obtain ⟨hat, -⟩ := hw.progress.blklist hphase
  have hcount : (s.par.bcnt + 1).toNat = s.par.bcnt.toNat + 1 := toNat_succ_of_lt hcap
  have hnext : (s.par.cur + 6).toNat = s.cursor + 6 := toNat_cursor_add_of_le hcur
  set t := s.commitBlock size dataoff with ht
  have hdone : t.done = s.done := by
    rw [ht, State.done, State.commitBlock_store, State.commitBlock_par, List.take_modify,
      List.modify_eq_self (List.length_take_le _ _), State.done]
  have hrest : t.rest = s.rest := List.drop_modify_of_lt _ _ _ _ (Nat.lt_succ_self _)
  have hentry : t.entry = s.entry.addBlock ⟨size, dataoff⟩ (s.par.bcnt + 1) :=
    s.entryAt_commitBlock _ (hat.getElem? hw.store) size dataoff
  have hwalk : t.walk = eachFromBlocks s.cfg s.ports.src t.done t.rest t.entry
      (walkBlocks s.ports.src s.cfg.strictCap s.par.eidx (s.cfg.blockCap.toNat - (s.par.bcnt + 1).toNat)
        (s.par.cur + 6).toNat s.par.reads t.entry.blks) := by
    simp only [State.walk, show t.phase = .blklist from hphase]
    rfl
  rw [hdone, hrest, hentry, hcount, hnext, Nat.sub_add_eq] at hwalk
  simp only [State.StandsFor, show t.phase = .blklist from hphase, hwalk]
  rfl

variable (hreset : s.resetIn = false)
include hreset

/-- Below the cap (R142 to R144). -/
theorem stepsFor_blockRecord (hcap : s.par.bcnt.toNat < s.cfg.blockCap.toNat) :
    s.StepsFor (Decoded.ofWalk s.store.eloff s.walk) := by
  have hlen := s.ports.src.len.isLt
  have hf := (s.fetch_blklist hreset hphase).trans (if_pos hcap)
  obtain ⟨n, hn⟩ : ∃ n, s.cfg.blockCap.toNat - s.par.bcnt.toNat = n + 1 := ⟨_, (Nat.sub_add_cancel (by omega)).symm⟩
  simp only [State.walk, hphase, hn, walkBlocks]
  rw [State.fetchBlockRecord] at hf
  cases h6 : memRead s.ports.src (s.par.reads + 1) s.cursor 6 with
  | error e =>
    rw [State.readSrc_of_error (by decide) h6] at hf
    exact .quiet hf (standsFor_blklist_raise (hw.probed [] 1) hphase e 0)
  | ok probe =>
    rw [State.readSrc_of_ok (by decide) h6] at hf
    simp only [State.addReads_setProbe] at hf ⊢
    by_cases hs : isSentinel probe = true
    · rw [if_pos hs]
      exact .run hf (exec_blockRecord_sentinel probe hs _) (standsFor_endBlockList (hw.probed probe 1) hphase)
    rw [if_neg hs]
    obtain ⟨rfl, hin⟩ := memRead_ok _ _ _ _ _ h6
    have hcur : s.cursor + 6 ≤ s.ports.src.len.val := (hin (by decide)).2
    rw [decodeBlockRecord, if_neg hs] at hf
    rw [le16_take _ 2 (Nat.le_refl 2), show n = s.cfg.blockCap.toNat - s.par.bcnt.toNat - 1 by omega]
    exact .run hf rfl (standsFor_commitBlock (hw.probed (s.ports.src.bytes s.cursor 6) 1) hphase hcap
      (show s.cursor + 6 ≤ 2 ^ 32 by omega) _ _)

/-- At the cap (R145, R146). -/
theorem stepsFor_blocksFull (hcap : s.cfg.blockCap.toNat ≤ s.par.bcnt.toNat) :
    s.StepsFor (Decoded.ofWalk s.store.eloff s.walk) := by
  have hf := (s.fetch_blklist hreset hphase).trans (s.fetchBlock_full hcap)
  simp only [State.walk, hphase, Nat.sub_eq_zero_of_le hcap, walkBlocks]
  by_cases hstrict : s.cfg.strictCap = true
  · rw [if_pos hstrict, State.strictProbe] at hf
    rw [if_pos hstrict]
    cases h6 : memRead s.ports.src (s.par.reads + 1) s.cursor 6 with
    | error e =>
      rw [State.readSrc_of_error (by decide) h6] at hf
      exact .quiet hf (standsFor_blklist_raise (hw.probed [] 1) hphase e 0)
    | ok probe =>
      rw [State.readSrc_of_ok (by decide) h6] at hf
      simp only [State.addReads_setProbe] at hf ⊢
      by_cases hs : isSentinel probe = true
      · rw [if_pos hs] at hf
        rw [if_pos hs]
        exact .run hf (exec_blockRecord_sentinel probe hs _) (standsFor_endBlockList (hw.probed probe 1) hphase)
      · rw [if_neg hs] at hf
        rw [if_neg hs]
        exact .quiet hf (standsFor_blklist_raise (hw.probed probe 1) hphase .formatError 2)
  · rw [if_neg hstrict] at hf
    rw [if_neg hstrict]
    exact .quiet hf (standsFor_endBlockList hw hphase)

end BlockList

/-! ## Phases DATA and DEC -/

/-- A read of zero bytes is not counted, in the machine as in the pseudocode (R56). -/
theorem State.countRead_eq_addReads (s : State) (n : Nat) :
    ∃ k, s.countRead n = s.addReads k ∧ readsAfter s.par.reads n = s.par.reads + k := by
  rcases Nat.eq_zero_or_pos n with rfl | hn
  · exact ⟨0, rfl, rfl⟩
  · exact ⟨1, s.countRead_pos n hn, if_neg hn.ne'⟩

/-- A block's data gathered, or the end of them (R147). -/
theorem stepsFor_data {s : State} (hw : s.Walking) (hreset : s.resetIn = false) (hphase : s.phase = .data) :
    s.StepsFor (Decoded.ofWalk s.store.eloff s.walk) := by
  obtain ⟨hat, -⟩ := hw.progress.data hphase
  have hf := s.fetch_data hreset hphase
  have hblock : s.dataBlock = s.entry.blks[s.par.didx.toNat]? := hat.dataBlock_eq hw.store
  rw [State.gather] at hf
  simp only [State.walk, hphase]
  cases hb : s.dataBlock with
  | none =>
    rw [hb] at hf hblock
    rw [List.drop_eq_nil_of_le (List.getElem?_eq_none_iff.mp hblock.symm), walkData]
    exact .quiet hf rfl
  | some b =>
    have hnext := hw.toNat_didx_succ hphase hb
    rw [hb] at hf hblock
    obtain ⟨hlt, hget⟩ := List.getElem?_eq_some_iff.mp hblock.symm
    obtain ⟨k, hcount, hafter⟩ := s.countRead_eq_addReads b.size.toNat
    rw [List.drop_eq_getElem_cons hlt, hget, walkData, hafter]
    simp only [State.readSrc, hcount] at hf
    cases hread : memRead s.ports.src (s.par.reads + 1) b.dataoff.toNat b.size.toNat with
    | error e =>
      rw [hread] at hf
      have hfail : (s.addReads k).failure e 0 = ⟨e, .data, 0, s.par.eidx, BitVec.ofNat 16 s.par.didx.toNat⟩ := by
        simp [State.failure, State.errIndices, hphase]
      have h := State.AtEntry.standsFor_raise (s := s.addReads k) (hw.probed [] k) (hat.congr rfl rfl) e 0
      rw [hfail] at h
      exact .quiet hf h
    | ok q =>
      rw [hread] at hf
      refine .quiet hf ?_
      rw [← hnext]
      simp only [State.StandsFor, State.appendData_phase, State.addReads_phase, hphase, State.walk]
      rfl

/-- The payload and what comes after it (R149, R150). -/
theorem stepsFor_dec {s : State} (hw : s.Walking) (hreset : s.resetIn = false) (hphase : s.phase = .dec) :
    s.StepsFor (Decoded.ofWalk s.store.eloff s.walk) := by
  obtain ⟨hat, -⟩ := hw.progress.dec hphase
  have htlen := hw.tlen (.inr hphase)
  have hlt : s.par.eidx.toNat < s.store.ent.length := hw.store.count ▸ hat.index
  have hpayload : xorBytes s.par.cbuf (keystream s.par.tlen.toNat s.cfg.kdbSeed) = cryptBytes s.par.cbuf s.cfg.kdbSeed := by
    rw [htlen, cryptBytes]
  have hplen : s.par.tlen = BitVec.ofNat 32 s.par.cbuf.length := by
    rw [← htlen, BitVec.ofNat_toNat, BitVec.setWidth_eq]
  have hlt' : s.par.eidx.toNat < s.withPayload.store.ent.length := s.length_withPayload ▸ hlt
  have hhere : s.withPayload.store.ent[s.par.eidx.toNat] =
      s.entry.resolve (cryptBytes s.par.cbuf s.cfg.kdbSeed) (BitVec.ofNat 32 s.par.cbuf.length) := by
    rw [← hpayload, ← hplen]
    exact List.getElem_eq_iff hlt' |>.mpr (s.getElem?_withPayload_here _ (hat.getElem? hw.store))
  have hdone : s.withPayload.store.ent.take (s.par.eidx.toNat + 1) = s.done ++
      [s.entry.resolve (cryptBytes s.par.cbuf s.cfg.kdbSeed) (BitVec.ofNat 32 s.par.cbuf.length)] := by
    rw [← List.take_append_getElem hlt', hhere]
    congr 1
    exact (List.take_modify _ _ _ _).trans (List.modify_eq_self (List.length_take_le _ _))
  have hrest : s.withPayload.store.ent.drop (s.par.eidx.toNat + 1) = s.rest :=
    List.drop_modify_of_lt _ _ _ _ (Nat.lt_succ_self _)
  have hidx : s.par.eidx + 1 = BitVec.ofNat 16 (s.par.eidx.toNat + 1) := by
    apply BitVec.eq_of_toNat_eq
    simp
  have hnext := s.withPayload.standsFor_each (t := s.withPayload.nextEntry) (s.par.eidx.toNat + 1) hat.header
    (s.length_withPayload.trans hw.store.count) hat.index (fun e he => ?_) (by rw [← hidx]; rfl)
  · rw [hdone, hrest] at hnext
    refine .quiet ((s.fetch_dec hreset hphase).trans (congrArg _ s.decipher_eq)) ?_
    simp only [State.walk, hphase]
    exact hnext
  · have he' := (s.getElem?_withPayload_other _ (Nat.succ_ne_self _)).symm.trans he
    exact (hat.after _ e he' (Nat.lt_succ_self _)).blks (hw.store.entries e (List.mem_of_getElem? he'))

/-! ## The whole command -/

/-- Every move leaves what the state stands for. -/
theorem State.StandsFor.advances {s t : State} {d : Decoded} (h : s.StandsFor d) (hw : s.Walking)
    (hreset : s.resetIn = false) (hidle : s.phase ≠ .idle) (hstep : step s = .next t) : t.StandsFor d := by
  suffices hfor : s.StepsFor d by
    obtain ⟨u, hu, hstands⟩ := hfor
    cases hstep.symm.trans hu
    exact hstands
  rw [State.StandsFor] at h
  cases hphase : s.phase with
  | idle => exact absurd hphase hidle
  | cmd => simp only [hphase] at h
  | hdr =>
    simp only [hphase] at h
    obtain ⟨hreads, rfl⟩ := h
    exact stepsFor_hdr hw hreset hphase hreads
  | entlist =>
    simp only [hphase] at h
    rw [h]
    by_cases hcap : s.store.ecnt.toNat < s.cfg.entryCap.toNat
    · exact stepsFor_entryRecord hw hphase hreset hcap
    · exact stepsFor_entriesFull hw hphase hreset (not_lt.mp hcap)
  | blklist =>
    simp only [hphase] at h
    rw [h]
    by_cases hcap : s.par.bcnt.toNat < s.cfg.blockCap.toNat
    · exact stepsFor_blockRecord hw hphase hreset hcap
    · exact stepsFor_blocksFull hw hphase hreset (not_lt.mp hcap)
  | data =>
    simp only [hphase] at h
    rw [h]
    exact stepsFor_data hw hreset hphase
  | dec =>
    simp only [hphase] at h
    rw [h]
    exact stepsFor_dec hw hreset hphase

theorem State.startDecode_standsFor (s : State) : s.startDecode.StandsFor (decodeContainer s.cfg s.ports.src) :=
  ⟨rfl, rfl⟩

end Sys2Proof.Machine
end

section
/-! O57 and O58. KDB.DECODE from its first step to its response: the result is the pseudocode's, and where that succeeds
every payload is the deciphered data of its entry's blocks. -/

namespace Sys2Proof.Machine

/-! ## The run -/

theorem run_succ {s u : State} {n : Nat} {o : Host.Outcome State Fault Refusal} (h : step s = .next u)
    (hrun : Host.Core.run core n u = o) : Host.Core.run core (n + 1) s = o :=
  (run_succ_of_step n h).trans hrun

theorem step_kdbDecode {s : State} (hreset : s.resetIn = false) (hphase : s.phase = .cmd) (hcmd : s.ports.cmd = 0x03)
    (hav : s.ports.src.avail.holds 0 = true) : step s = .next s.startDecode := by
  rw [step_of_run s _ _ (s.fetch_cmd hreset hphase), hcmd]
  exact (kdbDecodeStarts s).1 hav

/-- A state that a KDB.DECODE has come to. -/
structure State.Decoding (s t : State) : Prop where
  walking : t.Walking
  standsFor : t.StandsFor (decodeContainer s.cfg s.ports.src)
  inputs : s.KeepsInputs t

/-- KDB.DECODE past its start test responds with what the pseudocode says. -/
theorem run_kdbDecode {s : State} (hreset : s.resetIn = false) (hphase : s.phase = .cmd) (hcmd : s.ports.cmd = 0x03)
    (hav : s.ports.src.avail.holds 0 = true) :
    ∃ k t, Host.Core.run core k s = .next t ∧ t.Responded ∧ s.Decoding t := by
  obtain ⟨k, t, -, hrun, hresp, -, hdec⟩ :=
    run_to_response s.Decoding
      (fun u v hw hr hidle hmove hstep hu =>
        ⟨hw.advances hmove, hu.standsFor.advances hw hr hidle hstep,
          ⟨hmove.keepsInputs.cfg.trans hu.inputs.cfg, hmove.keepsInputs.waiting.trans hu.inputs.waiting,
            hmove.keepsInputs.resetIn.trans hu.inputs.resetIn⟩⟩)
      _ (State.Walking.startDecode s) hreset nofun nofun
      ⟨.startDecode s, s.startDecode_standsFor, ⟨rfl, rfl, rfl⟩⟩ (Nat.le_refl _)
  exact ⟨k + 1, t, run_succ (step_kdbDecode hreset hphase hcmd hav) hrun, hresp, hdec⟩

/-- What a response stands for is what it has left. -/
theorem State.StandsFor.of_idle {t : State} {d : Decoded} (h : t.StandsFor d) (hphase : t.phase = .idle) :
    d = t.result d.fail ∧ t.status = d.status ∧
      t.delivery = some { resp := d.status.err, out := [], idx := none } := by
  rwa [State.StandsFor, hphase] at h

/-- Settles O57: the response reached stands for the pseudocode's result. -/
theorem decodeRunsThePseudocode : Obligations.DecodeRunsThePseudocode := by
  intro s hreset hphase hcmd hav
  obtain ⟨k, t, hrun, hresp, hdec⟩ := run_kdbDecode hreset hphase hcmd hav
  obtain ⟨hresult, hstatus, hdelivery⟩ := hdec.standsFor.of_idle hresp.phase
  have hent : t.store.ent = (decodeContainer s.cfg s.ports.src).ent := congrArg Decoded.ent hresult.symm
  refine ⟨k, t, hrun, hresp.phase, congrArg Decoded.hdrv hresult.symm, fun hhdrv => ?_, hent, ?_,
    congrArg Decoded.reads hresult.symm, hstatus, hdelivery, hdec.inputs.cfg, hresp.ports, hdec.inputs.waiting⟩
  · exact (if_pos hhdrv).symm.trans (congrArg Decoded.eloff hresult.symm)
  · rw [← hent, hdec.walking.store.count]

/-! ## Payloads of the pseudocode (R149, R159) -/

theorem blockData_cons (src : Source) (b : Block) (bs : List Block) :
    blockData src (b :: bs) = src.bytes b.dataoff.toNat b.size.toNat ++ blockData src bs := rfl

/-- A data phase that does not fail gathers the bytes that the blocks name (R147). -/
theorem walkData_val {src : Source} {eidx : Half} {bs : List Block} {b reads : Nat} {cbuf : List Byte}
    (h : (walkData src eidx bs b reads cbuf).fail = none) :
    (walkData src eidx bs b reads cbuf).val = cbuf ++ blockData src bs := by
  induction bs generalizing b reads cbuf with
  | nil => exact (List.append_nil cbuf).symm
  | cons x bs ih =>
    rw [walkData] at h ⊢
    cases hread : memRead src (reads + 1) x.dataoff.toNat x.size.toNat with
    | error e => simp [hread] at h
    | ok q =>
      obtain ⟨rfl, -⟩ := memRead_ok _ _ _ _ _ hread
      simp only [hread] at h ⊢
      rw [ih h, blockData_cons, List.append_assoc]

/-- An entry whose payload is its ciphertext deciphered (R149). -/
def Entry.Deciphered (cfg : Configuration) (src : Source) (e : Entry) : Prop :=
  e.resolved = true ∧ e.payload = cryptBytes (blockData src e.blks) cfg.kdbSeed

/-- A walk over the entries that does not fail deciphers every one of them. -/
theorem walkEach_deciphered {cfg : Configuration} {src : Source} {es done : List Entry} {reads : Nat}
    (hdone : ∀ e ∈ done, e.Deciphered cfg src) (h : (walkEach cfg src es done reads).fail = none) :
    ∀ e ∈ (walkEach cfg src es done reads).val, e.Deciphered cfg src := by
  induction es generalizing done reads with
  | nil => exact hdone
  | cons x es ih =>
    rw [walkEach_cons] at h ⊢
    generalize walkBlocks src cfg.strictCap (BitVec.ofNat 16 done.length) cfg.blockCap.toNat x.blkoff.toNat reads [] = w
      at h ⊢
    obtain ⟨blks, reads', fail⟩ := w
    cases fail with
    | some f => cases h
    | none =>
      rw [eachFromBlocks_ended] at h ⊢
      have hval := walkData_val (src := src) (eidx := BitVec.ofNat 16 done.length) (bs := blks) (b := 0) (reads := reads')
        (cbuf := [])
      generalize walkData src (BitVec.ofNat 16 done.length) blks 0 reads' [] = d at h hval ⊢
      obtain ⟨data, reads'', fail'⟩ := d
      cases fail' with
      | some f => cases h
      | none =>
        refine ih (fun e he => ?_) h
        rcases List.mem_append.mp he with he | he
        · exact hdone e he
        · obtain rfl : data = blockData src blks := hval rfl
          rw [List.mem_singleton.mp he]
          exact ⟨rfl, rfl⟩

theorem decodeContainer_deciphered {cfg : Configuration} {src : Source} (h : (decodeContainer cfg src).fail = none) :
    ∀ e ∈ (decodeContainer cfg src).ent, e.Deciphered cfg src := by
  cases hm : memRead src 1 0 6 with
  | error e => simp [decodeContainer, hm] at h
  | ok m =>
    by_cases hmagic : m = Config.magic
    · subst hmagic
      cases ho : memRead src 2 6 4 with
      | error e => simp [decodeContainer, hm, ho] at h
      | ok off =>
        rw [decodeContainer_of_header hm ho] at h ⊢
        generalize walkEntries src cfg.strictCap cfg.entryCap.toNat (le32 off).toNat 2 [] = w at h ⊢
        obtain ⟨es, reads, fail⟩ := w
        cases fail with
        | some f => cases h
        | none => exact walkEach_deciphered (fun e he => (List.not_mem_nil he).elim) h
    · simp [decodeContainer, hm, hmagic] at h

/-! ## Behind the response -/

/-- No reset asserted and no command waiting. -/
structure State.Undisturbed (s : State) : Prop where
  resetIn : s.resetIn = false
  waiting : s.waiting = none

theorem State.Undisturbed.step_idle {s : State} (h : s.Undisturbed) (hphase : s.phase = .idle) :
    step s = .next s.delivered := by
  rcases s.idleStep_cases with ⟨p, -, hp, -⟩ | ⟨-, hi⟩
  · cases h.waiting.symm.trans hp
  · exact step_of_quiet s _ ((s.fetch_idle h.resetIn hphase).trans (congrArg _ hi))

theorem State.Undisturbed.step {s t : State} (h : s.Undisturbed) (hstep : step s = .next t) : t.Undisturbed := by
  by_cases hphase : s.phase = .idle
  · cases (h.step_idle hphase).symm.trans hstep
    exact ⟨h.resetIn, h.waiting⟩
  · have hkeeps := keepsInputs_of_step h.resetIn hphase hstep
    exact ⟨hkeeps.resetIn.trans h.resetIn, hkeeps.waiting.trans h.waiting⟩

theorem State.Undisturbed.run {s t : State} {n : Nat} (h : s.Undisturbed) (hrun : Host.Core.run core n s = .next t) :
    t.Undisturbed := by
  induction n generalizing s with
  | zero =>
    cases hrun
    exact h
  | succ n ih =>
    obtain ⟨u, hu⟩ := everyStepAnswersANextState s
    exact ih (h.step hu) ((run_succ_of_step n hu).symm.trans hrun)

/-- A block that nothing disturbs between commands keeps its store and its status group. -/
theorem State.Undisturbed.run_idle {s t : State} {n : Nat} (h : s.Undisturbed) (hphase : s.phase = .idle)
    (hrun : Host.Core.run core n s = .next t) : t.store = s.store ∧ t.status = s.status := by
  induction n generalizing s with
  | zero =>
    cases hrun
    exact ⟨rfl, rfl⟩
  | succ n ih =>
    have hstep := h.step_idle hphase
    exact ih (s := s.delivered) (h.step hstep) hphase ((run_succ_of_step n hstep).symm.trans hrun)

theorem run_add {s u : State} {m : Nat} (h : Host.Core.run core m s = .next u) (n : Nat) :
    Host.Core.run core (m + n) s = Host.Core.run core n u := by
  induction m generalizing s with
  | zero =>
    cases h
    rw [Nat.zero_add]
  | succ m ih =>
    obtain ⟨v, hv⟩ := everyStepAnswersANextState s
    rw [Nat.succ_add, run_succ_of_step _ hv]
    exact ih ((run_succ_of_step m hv).symm.trans h)

/-- Whenever an undisturbed run is idle again, it has come to the same store and status group. -/
theorem State.Undisturbed.idle_unique {s t u : State} {m n : Nat} (h : s.Undisturbed)
    (ht : Host.Core.run core m s = .next t) (hu : Host.Core.run core n s = .next u) (htidle : t.phase = .idle)
    (huidle : u.phase = .idle) : u.store = t.store ∧ u.status = t.status := by
  rcases Nat.le_total m n with hmn | hnm
  · obtain ⟨k, rfl⟩ := Nat.exists_eq_add_of_le hmn
    exact (h.run ht).run_idle htidle ((run_add ht k).symm.trans hu)
  · obtain ⟨k, rfl⟩ := Nat.exists_eq_add_of_le hnm
    obtain ⟨hstore, hstatus⟩ := (h.run hu).run_idle huidle ((run_add hu k).symm.trans ht)
    exact ⟨hstore.symm, hstatus.symm⟩

theorem Decoded.fail_eq_none {d : Decoded} (h : d.status.err = .ok) : d.fail = none := by
  cases hf : d.fail with
  | none => rfl
  | some f => simp [Decoded.status, hf] at h

/-- Settles O58: the payload is the ciphertext deciphered (O57), and deciphering undoes enciphering (O17). -/
theorem decodeRestoresThePlaintext : Obligations.DecodeRestoresThePlaintext := by
  intro s t k i e p hreset hphase hcmd hav hwait hrun hidle herr he hcipher
  obtain ⟨n, u, hrun', hresp, hdec⟩ := run_kdbDecode hreset hphase hcmd hav
  obtain ⟨hstore, hstatus⟩ := State.Undisturbed.idle_unique ⟨hreset, hwait⟩ hrun hrun' hidle hresp.phase
  obtain ⟨hresult, hdstatus, -⟩ := hdec.standsFor.of_idle hresp.phase
  have hfail := Decoded.fail_eq_none ((congrArg Status.err (hdstatus.symm.trans hstatus)).trans herr)
  have hmem : e ∈ u.store.ent := hstore ▸ List.mem_of_getElem? he
  obtain ⟨hresolved, hpayload⟩ := decodeContainer_deciphered hfail e (congrArg Decoded.ent hresult ▸ hmem)
  have hplain : e.payload = p := by
    rw [hpayload, hcipher]
    exact cryptBytes_cryptBytes p s.cfg.kdbSeed
  obtain ⟨-, hlen⟩ := (hdec.walking.store.entries e hmem).resolved hresolved
  exact ⟨hplain, by rw [← hlen, hplain], hresolved⟩

end Sys2Proof.Machine
end

section
/-! O10, O12, O18, O20 and O21. What the keystream samples, and the XOR commands on operands of any number of bytes. -/

namespace Sys2Proof.Machine

theorem getElem?_keystream (n : Nat) (s : Word) (k : Nat) (hk : k < n) :
    (keystream n s)[k]? = some ((lfsrStages (8 * (k + 1)) s).setWidth 8) := by
  induction n generalizing s k with
  | zero => exact absurd hk (Nat.not_lt_zero k)
  | succ n ih =>
    rw [keystream_succ, lfsrStages_bytes_succ]
    cases k with
    | zero => rfl
    | succ k => exact ih _ k (Nat.lt_of_succ_lt_succ hk)

/-- Settles O10: each byte is sampled eight stages behind the one before it. -/
theorem keystreamSamplesTheState : Obligations.KeystreamSamplesTheState :=
  fun n seed => ⟨length_keystream n seed, getElem?_keystream n seed⟩

/-- Settles O12: the unit's stages, byte by byte (O13). -/
theorem ksgUnitComputesKeystream : Obligations.KsgUnitComputesKeystream := genKeystream_eq

/-- Settles O18: operands handed over whole are the ports' sequences. -/
theorem xorApplyDeliversTheXor : Obligations.XorApplyDeliversTheXor := exec_xorApply_of_whole

/-- XOR.APPLY past both tests, on the operand sequences (R121). -/
theorem exec_xorApply_of_equal (s : State) (hd : s.ports.dlen.getLsbD 31 = false) (hk : s.ports.klen = s.ports.dlen) :
    exec .xorApply s = .next (s.respondOk (xorBytes s.dataOperand s.keyOperand) none) := by
  have hsigns : (lengthNegative s.ports.dlen || lengthNegative s.ports.klen) = false :=
    Bool.or_eq_false_iff.mpr ⟨hd, hk ▸ hd⟩
  rw [exec, execXorApply, if_neg (ne_true_of_eq_false hsigns), if_neg (not_not_intro hk.symm)]

/-- Settles O20: an operand has the length its port says, and begins with the bytes handed over. -/
theorem xorApplyRunsOnShortSequences : Obligations.XorApplyRunsOnShortSequences := by
  intro s hd hk
  have hdlen : s.dataOperand.length = s.ports.dlen.toNat := length_portBytes _ _ _
  have hklen : s.keyOperand.length = s.ports.dlen.toNat := (length_portBytes _ _ _).trans (congrArg _ hk)
  refine ⟨_, _, exec_xorApply_of_equal s hd hk, s.respondOk_delivery _ _, ?_, fun i x y hi hx hy => ?_, rfl, rfl, rfl, rfl⟩
  · rw [length_xorBytes _ _ (hdlen.trans hklen.symm), hdlen]
  · exact getElem?_xorBytes _ _ i x y (getElem?_portBytes _ _ _ i hi x hx)
      (getElem?_portBytes _ _ _ i (hk.symm ▸ hi) y hy)

/-- Settles O21: the first command leaves a quiescent block and delivers as many bytes as the data have. -/
theorem xorCryptIsTwoCommands : Obligations.XorCryptIsTwoCommands := by
  intro s data seed hq hshort
  have hlen : (BitVec.ofNat 32 data.length).toNat = data.length := by
    rw [BitVec.toNat_ofNat, Nat.mod_eq_of_lt (hshort.trans (by decide))]
  have hkey : (keystream data.length seed).length = data.length := length_keystream _ _
  have hgen := exec_ksGen_of_nonneg (s.accept (HostCommand.cryptKey data seed).ports) (getLsbD_top_ofNat hshort)
  have hrun := hq.run_present (HostCommand.cryptKey data seed).ports hgen
  set t := State.respondOk _ _ _ with ht
  have hout : t.delivery = some { resp := .ok, out := keystream data.length seed, idx := none } := by
    rw [ht, State.respondOk_delivery]
    exact congrArg (fun n => some (Delivery.mk .ok (keystream n seed) none)) hlen
  have htq : t.Quiescent := ⟨rfl, rfl, rfl, hq.resetIn⟩
  have hxor := exec_xorApply_of_whole (t.accept (HostCommand.cryptApply data (keystream data.length seed)).ports)
    (getLsbD_top_ofNat hshort) (congrArg (BitVec.ofNat 32) hkey) hlen.symm
    (hkey.trans (hlen.symm.trans (congrArg (fun n => (BitVec.ofNat 32 n).toNat) hkey.symm)))
  exact ⟨t, _, _, hrun, hout, htq, htq.run_present _ hxor, State.respondOk_delivery _ _ _,
    ⟨rfl, rfl, rfl, htq.resetIn⟩⟩

end Sys2Proof.Machine
end

section
/-! O5, O29 and O31. The fetches of the records of SRC below the caps, from a source that can be read throughout: an
equation for each end. -/

namespace Sys2Proof.Machine

section Records

variable {s : State} (hr : s.Readable)
include hr

/-! ## Entry records (R135 to R137) -/

theorem State.Readable.fetchEntryRecord_noProbe (hl : s.ports.src.len.val < s.cursor + 4) :
    s.fetchEntryRecord = .quiet ((s.addReads 1).raise .truncatedError 0) := by
  rw [State.fetchEntryRecord, hr.readSrc_beyond s.cursor 4 (by decide) hl]

theorem State.Readable.fetchEntryRecord_sentinel (hl : s.cursor + 4 ≤ s.ports.src.len.val)
    (hs : isSentinel (s.ports.src.bytes s.cursor 4) = true) :
    s.fetchEntryRecord = .run .entEnd (s.probed (s.ports.src.bytes s.cursor 4) 1) := by
  rw [State.fetchEntryRecord, hr.readSrc_inside s.cursor 4 (by decide) hl]
  simp only [State.addReads_setProbe, hs, if_true, decodeEntryRecord]

theorem State.Readable.fetchEntryRecord_noName (hl : s.cursor + 4 ≤ s.ports.src.len.val)
    (hs : isSentinel (s.ports.src.bytes s.cursor 4) = false) (hl' : s.ports.src.len.val < s.cursor + 16) :
    s.fetchEntryRecord = .quiet ((s.probed (s.ports.src.bytes s.cursor 4) 2).raise .truncatedError 0) := by
  have hname := State.Readable.readSrc_beyond (s := s.probed (s.ports.src.bytes s.cursor 4) 1) hr (s.cursor + 4) 12
    (by decide) hl'
  rw [State.fetchEntryRecord, hr.readSrc_inside s.cursor 4 (by decide) hl]
  simp only [State.addReads_setProbe, hs, Bool.false_eq_true, if_false, hname, State.probed_addReads]

theorem State.Readable.fetchEntryRecord_noOffset (hs : isSentinel (s.ports.src.bytes s.cursor 4) = false)
    (hl : s.cursor + 16 ≤ s.ports.src.len.val) (hl' : s.ports.src.len.val < s.cursor + 20) :
    s.fetchEntryRecord = .quiet ((s.probed (s.ports.src.bytes s.cursor 4) 3).raise .truncatedError 0) := by
  have hname := State.Readable.readSrc_inside (s := s.probed (s.ports.src.bytes s.cursor 4) 1) hr (s.cursor + 4) 12
    (by decide) hl
  have hoff := State.Readable.readSrc_beyond (s := s.probed (s.ports.src.bytes s.cursor 4) 2) hr (s.cursor + 16) 4
    (by decide) hl'
  rw [State.fetchEntryRecord, hr.readSrc_inside s.cursor 4 (by decide) (by omega)]
  simp only [State.addReads_setProbe, hs, Bool.false_eq_true, if_false, hname, hoff, State.probed_addReads]

theorem State.Readable.fetchEntryRecord_whole (hs : isSentinel (s.ports.src.bytes s.cursor 4) = false)
    (hl : s.cursor + 20 ≤ s.ports.src.len.val) :
    s.fetchEntryRecord =
      .run (.ent (s.ports.src.bytes s.cursor 16) (le32 (s.ports.src.bytes (s.cursor + 16) 4)))
        (s.probed (s.ports.src.bytes s.cursor 4) 3) := by
  have hname := State.Readable.readSrc_inside (s := s.probed (s.ports.src.bytes s.cursor 4) 1) hr (s.cursor + 4) 12
    (by decide) (show s.cursor + 4 + 12 ≤ s.ports.src.len.val by omega)
  have hoff := State.Readable.readSrc_inside (s := s.probed (s.ports.src.bytes s.cursor 4) 2) hr (s.cursor + 16) 4
    (by decide) hl
  rw [State.fetchEntryRecord, hr.readSrc_inside s.cursor 4 (by decide) (by omega)]
  simp only [State.addReads_setProbe, hs, Bool.false_eq_true, if_false, hname, hoff, State.probed_addReads]
  exact congrArg (Fetched.run · _) (decodeEntryRecord_reads s.ports.src.mem s.cursor hs)

/-! ## Block records (R142, R143) -/

theorem State.Readable.fetchBlockRecord_noProbe (hl : s.ports.src.len.val < s.cursor + 6) :
    s.fetchBlockRecord = .quiet ((s.addReads 1).raise .truncatedError 0) := by
  rw [State.fetchBlockRecord, hr.readSrc_beyond s.cursor 6 (by decide) hl]

theorem State.Readable.fetchBlockRecord_whole (hl : s.cursor + 6 ≤ s.ports.src.len.val) :
    s.fetchBlockRecord =
      .run (decodeBlockRecord (s.ports.src.bytes s.cursor 6)) (s.probed (s.ports.src.bytes s.cursor 6) 1) := by
  rw [State.fetchBlockRecord, hr.readSrc_inside s.cursor 6 (by decide) hl]
  rfl

end Records

/-- Settles O29: an equation of the fetch for each end, and the last one runs ENT. -/
theorem entryListPhase : Obligations.EntryListPhase := by
  intro s hreset hphase hr hcap src probed
  have hfetch := (s.fetch_entlist hreset hphase).trans (if_pos hcap)
  have hsent := isSentinel_iff (src.bytes s.cursor 4) (by simp)
  rw [List.take_of_length_le (by simp)] at hsent
  refine ⟨fun hl => ?_, fun hl hq => ?_, fun hl hq => ⟨fun hl' => ?_, fun hl' hl'' => ?_, fun hl' => ?_⟩⟩
  · exact step_of_quiet s _ (hfetch.trans (hr.fetchEntryRecord_noProbe hl))
  · exact step_of_run s _ _ (hfetch.trans (hr.fetchEntryRecord_sentinel hl (hsent.mpr hq)))
  all_goals have hs : isSentinel (src.bytes s.cursor 4) = false := Bool.eq_false_iff.mpr (mt hsent.mp hq)
  · exact step_of_quiet s _ (hfetch.trans (hr.fetchEntryRecord_noName hl hs hl'))
  · exact step_of_quiet s _ (hfetch.trans (hr.fetchEntryRecord_noOffset hs hl' hl''))
  · exact step_of_run s _ _ (hfetch.trans (hr.fetchEntryRecord_whole hs hl'))

/-- Settles O31: the six bytes are one record, the sentinel or a block. -/
theorem blockListPhase : Obligations.BlockListPhase := by
  intro s hreset hphase hr hcap src probed
  have hfetch := (s.fetch_blklist hreset hphase).trans (if_pos hcap)
  have hsent := isSentinel_bytes src s.cursor 6 (by decide)
  refine ⟨fun hl => ?_, fun hl hq => ?_, fun hl hq => ?_⟩
  · exact step_of_quiet s _ (hfetch.trans (hr.fetchBlockRecord_noProbe hl))
  · rw [step_of_run s _ _ (hfetch.trans (hr.fetchBlockRecord_whole hl))]
    exact exec_blockRecord_sentinel _ (hsent.mpr hq) _
  · obtain ⟨hsize, hoff⟩ := src.blockFields s.cursor
    rw [step_of_run s _ _ (hfetch.trans (hr.fetchBlockRecord_whole hl)), decodeBlockRecord, if_neg (mt hsent.mp hq),
      hsize, hoff]
    rfl

/-! ## Decoding the rest of SRC -/

theorem Source.length_tail (src : Source) (a : Nat) : (src.tail a).length = src.len.val - a := src.length_bytes _ _

theorem Source.take_tail (src : Source) (a n : Nat) (h : n ≤ (src.tail a).length) : (src.tail a).take n = src.bytes a n :=
  src.take_bytes a _ n (src.length_tail a ▸ h)

theorem decode_header_ok {q rest : List Byte} {i : Instr} (h : decode .header q = .ok (i, rest)) :
    10 ≤ q.length ∧ q.take 6 = Config.magic ∧ i = .hdr (le32 ((q.take 10).drop 6)) := by
  rw [decode] at h
  split_ifs at h with h6 hm h10
  cases h
  exact ⟨not_lt.mp h10, not_not.mp hm, rfl⟩

theorem decode_entryList_ok {q rest : List Byte} {i : Instr} (h : decode .entryList q = .ok (i, rest)) :
    (4 ≤ q.length ∧ isSentinel (q.take 4) = true ∧ i = .entEnd) ∨
    (20 ≤ q.length ∧ isSentinel (q.take 4) = false ∧ i = .ent (q.take 16) (le32 ((q.take 20).drop 16))) := by
  rw [decode] at h
  split_ifs at h with h4 hs h20 <;> cases h
  · have hs' : isSentinel (q.take 4) = true := by rw [isSentinel_take q 4 (Nat.le_refl 4), hs]
    exact .inl ⟨not_lt.mp h4, hs', if_pos hs'⟩
  · rw [Bool.not_eq_true] at hs
    have hs' : isSentinel (q.take 20) = false := by rw [isSentinel_take q 20 (by decide), hs]
    refine .inr ⟨not_lt.mp h20, by rw [isSentinel_take q 4 (Nat.le_refl 4), hs], ?_⟩
    rw [decodeEntryRecord, if_neg (ne_true_of_eq_false hs'), List.take_take]
    rfl

theorem decode_blockList_ok {q rest : List Byte} {i : Instr} (h : decode .blockList q = .ok (i, rest)) :
    6 ≤ q.length ∧ i = decodeBlockRecord (q.take 6) := by
  rw [decode] at h
  split_ifs at h with h6
  cases h
  exact ⟨not_lt.mp h6, rfl⟩

/-! ## What the fetch leaves -/

/-- A code comes from the port. -/
theorem State.afterFetch_command {s : State} {i : Instr} (h : i.position = .command) : s.afterFetch i = s := by
  rw [State.afterFetch, h]

/-- A block record and the sentinel's record are one read alike. -/
theorem fetchReads_decodeBlockRecord (q : List Byte) : fetchReads (decodeBlockRecord q) = 1 := by
  unfold decodeBlockRecord
  split_ifs <;> rfl

theorem State.afterFetch_blockRecord (s : State) (q : List Byte) (h : q.length = 6) :
    s.afterFetch (decodeBlockRecord q) = s.probed (s.ports.src.bytes s.cursor 6) 1 := by
  obtain ⟨-, -, hposition⟩ := decodeBlockRecord_encodes q h
  rw [State.afterFetch, hposition, fetchReads_decodeBlockRecord]
  rfl

/-- Settles O5: what the decoder takes from the rest of SRC is what the fetch reads piece by piece. -/
theorem stepRunsTheDecodedInstruction : Obligations.StepRunsTheDecodedInstruction := by
  intro s i rest hreset hr
  refine ⟨fun hphase h => ?_, fun hphase h => ?_, fun hphase hcap h => ?_, fun hphase hcap h => ?_⟩
  · cases h
    obtain ⟨-, -, hposition⟩ := decodeCommand_encodes s.ports.cmd
    exact (step_of_run s _ _ (s.fetch_cmd hreset hphase)).trans
      (congrArg (exec _) (State.afterFetch_command hposition).symm)
  · obtain ⟨hlen, hm, rfl⟩ := decode_header_ok h
    have h10 : 10 ≤ s.ports.src.len.val := by simpa [Source.length_tail] using hlen
    rw [Source.take_tail _ _ _ (by omega)] at hm
    rw [Source.take_tail _ _ _ hlen, Source.drop_bytes _ _ _ _ (by decide)]
    exact step_of_run s _ _ ((s.fetch_hdr hreset hphase).trans (hr.fetchHeader_whole h10 hm))
  · have hfetch := (s.fetch_entlist hreset hphase).trans (if_pos hcap)
    have hlen := s.ports.src.length_tail s.cursor
    rcases decode_entryList_ok h with ⟨h4, hs, rfl⟩ | ⟨h20, hs, rfl⟩
    · rw [Source.take_tail _ _ _ h4] at hs
      exact step_of_run s _ _ (hfetch.trans (hr.fetchEntryRecord_sentinel (by omega) hs))
    · rw [Source.take_tail _ _ _ (by omega)] at hs
      rw [Source.take_tail _ _ _ (by omega), Source.take_tail _ _ _ h20, Source.drop_bytes _ _ _ _ (by decide)]
      exact step_of_run s _ _ (hfetch.trans (hr.fetchEntryRecord_whole hs (by omega)))
  · have hfetch := (s.fetch_blklist hreset hphase).trans (if_pos hcap)
    have hlen := s.ports.src.length_tail s.cursor
    obtain ⟨h6, rfl⟩ := decode_blockList_ok h
    rw [Source.take_tail _ _ _ h6, s.afterFetch_blockRecord _ (by simp)]
    exact step_of_run s _ _ (hfetch.trans (hr.fetchBlockRecord_whole (by omega)))

end Sys2Proof.Machine
end

section
/-! O1, O7, O23, O25, O27 and O45. Single words, reads, records and the reset state. -/

namespace Sys2Proof.Machine

/-- Settles O1: each row by evaluation. -/
theorem sampleWordsDecode : Obligations.SampleWordsDecode := by
  refine ⟨?_, ?_, ?_, ?_, ?_, ?_, ?_, ?_, ?_, ?_⟩ <;> rfl

/-- Settles O7: a read of some bytes has one of three ends (R55). -/
theorem readErrorsAreRaised : Obligations.ReadErrorsAreRaised := by
  intro s addr n hn
  rcases s.readSrc_cases addr n with ⟨h0, -⟩ | ⟨-, hav, hin, h⟩ | ⟨-, hav, hout, h⟩ | ⟨-, hav, h⟩
  · exact absurd h0 hn.ne'
  · exact ⟨fun hno => absurd hav (by simp [hno]), fun _ hout => absurd hin hout.not_ge, fun _ _ => h⟩
  · exact ⟨fun hno => absurd hav (by simp [hno]), fun _ _ => h, fun _ hin => absurd hin hout.not_ge⟩
  · exact ⟨fun _ => h, fun hyes => absurd hav (by simp [hyes]), fun hyes => absurd hav (by simp [hyes])⟩

/-- Settles O23: HDR is the move to the entry list. -/
theorem hdrSetsTheStoreAndSeeks : Obligations.HdrSetsTheStoreAndSeeks := fun _ _ => rfl

/-- Settles O25: the list ends at entry 0, or, without one, in OK. -/
theorem entEndLeavesTheList : Obligations.EntEndLeavesTheList := by
  intro s
  have hexec : exec .entEnd s = .next s.endEntryList := rfl
  refine ⟨fun hnone => ?_, fun e hsome he => ?_⟩ <;> rw [hexec] <;>
    rcases s.endEntryList_cases with ⟨hpos, h⟩ | ⟨hzero, h⟩
  · exact absurd hpos (by rw [hnone]; decide)
  · rw [h]; rfl
  · rw [h, State.startEntry, s.entryAt_of_getElem? (BitVec.toNat 0) e he]
  · exact absurd (BitVec.eq_of_toNat_eq hzero) hsome

/-- Settles O27: BLK.END is the move to phase DATA. -/
theorem blkEndStartsTheDataPhase : Obligations.BlkEndStartsTheDataPhase := fun _ _ => rfl

/-- Settles O45: the state of a reset is closed; no entry has meaning in it (R30). -/
theorem resetStateValues : Obligations.ResetStateValues := by
  refine ⟨rfl, rfl, rfl, rfl, rfl, rfl, rfl, rfl, rfl, rfl, rfl, rfl, rfl, rfl, ?_⟩
  exact State.readEntry_eq_none_of_ecnt rfl

end Sys2Proof.Machine
end

section
/-! O33. Phase DATA over a source that can be read: an equation of `State.gather` for each end of a block's data. -/

namespace Sys2Proof.Machine

theorem Block.toNat_size_pos (b : Block) (h : b.size ≠ 0) : 0 < b.size.toNat :=
  Nat.pos_of_ne_zero fun hzero => h (BitVec.eq_of_toNat_eq hzero)

/-- A block of size 0 appends nothing (R147). -/
theorem State.appendData_nil (s : State) : s.appendData [] 0 = { s with par := { s.par with didx := s.par.didx + 1 } } := by
  simp [State.appendData]

theorem State.gather_none {s : State} (h : s.dataBlock = none) : s.gather = { s with phase := .dec } := by
  rw [State.gather, h]

section Block

variable {s : State} {b : Block} (hb : s.dataBlock = some b)
include hb

theorem State.gather_empty (hsize : b.size = 0) :
    s.gather = { s with par := { s.par with didx := s.par.didx + 1 } } := by
  have hread : s.readSrc b.dataoff.toNat b.size.toNat = .bytes [] s := by rw [hsize]; rfl
  simp only [State.gather, hb, hread]
  rw [hsize, State.appendData_nil]

theorem State.Readable.gather_beyond (hr : s.Readable) (hsize : 0 < b.size.toNat)
    (hl : s.ports.src.len.val < b.dataoff.toNat + b.size.toNat) :
    s.gather = (s.addReads 1).raise .truncatedError 0 := by
  simp only [State.gather, hb, hr.readSrc_beyond _ _ hsize hl]

theorem State.Readable.gather_inside (hr : s.Readable) (hsize : 0 < b.size.toNat)
    (hl : b.dataoff.toNat + b.size.toNat ≤ s.ports.src.len.val) :
    s.gather = (s.addReads 1).appendData (s.ports.src.bytes b.dataoff.toNat b.size.toNat) b.size := by
  simp only [State.gather, hb, hr.readSrc_inside _ _ hsize hl]

end Block

/-- Settles O33: TLEN and the block index do not wrap, for a payload fits 32 bits (R29) and an entry's blocks 16. -/
theorem dataPhase : Obligations.DataPhase := by
  intro s e hinv hreset hphase hr he
  have hstep : step s = .next s.gather := step_of_quiet s _ (s.fetch_data hreset hphase)
  obtain ⟨hat, -⟩ := hinv.progress.data hphase
  have hblock : s.dataBlock = e.blks[s.par.didx.toNat]? := by
    rw [hat.dataBlock_eq hinv.store, s.entryAt_of_getElem? _ e he]
  rw [hstep, ← hblock]
  refine ⟨fun b hb => ⟨fun hsize => ?_, fun hsize hl => ?_, fun hsize hl => ?_⟩, fun hnone => ?_⟩
  · rw [State.gather_empty hb hsize]
  · rw [hr.gather_beyond hb (b.toNat_size_pos hsize) hl]
  · refine ⟨_, congrArg _ (hr.gather_inside hb (b.toNat_size_pos hsize) hl), rfl, ?_, ?_, rfl, rfl, hphase⟩
    · exact hinv.walking.toNat_tlen_add hphase hb
    · exact hinv.walking.toNat_didx_succ hphase hb
  · rw [State.gather_none hnone]

end Sys2Proof.Machine
end

section
/-! O38 and O39. The control registers as words: their fields, and what a raise writes in them. -/

namespace Sys2Proof.Machine

/-- R41 with each field shifted into place: SUB from bit 4, PHASE from bit 0. -/
theorem State.errinfoWord_eq (s : State) :
    s.errinfoWord = (s.status.errSub.setWidth 32 <<< 4) ||| s.status.errPhase.code.setWidth 32 := by
  unfold State.errinfoWord
  generalize s.status.errSub = sub
  generalize s.status.errPhase.code = phase
  revert sub phase
  decide

/-- Two fields side by side are the two of them shifted into place. -/
theorem append_eq_shiftLeft_or {v w : Nat} (x : BitVec v) (y : BitVec w) :
    x ++ y = (x.setWidth (v + w) <<< w) ||| y.setWidth (v + w) := by
  ext i hi
  by_cases hlow : i < w
  · simp [BitVec.getElem_append, hlow]
  · simp [BitVec.getElem_append, hlow, BitVec.getLsbD_of_ge y i (not_lt.mp hlow),
      BitVec.getLsbD_eq_getElem (show i - w < v by omega)]

/-- R42 with each field shifted into place: BIDX from bit 16, EIDX from bit 0. -/
theorem State.erridxWord_eq (s : State) :
    s.erridxWord = (s.status.errBidx.setWidth 32 <<< 16) ||| s.status.errEidx.setWidth 32 :=
  append_eq_shiftLeft_or s.status.errBidx s.status.errEidx

/-! ## A raise -/

/-- What ERRIDX reads after a raise: the indices of its phase. -/
theorem State.readCR_erridx_raise (s : State) (e : Err) (sub : BitVec 2) {i b : Half} (h : s.errIndices = (i, b)) :
    (s.raise e sub).readCR 10 = some ((b.setWidth 32 <<< 16) ||| i.setWidth 32) := by
  have hword := (s.raise e sub).erridxWord_eq
  rw [show (s.raise e sub).status.errEidx = s.errIndices.1 from rfl,
    show (s.raise e sub).status.errBidx = s.errIndices.2 from rfl, h] at hword
  exact congrArg some hword

/-- Settles O38: the words at the status group that the raise writes. -/
theorem raiseRecordsTheError : Obligations.RaiseRecordsTheError := by
  intro s e sub t
  have herridx {i b : Half} (h : s.errIndices = (i, b)) := s.readCR_erridx_raise e sub h
  refine ⟨?status, congrArg some t.errinfoWord_eq, fun h => ?noIndex, fun h => ?entlist, fun h => ?blklist,
    fun h => ?data, rfl, rfl, rfl, rfl, rfl, rfl⟩
  case status => exact congrArg some (t.statusWord_eq.trans BitVec.or_zero)
  case noIndex =>
    have hidx : s.errIndices = (0, 0) := by rcases h with h | h <;> rw [State.errIndices, h]
    exact herridx hidx
  case entlist =>
    have hidx : s.errIndices = (s.store.ecnt, 0) := by rw [State.errIndices, h]
    rw [herridx hidx]
    simp
  case blklist | data => exact herridx (by rw [State.errIndices, h])

/-! ## The layout -/

/-- A register that holds a field of sixteen bits reads it in its low half. -/
theorem extractLsb'_setWidth_half (x : Half) :
    (x.setWidth 32).extractLsb' 0 16 = x ∧ (x.setWidth 32).extractLsb' 16 16 = 0 := by
  refine ⟨by rw [BitVec.extractLsb'_setWidth_of_le (by decide), BitVec.extractLsb'_eq_self], ?_⟩
  ext i hi
  simp

/-- R40, field by field. -/
theorem State.statusWord_fields (s : State) :
    s.statusWord.getLsbD 0 = s.status.busy ∧ s.statusWord.getLsbD 1 = s.store.hdrv ∧
      s.statusWord.extractLsb' 2 2 = 0 ∧ s.statusWord.extractLsb' 4 4 = s.status.err.code ∧
      s.statusWord.extractLsb' 8 24 = 0 := by
  unfold State.statusWord
  generalize s.status.err.code = err
  cases s.store.hdrv <;> cases s.status.busy <;> revert err <;> decide

/-- R41, field by field. -/
theorem State.errinfoWord_fields (s : State) :
    s.errinfoWord.extractLsb' 0 3 = s.status.errPhase.code ∧ s.errinfoWord.getLsbD 3 = false ∧
      s.errinfoWord.extractLsb' 4 2 = s.status.errSub ∧ s.errinfoWord.extractLsb' 6 26 = 0 := by
  unfold State.errinfoWord
  generalize s.status.errSub = sub
  generalize s.status.errPhase.code = phase
  revert sub phase
  decide

/-- CR7 (R39): STRICT_CAP in its low bit. -/
theorem strictCapWord_fields (b : Bool) :
    ((BitVec.ofBool b).setWidth 32).getLsbD 0 = b ∧ ((BitVec.ofBool b).setWidth 32).extractLsb' 1 31 = 0 := by
  cases b <;> decide

/-- There is no register above CR11 (U27). -/
theorem State.readCR_none (s : State) (n : Nat) (h : 11 < n) : s.readCR n = none := by
  obtain ⟨k, rfl⟩ := Nat.exists_eq_add_of_le' (show 12 ≤ n from h)
  rfl

/-- Settles O39: register by register. -/
theorem controlRegisterLayout : Obligations.ControlRegisterLayout := fun s =>
  ⟨rfl, rfl, rfl, rfl, rfl,
    ⟨_, rfl, extractLsb'_setWidth_half s.cfg.entryCap⟩,
    ⟨_, rfl, extractLsb'_setWidth_half s.cfg.blockCap⟩,
    ⟨_, rfl, strictCapWord_fields s.cfg.strictCap⟩,
    ⟨_, rfl, s.statusWord_fields⟩,
    ⟨_, rfl, s.errinfoWord_fields⟩,
    ⟨_, rfl, BitVec.extractLsb'_append_eq_right, BitVec.extractLsb'_append_eq_left⟩,
    ⟨_, rfl, extractLsb'_setWidth_half s.store.ecnt⟩,
    s.readCR_none⟩

end Sys2Proof.Machine
end
